-- ==== Sys2Proof/Word.lean ====
section
/-! DEFINITION. The word types of FDB. A byte is 8 bits, bit 7 the most significant (R12); every memory
access moves one byte (R66); the registers' widths are those of spec/10_state.md. -/

namespace Sys2Proof

/-- A byte (R12). -/
abbrev Byte := BitVec 8

/-- The 16-bit registers: the header offsets, WIDTH, HEIGHT, STRIDE, X, Y (R21, R24, R36). -/
abbrev Half := BitVec 16

/-- The 32-bit registers (R21, R23, R24, R37 to R39). -/
abbrev Word := BitVec 32

end Sys2Proof
end

