-- ==== Sys2Proof/Config.lean ====
section
/-! DEFINITION. What an implementation of FDB fixes (R8), the constants the document fixes (R6), and the free
values: opaque constants, without a body, for what the spec leaves unspecified. -/

namespace Sys2Proof

/-- The five memory spaces (R44). -/
inductive Space where
  | pmem | opbuf | lzbuf | fb0 | fb1
deriving DecidableEq, Repr

/-- The parameters the document leaves to the implementation (R8). They are plain data, fixed for the machine:
no step changes them, and a statement over all states is a statement over all parameters (log entry 1). -/
structure Config where
  /-- `MAXPIX`: OPBUF holds `MAXPIX` entries, LZBUF `MAXPIX + 130` bytes (R8, R46, R47). -/
  maxPix : Nat
  /-- `MAXFB`: the bytes of each frame bank (R8, R48). -/
  maxFb : Nat
  /-- `PMEM_BYTES`: the bytes of the payload memory (R8, R45). -/
  pmemBytes : Nat
  /-- `LZ_C_ABORT_AFTER_LITERAL`: whether an aborting `LZC` first copies its literal run (R8, R172). -/
  lzcAbortAfterLiteral : Bool
deriving DecidableEq, Repr

/-- DESIGN CHOICE (log entry 1): the parameters of the machine that `State.reset` describes: room for every geometry
the registers can hold and for every payload length, and the spec's default for the family-C abort (R8). -/
def Config.largest : Config :=
  { maxPix := 65535 * 65535, maxFb := 65535 * 65535, pmemBytes := 2 ^ 32, lzcAbortAfterLiteral := false }

/-- `LEAF_LIMIT` (R6): a trie entry below it is a decoded symbol. -/
def leafLimit : Nat := 0x16

/-- `NODE_BIAS` (R6): subtracted from a node value to index the table. -/
def nodeBias : Nat := 0x17

/-- `SENT_BIAS` (R6): the start node is `N + SENT_BIAS`. -/
def sentBias : Nat := 0x16

/-- `LZ_PAD` (R6): bytes of LZBUF beyond the pixels. -/
def lzPad : Nat := 130

/-- `HDR_BYTES` (R6): four 16-bit offsets. -/
def hdrBytes : Nat := 8

/-- FREE VALUE (log entry 2): what a byte that nothing has written reads as, by space, by the generation of the
space's contents (a new one whenever the spec calls the contents unspecified again) and by index. -/
opaque Config.unwritten : Space → Nat → Nat → Byte

/-- FREE VALUE (log entry 3): which step boundary of the decode in progress a host read shows that is made while `BUSY = 1`
(R43), by the number of the read. -/
opaque Config.busyPick : Nat → Nat

end Sys2Proof
end

