-- ==== Sys2Proof/Syntax.lean ====
section
/-! DEFINITION. The instructions of FDB: one constructor for each of the 32 rows of spec/opcode_table.json (R111), with
the fields of its encoding (R93, R96, R100, R105). Size and vector operands of the FRP opcodes are not in the
opcode: they come from the size and vector streams when the opcode runs (R104). Likewise the literal bytes of an
LZU instruction are copied from its source, not decoded (R165). -/

namespace Sys2Proof

/-- The four formats with opcode rows (R111); which one applies to a byte is a matter of which unit fetches it. -/
inductive Format where
  | imgm | trie | lz | op
deriving DecidableEq, Repr

inductive Instr where
  /-- `IMG.RAW` (R93, R126): marker byte `m`, any value but 2. -/
  | imgRaw (m : Byte)
  /-- `IMG.LZ` (R93, R126): marker byte 2. -/
  | imgLz
  /-- `LEAF s` (R96, R150). -/
  | leaf (s : Byte)
  /-- `END` (R96, R151). -/
  | endMark
  /-- `NODE v` (R96, R152). -/
  | node (v : Byte)
  /-- `LZA`, `0ddrrrll` and operand byte `o1` (R100, R168). -/
  | lza (d : BitVec 2) (r : BitVec 3) (l : BitVec 2) (o1 : Byte)
  /-- `LZB`, `10rrrrrr` and operand bytes `o1 o2` (R100, R170). -/
  | lzb (r : BitVec 6) (o1 o2 : Byte)
  /-- `LZC`, `110drrll` and operand bytes `o1 o2 o3` (R100, R172). -/
  | lzc (d : BitVec 1) (r : BitVec 2) (l : BitVec 2) (o1 o2 o3 : Byte)
  /-- `LZLIT`, `111nnnnn` with `n <= 27` (R100, R174). -/
  | lzlit (n : BitVec 5)
  /-- `LZEND`, `111111ll` (R100, R176). -/
  | lzend (l : BitVec 2)
  /-- `FLIP` (R201). -/
  | flip
  /-- `ALT1` to `ALT8` (R202 to R209). -/
  | alt1 | alt2 | alt3 | alt4 | alt5 | alt6 | alt7 | alt8
  /-- `ALT.B`, `ALT.H`, `ALT.T` (R210 to R212). -/
  | altB | altH | altT
  /-- `MV2` to `MV8` (R213 to R219). -/
  | mv2 | mv3 | mv4 | mv5 | mv6 | mv7 | mv8
  /-- `MV.B`, `MV.H`, `MV.T` (R220 to R222). -/
  | mvB | mvH | mvT
deriving DecidableEq, Repr

/-- The format of an instruction's row in the opcode table (R111). -/
def Instr.format : Instr → Format
  | .imgRaw _ => .imgm
  | .imgLz => .imgm
  | .leaf _ => .trie
  | .endMark => .trie
  | .node _ => .trie
  | .lza _ _ _ _ => .lz
  | .lzb _ _ _ => .lz
  | .lzc _ _ _ _ _ _ => .lz
  | .lzlit _ => .lz
  | .lzend _ => .lz
  | .flip => .op
  | .alt1 => .op
  | .alt2 => .op
  | .alt3 => .op
  | .alt4 => .op
  | .alt5 => .op
  | .alt6 => .op
  | .alt7 => .op
  | .alt8 => .op
  | .altB => .op
  | .altH => .op
  | .altT => .op
  | .mv2 => .op
  | .mv3 => .op
  | .mv4 => .op
  | .mv5 => .op
  | .mv6 => .op
  | .mv7 => .op
  | .mv8 => .op
  | .mvB => .op
  | .mvH => .op
  | .mvT => .op

end Sys2Proof
end

