-- ==== Sys2Proof/Machine/State.lean ====
section
/-! DEFINITION. The state of FDB as plain data (spec/10_state.md), grouped by unit; the ways a step can stop; and the
state after reset (R51, R280). `BUSY` and the STATUS word are not stored a second time: `BUSY` is `PHASE != IDLE`
(R35) and STATUS is assembled from its fields (Machine/Flags.lean). -/

namespace Sys2Proof.Machine

/-- `PHASE` (R21): which unit is active. -/
inductive Phase where
  | idle | osd | lzu | frp
deriving DecidableEq, Repr

/-- The fault causes of R241, codes 1 to 14 (`Cause.code`). -/
inductive Cause where
  | cfgInvalid | hdrRange | osdSrcOverrun | osdTableRange | lzSrcOverrun | lzBackrefRange
  | frpOpcUnderrun | frpSizOverrun | frpVecOverrun | frpLitOverrun | frpRunOverflow
  | frpMotionRange | frpNoPrev | frpBadOpcode
deriving DecidableEq, Repr

/-- The SEQ registers (R21). -/
structure SeqRegs where
  phase : Phase
  /-- THE MODEL'S OWN (log entry 5): the active unit has ended and the SEQ step that follows it (marker step after
  OSD, literal-source step after LZU, R125) is next. -/
  unitDone : Bool
  huf : Half
  sizoff : Half
  vecoff : Half
  imgoff : Half
  /-- false: the literal pixel source is PMEM; true: it is LZBUF. -/
  litmode : Bool
  litbase : Word
  litlen : Word
deriving DecidableEq, Repr

/-- The OSD registers (R22); `OPCOUNT` is a CSR. -/
structure OsdRegs where
  n : Byte
  sent : BitVec 9
  node : BitVec 9
  bitpos : BitVec 35
deriving DecidableEq, Repr

/-- The LZU registers (R23); `LZCOUNT` is a CSR. -/
structure LzuRegs where
  src : Word
deriving DecidableEq, Repr

/-- The FRP registers (R24) and `FLAG` (R26). -/
structure FrpRegs where
  x : Half
  y : Half
  rem : Word
  flag : Bool
  opc : Word
  siz : Word
  vec : Word
  lit : Word
deriving DecidableEq, Repr

/-- The fields of STATUS (R35) but `BUSY`, which is `PHASE != IDLE`; `PREV_VALID` is R29, `CURSEL` R28 (false is 0). -/
structure StatusBits where
  done : Bool
  fault : Bool
  prevValid : Bool
  cursel : Bool
  osdEnd : Bool
  osdCap : Bool
  lzUsed : Bool
  lzTerm : Bool
  lzFull : Bool
  lzTrunc : Bool
  cause : BitVec 5
deriving DecidableEq, Repr

/-- The stored CSRs (R36 to R39): of WIDTH, HEIGHT and STRIDE the 16 bits that hold a value; `CTRL` stores nothing
(R34) and STATUS is `StatusBits`. -/
structure CsrRegs where
  width : Half
  height : Half
  stride : Half
  plen : Word
  faultinfo : Word
  opcount : Word
  lzcount : Word
deriving DecidableEq, Repr

/-- One memory space: the bytes written so far, addresses strictly rising, and THE MODEL'S OWN generation of its
unspecified contents (log entry 2). -/
structure Mem where
  cells : List Host.Cell
  gen : Nat
deriving DecidableEq, Repr

/-- The five memory spaces (R44 to R48). -/
structure Mems where
  pmem : Mem
  opbuf : Mem
  lzbuf : Mem
  fb0 : Mem
  fb1 : Mem
deriving DecidableEq, Repr

/-- The host's moves (R310): the inputs of the machine. -/
inductive HostMove where
  /-- Write the 32-bit value to the CSR of that number (R34 to R40). -/
  | writeCsr (n : Nat) (v : Word)
  /-- Read the CSR of that number. -/
  | readCsr (n : Nat)
  /-- Write a byte of PMEM. -/
  | writePmem (a : Nat) (b : Byte)
  /-- Read a byte of PMEM. -/
  | readPmem (a : Nat)
  /-- Read a byte of a frame bank (false is `FB[0]`). -/
  | readBank (bank : Bool) (a : Nat)
  /-- Apply reset (R280). -/
  | reset
deriving DecidableEq, Repr

/-- The whole machine. -/
structure State where
  /-- The implementation's parameters (R8); no step changes them. -/
  cfg : Config
  seq : SeqRegs
  osd : OsdRegs
  lzu : LzuRegs
  frp : FrpRegs
  st : StatusBits
  csr : CsrRegs
  mem : Mems
  /-- THE MODEL'S OWN (log entry 6): what the host does at each coming step: `some m` makes the move `m`, `none`
  leaves the step to FDB. After the end of the list the host does nothing. -/
  inputs : List (Option HostMove)
  /-- THE MODEL'S OWN (log entry 6): the value the host's last read returned. -/
  readback : Word
  /-- THE MODEL'S OWN (log entry 3): how many free choices host reads have used. -/
  draws : Nat
deriving DecidableEq, Repr

/-- Why a step stops with a fault OF THE MODEL. FDB's own faults are not these: they are recorded in STATUS and the
machine goes on (R262, R276). All three are safe: FDB raises none of them in a state that a decode reaches; the first
is also the answer to a host move that addresses a byte that does not exist. -/
inductive Fault where
  /-- An access to a byte that the space does not have (R45 to R48): raised by any memory access at an index not
  below the space's size. Safe. -/
  | noByte (sp : Space) (a : Nat)
  /-- A table lookup with `NODE < 0x17` and `NODE != 0x16`, for which R142 has no index: raised by the OSD step, in
  states no decode reaches (R143). Safe. -/
  | nodeBelowTable
  /-- A painting step with `W = 0`, where R199 divides by zero: raised by the FRP run opcodes, in states no decode
  reaches (R122). Safe. -/
  | zeroWidth
deriving DecidableEq, Repr

/-- Why a step is refused. -/
inductive Refusal where
  /-- An instruction without a meaning yet: raised by the arms of `exec` for it; there is none. Safe. -/
  | notModelled (mnemonic : String)
  /-- A host access to PMEM or a frame bank while `BUSY = 1`: the host has no such move (R311, U10). Raised by the
  host's moves. Safe. -/
  | hostBreach (m : HostMove)
deriving DecidableEq, Repr

/-- A memory nothing has written. -/
def Mem.empty : Mem := { cells := [], gen := 0 }

/-- The state after reset (R51, R280) with nothing written to any memory. Where R51 says "unspecified" for a register
the value here is zero (DESIGN CHOICE, log entry 7); no decode reads one of these before writing it (R282). -/
def State.reset : State where
  cfg := Config.largest
  seq := { phase := .idle, unitDone := false, huf := 0, sizoff := 0, vecoff := 0, imgoff := 0,
           litmode := false, litbase := 0, litlen := 0 }
  osd := { n := 0, sent := 0, node := 0, bitpos := 0 }
  lzu := { src := 0 }
  frp := { x := 0, y := 0, rem := 0, flag := false, opc := 0, siz := 0, vec := 0, lit := 0 }
  st := { done := false, fault := false, prevValid := false, cursel := false, osdEnd := false, osdCap := false,
          lzUsed := false, lzTerm := false, lzFull := false, lzTrunc := false, cause := 0 }
  csr := { width := 0, height := 0, stride := 0, plen := 0, faultinfo := 0, opcount := 0, lzcount := 0 }
  mem := { pmem := Mem.empty, opbuf := Mem.empty, lzbuf := Mem.empty, fb0 := Mem.empty, fb1 := Mem.empty }
  inputs := []
  readback := 0
  draws := 0

end Sys2Proof.Machine
end

