-- ==== Sys2Proof/Machine/Operands.lean ====
section
/-! DEFINITION. Operand forms: multi-byte assembly (R13, R61), signed 4-bit components (R12, R107), bit selection
(R62), and the fields of the LZU forms (R102). -/

namespace Sys2Proof.Machine

/-- `LE16`: the first byte is bits 7:0 (R13). -/
def le16 (b0 b1 : Byte) : Nat := b0.toNat + 256 * b1.toNat

/-- `BE16`: the first byte is bits 15:8 (R13). -/
def be16 (b0 b1 : Byte) : Nat := 256 * b0.toNat + b1.toNat

/-- `BE24`: the first byte is bits 23:16 (R13). -/
def be24 (b0 b1 b2 : Byte) : Nat := 65536 * b0.toNat + 256 * b1.toNat + b2.toNat

/-- `sext_4` (R12): 0..7 as they are, 8..15 less 16. -/
def sext4 (v : BitVec 4) : Int := v.toInt

/-- The horizontal component of a vector byte, its bits 7:4 (R107). -/
def vecDx (v : Byte) : Int := sext4 (v.extractLsb' 4 4)

/-- The vertical component of a vector byte, its bits 3:0 (R107). -/
def vecDy (v : Byte) : Int := sext4 (v.extractLsb' 0 4)

/-- Bit number `k` of a byte sequence, taken from the byte that holds it: bit `7 - (k mod 8)` (R62). -/
def streamBit (b : Byte) (k : Nat) : Bool := b.getLsbD (7 - k % 8)

/-- A back-reference: its distance and its run length (R102). -/
structure BackRef where
  dist : Nat
  run : Nat
deriving DecidableEq, Repr

/-- Literal run length of `LZA` and `LZC`: `c & 3` (R102). -/
def lzaLit (l : BitVec 2) : Nat := l.toNat

/-- `LZA`: `dist = ((c & 0x60) << 3) + o1 + 1`, `run = ((c & 0x1C) >> 2) + 3` (R102). -/
def lzaBack (d : BitVec 2) (r : BitVec 3) (o1 : Byte) : BackRef :=
  { dist := d.toNat * 2 ^ 8 + o1.toNat + 1, run := r.toNat + 3 }

/-- Literal run length of `LZB`: `o1 >> 6` (R102). -/
def lzbLit (o1 : Byte) : Nat := o1.toNat / 2 ^ 6

/-- `LZB`: `dist = ({o1,o2} & 0x3FFF) + 1`, `run = (c & 0x3F) + 4` (R102). -/
def lzbBack (r : BitVec 6) (o1 o2 : Byte) : BackRef :=
  { dist := be16 o1 o2 % 2 ^ 14 + 1, run := r.toNat + 4 }

/-- Literal run length of `LZC`: `c & 3` (R102). -/
def lzcLit (l : BitVec 2) : Nat := l.toNat

/-- `LZC`: `dist = ((c & 0x10) << 12) + {o1,o2} + 1`, `run = ((c & 0x0C) << 6) + o3 + 5` (R102). -/
def lzcBack (d : BitVec 1) (r : BitVec 2) (o1 o2 o3 : Byte) : BackRef :=
  { dist := d.toNat * 2 ^ 16 + be16 o1 o2 + 1, run := r.toNat * 2 ^ 8 + o3.toNat + 5 }

/-- Literal run length of `LZLIT`: `((c & 0x1F) << 2) + 4` (R102). -/
def lzlitLit (n : BitVec 5) : Nat := n.toNat * 4 + 4

/-- Literal run length of `LZEND`: `c & 3` (R102). -/
def lzendLit (l : BitVec 2) : Nat := l.toNat

/-- Where an FRP opcode's run size comes from (R105, R192): the opcode itself, or 1, 2 or 3 size-stream bytes. -/
inductive SizeSrc where
  | imm (n : Nat) | size8 | size16 | size24
deriving DecidableEq, Repr

/-- How many size-stream bytes the size operand takes (R106). -/
def SizeSrc.bytes : SizeSrc → Nat
  | .imm _ => 0
  | .size8 => 1
  | .size16 => 2
  | .size24 => 3

/-- The run size, given the three bytes at the size cursor (R106, R192). -/
def SizeSrc.value (z : SizeSrc) (b0 b1 b2 : Byte) : Nat :=
  match z with
  | .imm n => n
  | .size8 => b0.toNat
  | .size16 => be16 b0 b1
  | .size24 => be24 b0 b1 b2

end Sys2Proof.Machine
end

