-- ==== Sys2Proof/Machine/Flags.lean ====
section
/-! DEFINITION. Flags and status: `FLAG` (R26), `BUSY`, the cause codes and the STATUS word (R35, R241), `IRQ` (R266). -/

namespace Sys2Proof.Machine

/-- The new `FLAG` of opcode 0 and of every opcode `1..11`: `1 - FLAG` (R195, R201). -/
def toggledFlag (f : Bool) : Bool := !f

/-- `BUSY`: a decode is in progress, `PHASE != IDLE` (R35). -/
def State.busy (s : State) : Bool := s.seq.phase != .idle

/-- The code of a cause (R241). -/
def Cause.code : Cause → Nat
  | .cfgInvalid => 1
  | .hdrRange => 2
  | .osdSrcOverrun => 3
  | .osdTableRange => 4
  | .lzSrcOverrun => 5
  | .lzBackrefRange => 6
  | .frpOpcUnderrun => 7
  | .frpSizOverrun => 8
  | .frpVecOverrun => 9
  | .frpLitOverrun => 10
  | .frpRunOverflow => 11
  | .frpMotionRange => 12
  | .frpNoPrev => 13
  | .frpBadOpcode => 14

/-- A status bit at its place. -/
def bitAt (b : Bool) (k : Nat) : Nat := if b then 2 ^ k else 0

/-- The ending bits of STATUS, bits 10:5, as a number from bit 0 up (R35). -/
def StatusBits.endings (t : StatusBits) : Nat :=
  bitAt t.osdEnd 0 + bitAt t.osdCap 1 + bitAt t.lzUsed 2 + bitAt t.lzTerm 3 + bitAt t.lzFull 4 + bitAt t.lzTrunc 5

/-- STATUS assembled from its fields: BUSY 0, DONE 1, FAULT 2, PREV_VALID 3, CURSEL 4, the ending bits 10:5, CAUSE
20:16; the reserved bits read 0 (R35). -/
def statusOf (busy done fault prevValid cursel : Bool) (endings : Nat) (cause : BitVec 5) : Word :=
  BitVec.ofNat 32 (bitAt busy 0 + bitAt done 1 + bitAt fault 2 + bitAt prevValid 3 + bitAt cursel 4
    + endings * 2 ^ 5 + cause.toNat * 2 ^ 16)

/-- CSR 1, `STATUS` (R35). -/
def State.statusWord (s : State) : Word :=
  statusOf s.busy s.st.done s.st.fault s.st.prevValid s.st.cursel s.st.endings s.st.cause

/-- The interrupt output, `IRQ = DONE | FAULT` (R266). -/
def State.irq (s : State) : Bool := s.st.done || s.st.fault

end Sys2Proof.Machine
end

