-- ==== Sys2Proof/Machine/Ops.lean ====
section
/-! DEFINITION. The named operations over memory and registers, fault entry, and the steps of SEQ that are no
instruction: START, the units' initial steps, the literal-source step, the unit endings and completion. -/

namespace Sys2Proof.Machine

/-- The outcome of a step of this machine. -/
abbrev Out := Host.Outcome State Fault Refusal

/-! ### Derived quantities (R7) -/

def State.w (s : State) : Nat := s.csr.width.toNat
def State.h (s : State) : Nat := s.csr.height.toNat
def State.stride (s : State) : Nat := s.csr.stride.toNat
def State.plen (s : State) : Nat := s.csr.plen.toNat
/-- `NPIX = W*H` (R7). -/
def State.npix (s : State) : Nat := s.w * s.h
def State.opcount (s : State) : Nat := s.csr.opcount.toNat
def State.lzcount (s : State) : Nat := s.csr.lzcount.toNat

/-! ### Memory -/

/-- The byte at an address of a cell list, if it holds one. -/
def lookupCell (a : Nat) : List Host.Cell → Option Byte
  | [] => none
  | c :: r => if c.1 = a then some c.2 else lookupCell a r

/-- Put a byte at an address, keeping the addresses rising. -/
def insertCell (a : Nat) (b : Byte) : List Host.Cell → List Host.Cell
  | [] => [(a, b)]
  | c :: r => if a < c.1 then (a, b) :: c :: r else if a = c.1 then (a, b) :: r else c :: insertCell a b r

/-- Addresses from `lo` on, strictly rising. -/
def risingFrom (lo : Nat) : List Host.Cell → Bool
  | [] => true
  | c :: r => decide (lo ≤ c.1) && risingFrom (c.1 + 1) r

/-- The canonical form of a memory: addresses strictly rising. An unlisted byte holds no value, so no entry can equal
what an unlisted address holds. -/
def Mem.wf (m : Mem) : Bool := risingFrom 0 m.cells

/-- The value of one byte of storage, if anything has written it. -/
def Mem.get? (m : Mem) (a : Nat) : Option Byte := lookupCell a m.cells

/-- `MemRead` (R13): the byte of space `sp` at `a`; a byte nothing has written reads as a free value (log entry 2). -/
def Mem.byte (sp : Space) (m : Mem) (a : Nat) : Byte := (m.get? a).getD (Config.unwritten sp m.gen a)

/-- `MemWrite` (R13). -/
def Mem.write (m : Mem) (a : Nat) (b : Byte) : Mem := { m with cells := insertCell a b m.cells }

/-- Writes in the order of the list. -/
def Mem.writeAll : List Host.Cell → Mem → Mem
  | [], m => m
  | c :: r, m => Mem.writeAll r (m.write c.1 c.2)

/-- The contents become unspecified (R280, R49): a new generation with nothing written. -/
def Mem.forget (m : Mem) : Mem := { cells := [], gen := m.gen + 1 }

def Mems.at (m : Mems) : Space → Mem
  | .pmem => m.pmem
  | .opbuf => m.opbuf
  | .lzbuf => m.lzbuf
  | .fb0 => m.fb0
  | .fb1 => m.fb1

def Mems.set (m : Mems) (sp : Space) (x : Mem) : Mems :=
  match sp with
  | .pmem => { m with pmem := x }
  | .opbuf => { m with opbuf := x }
  | .lzbuf => { m with lzbuf := x }
  | .fb0 => { m with fb0 := x }
  | .fb1 => { m with fb1 := x }

def State.memAt (s : State) (sp : Space) : Mem := s.mem.at sp
def State.setMem (s : State) (sp : Space) (x : Mem) : State := { s with mem := s.mem.set sp x }

/-- `MemRead(S:a, 1)` (R13). -/
def State.byte (s : State) (sp : Space) (a : Nat) : Byte := (s.memAt sp).byte sp a

/-- How many bytes a space has (R45 to R48). -/
def State.size (s : State) : Space → Nat
  | .pmem => s.cfg.pmemBytes
  | .opbuf => s.cfg.maxPix
  | .lzbuf => s.cfg.maxPix + lzPad
  | .fb0 => s.cfg.maxFb
  | .fb1 => s.cfg.maxFb

/-- The first of the addresses at which the space has no byte. -/
def State.firstMissing? (s : State) (sp : Space) (as : List Nat) : Option Nat :=
  as.find? fun a => decide (s.size sp ≤ a)

/-- Go on with `k` if every address exists, else stop with the model's fault `noByte`. -/
def State.needBytes (s : State) (sp : Space) (as : List Nat) (k : Out) : Out :=
  match s.firstMissing? sp as with
  | some a => .fault (.noByte sp a)
  | none => k

/-- Bank number `b`. -/
def bankOf (b : Bool) : Space := if b then .fb1 else .fb0
/-- `CUR = FB[CURSEL]` (R28). -/
def State.cur (s : State) : Space := bankOf s.st.cursel
/-- `PREV = FB[1 - CURSEL]` (R28). -/
def State.prev (s : State) : Space := bankOf (!s.st.cursel)

/-! ### Fault entry (R262): FDB's one kind of exception. There is no return from it (R265): the next START begins anew. -/

/-- `raise C(info)`: FAULT, CAUSE and FAULTINFO are written, PHASE becomes IDLE (so BUSY is 0), nothing else changes. -/
def State.raise (c : Cause) (info : Nat) (s : State) : State :=
  { s with
    st := { s.st with fault := true, cause := BitVec.ofNat 5 c.code }
    csr := { s.csr with faultinfo := BitVec.ofNat 32 info }
    seq := { s.seq with phase := .idle } }

/-! ### The units' initial steps (R128) -/

/-- OSD's initial step (R141). -/
def State.osdInit (s : State) : State :=
  let n := s.byte .pmem s.seq.huf.toNat
  { s with osd := {
      n := n
      sent := BitVec.ofNat 9 (n.toNat + sentBias)
      node := BitVec.ofNat 9 (n.toNat + sentBias)
      bitpos := BitVec.ofNat 35 (8 * (s.seq.huf.toNat + 1 + 2 * n.toNat)) } }

/-- LZU's initial step (R161). -/
def State.lzuInit (s : State) : State :=
  { s with lzu := { src := BitVec.ofNat 32 (s.seq.imgoff.toNat + 1) } }

/-- FRP's initial step (R190). -/
def State.frpInit (s : State) : State :=
  { s with frp := {
      x := 0
      y := 0
      rem := BitVec.ofNat 32 s.npix
      flag := false
      opc := 0
      siz := s.seq.sizoff.setWidth 32
      vec := s.seq.vecoff.setWidth 32
      lit := 0 } }

/-! ### SEQ -/

/-- The start step, part 1: clearing (R121). -/
def State.startClear (s : State) : State :=
  { s with
    st := { s.st with
      done := false, fault := false, cause := 0, osdEnd := false, osdCap := false,
      lzUsed := false, lzTerm := false, lzFull := false, lzTrunc := false }
    csr := { s.csr with faultinfo := 0, opcount := 0, lzcount := 0 } }

/-- A decode takes the current bank afresh: its contents become unspecified (R49, R321; log entry 8). -/
def State.freshCurrent (s : State) : State := s.setMem s.cur (s.memAt s.cur).forget

/-- The start step, part 2: the number of the first configuration check that fails (R122). -/
def State.configError? (s : State) : Option Nat :=
  if s.w < 1 then some 1
  else if s.h < 1 then some 2
  else if s.stride < s.w then some 3
  else if s.cfg.maxPix < s.w * s.h then some 4
  else if s.cfg.maxFb < s.stride * s.h then some 5
  else if s.cfg.pmemBytes < s.plen then some 6
  else none

/-- Header field `k`: `LE16(PMEM:2k)` (R91). -/
def State.hdrField (s : State) (k : Nat) : Nat := le16 (s.byte .pmem (2 * k)) (s.byte .pmem (2 * k + 1))

/-- The start step, part 3: the info of the first header check that fails (R123). -/
def State.headerError? (s : State) : Option Nat :=
  if s.plen < hdrBytes then some 4
  else if s.plen ≤ s.hdrField 0 then some 0
  else if s.plen ≤ s.hdrField 1 then some 1
  else if s.plen ≤ s.hdrField 2 then some 2
  else if s.plen ≤ s.hdrField 3 then some 3
  else none

/-- The assignments of part 3: the four offsets, and PHASE becomes OSD (R123). -/
def State.headerLoad (s : State) : State :=
  { s with seq := { s.seq with
      phase := .osd
      unitDone := false
      huf := BitVec.ofNat 16 (s.hdrField 0)
      sizoff := BitVec.ofNat 16 (s.hdrField 1)
      vecoff := BitVec.ofNat 16 (s.hdrField 2)
      imgoff := BitVec.ofNat 16 (s.hdrField 3) } }

/-- START (R120 to R124): the atomic start step, and on entry to the OSD phase OSD's initial step (R128). -/
def State.start (s : State) : State :=
  let s1 := s.startClear.freshCurrent
  match s1.configError? with
  | some k => s1.raise .cfgInvalid k
  | none =>
    match s1.headerError? with
    | some k => s1.raise .hdrRange k
    | none => s1.headerLoad.osdInit

/-- A unit has ended; the SEQ step that follows it is next (R125). -/
def State.endUnit (s : State) : State := { s with seq := { s.seq with unitDone := true } }

/-- OSD ends on the end mark (R143). -/
def State.osdEndByMark (s : State) : State := { s with st := { s.st with osdEnd := true } }.endUnit
/-- OSD ends by the cap (R146). -/
def State.osdEndByCap (s : State) : State := { s with st := { s.st with osdCap := true } }.endUnit
/-- LZU ends because the destination is full (R162). -/
def State.lzEndFull (s : State) : State := { s with st := { s.st with lzFull := true } }.endUnit
/-- LZU ends on a terminal byte (R176). -/
def State.lzEndTerm (s : State) : State := { s with st := { s.st with lzTerm := true } }.endUnit
/-- LZU ends by the family-C capacity abort (R172). -/
def State.lzEndTrunc (s : State) : State := { s with st := { s.st with lzTrunc := true } }.endUnit

/-- The literal-source step (R127) and, on entry to the FRP phase, FRP's initial step (R128). -/
def State.literalSource (s : State) : State :=
  { s with seq := { s.seq with
      litbase := if s.seq.litmode then 0 else BitVec.ofNat 32 (s.seq.imgoff.toNat + 1)
      litlen := if s.seq.litmode then s.csr.lzcount else BitVec.ofNat 32 (s.plen - s.seq.imgoff.toNat - 1)
      phase := .frp
      unitDone := false } }.frpInit

/-- The completion step (R130). -/
def State.complete (s : State) : State :=
  { s with
    st := { s.st with cursel := !s.st.cursel, prevValid := true, done := true }
    seq := { s.seq with phase := .idle } }

/-! ### Copies and painting -/

/-- `LitCopy` (R165): `n` bytes from PMEM index `a` on, to LZBUF index `p` on, in ascending order. -/
def litCopy (pm : Mem) : Nat → Nat → Nat → Mem → Mem
  | 0, _, _, lz => lz
  | n + 1, a, p, lz => litCopy pm n (a + 1) (p + 1) (lz.write p (pm.byte .pmem a))

/-- `BackCopy` (R166): `n` bytes, each read `dist` behind the byte being written, in ascending order, so that a read
sees the bytes this copy has already written. -/
def backCopy (dist : Nat) : Nat → Nat → Mem → Mem
  | 0, _, lz => lz
  | n + 1, p, lz => backCopy dist n (p + 1) (lz.write p (lz.byte .lzbuf (p - dist)))

/-- One advance of a painting cursor `(column, row)`: at column `W` it wraps to the next row (R197). -/
def advCursor (w : Nat) (p : Nat × Nat) : Nat × Nat := if p.1 + 1 = w then (0, p.2 + 1) else (p.1 + 1, p.2)

/-- The bank indices `row*S + col` of `n` pixels in raster order from a cursor on (R48, R197). -/
def pixelAddrs (w stride : Nat) : Nat → Nat × Nat → List Nat
  | 0, _ => []
  | n + 1, p => (p.2 * stride + p.1) :: pixelAddrs w stride n (advCursor w p)

/-- The space literal pixels come from (R127). -/
def State.litSpace (s : State) : Space := if s.seq.litmode then .lzbuf else .pmem

/-- The index of literal byte `k` in its space (R127): `LITBASE + k` in PMEM, `k` in LZBUF. -/
def State.litAddr (s : State) (k : Nat) : Nat := if s.seq.litmode then k else s.seq.litbase.toNat + k

/-- The indices in `CUR` that a run of `n` pixels paints: raster order from `(X, Y)` (R197). -/
def State.runAddrs (s : State) (n : Nat) : List Nat :=
  pixelAddrs s.w s.stride n (s.frp.x.toNat, s.frp.y.toNat)

/-- The indices of the next `n` literal bytes. -/
def State.litAddrs (s : State) (n : Nat) : List Nat := (List.range' s.frp.lit.toNat n).map s.litAddr

/-- The indices in `PREV` that a run displaced by `(dx, dy)` reads (R197). -/
def State.prevAddrs (s : State) (n : Nat) (dx dy : Int) : List Nat :=
  pixelAddrs s.w s.stride n ((s.frp.x.toNat + dx).toNat, (s.frp.y.toNat + dy).toNat)

/-- Paint a run: the bytes `src` of space `from` are written in order to the run's indices in `CUR` (R197). -/
def State.paint (s : State) (from' : Space) (src : List Nat) (n : Nat) : State :=
  s.setMem s.cur (Mem.writeAll ((s.runAddrs n).zip (src.map (s.byte from'))) (s.memAt s.cur))

/-- The motion check of R198: the first pixel read lies inside the frame and the run ends inside it. -/
def State.motionInside (s : State) (n : Nat) (dx dy : Int) : Bool :=
  decide (0 ≤ (s.frp.x.toNat : Int) + dx) && decide ((s.frp.x.toNat : Int) + dx < s.w)
    && decide (0 ≤ (s.frp.y.toNat : Int) + dy) && decide ((s.frp.y.toNat : Int) + dy < s.h)
    && decide (((s.frp.y.toNat : Int) + dy) * s.w + ((s.frp.x.toNat : Int) + dx) + n ≤ (s.w * s.h : Nat))

/-- The end of a run opcode: the size cursor and `OPC` move on (R191, R193), `FLAG` is written, `REM` falls by the
size and `(X, Y)` advances in raster order (R199). -/
def State.endRun (s : State) (size szBytes : Nat) (flag : Bool) : State :=
  { s with frp := { s.frp with
      opc := BitVec.ofNat 32 (s.frp.opc.toNat + 1)
      siz := BitVec.ofNat 32 (s.frp.siz.toNat + szBytes)
      flag := flag
      rem := BitVec.ofNat 32 (s.frp.rem.toNat - size)
      x := BitVec.ofNat 16 ((s.frp.x.toNat + size) % s.w)
      y := BitVec.ofNat 16 (s.frp.y.toNat + (s.frp.x.toNat + size) / s.w) } }

/-- `LIT <- LIT + n` (R195). -/
def State.takeLit (s : State) (n : Nat) : State :=
  { s with frp := { s.frp with lit := BitVec.ofNat 32 (s.frp.lit.toNat + n) } }

/-- `VEC <- VEC + 1` (R198). -/
def State.takeVec (s : State) : State :=
  { s with frp := { s.frp with vec := BitVec.ofNat 32 (s.frp.vec.toNat + 1) } }

end Sys2Proof.Machine
end

