-- ==== Sys2Proof/Machine/Frp.lean ====
section
/-! DEFINITION. The 22 FRP opcodes (R191 to R222). Every check comes before any effect (R200). -/

namespace Sys2Proof.Machine

/-- The run size: the opcode's own, or the value of the size bytes at `PMEM[SIZ]` (R192, R193). -/
def State.runSize (s : State) (z : SizeSrc) : Nat :=
  z.value (s.byte .pmem s.frp.siz.toNat) (s.byte .pmem (s.frp.siz.toNat + 1)) (s.byte .pmem (s.frp.siz.toNat + 2))

/-- An FRP fault carries the OPBUF index of the opcode (R191). -/
def State.frpRaise (s : State) (c : Cause) : Out := .next (s.raise c s.frp.opc.toNat)

/-- Steps (4) and (5) of R200: the size operand, `FRP_SIZ_OVERRUN` (R193), and `FRP_RUN_OVERFLOW` (R194); then `k` with
the size. R199 divides by `W`: at `W = 0`, which no decode reaches, the model stops. -/
def withRunSize (z : SizeSrc) (s : State) (k : Nat → Out) : Out :=
  if 0 < z.bytes ∧ s.plen < s.frp.siz.toNat + z.bytes then s.frpRaise .frpSizOverrun
  else
    s.needBytes .pmem (List.range' s.frp.siz.toNat z.bytes)
      (if s.frp.rem.toNat < s.runSize z then s.frpRaise .frpRunOverflow
       else if s.w = 0 then .fault .zeroWidth
       else k (s.runSize z))

/-- The literal branch of `AltRun` (R195): the run is the next `n` literal bytes; `FLAG` becomes 0. -/
def altLiteral (n szBytes : Nat) (s : State) : Out :=
  if s.seq.litlen.toNat < s.frp.lit.toNat + n then s.frpRaise .frpLitOverrun
  else
    s.needBytes s.litSpace (s.litAddrs n)
      (s.needBytes s.cur (s.runAddrs n)
        (.next (((s.paint s.litSpace (s.litAddrs n) n).endRun n szBytes false).takeLit n)))

/-- The previous-frame branch of `AltRun` (R195): the run is the same pixels of `PREV`; `FLAG` becomes 1. -/
def altPrev (n szBytes : Nat) (s : State) : Out :=
  if 1 ≤ n ∧ s.st.prevValid = false then s.frpRaise .frpNoPrev
  else
    s.needBytes s.prev (s.prevAddrs n 0 0)
      (s.needBytes s.cur (s.runAddrs n)
        (.next ((s.paint s.prev (s.prevAddrs n 0 0) n).endRun n szBytes true)))

/-- The opcodes `1..11`: `AltRun` (R195) with the size of R192, then the advance of R199. The new flag chooses. -/
def altStep (z : SizeSrc) (s : State) : Out :=
  withRunSize z s fun n =>
    if toggledFlag s.frp.flag then altPrev n z.bytes s else altLiteral n z.bytes s

/-- `MvRun` (R198) after its vector byte `v` has been read: validity, range, painting; `FLAG` becomes 0. -/
def mvVector (n szBytes : Nat) (v : Byte) (s : State) : Out :=
  if 1 ≤ n ∧ s.st.prevValid = false then s.frpRaise .frpNoPrev
  else if 1 ≤ n ∧ s.motionInside n (vecDx v) (vecDy v) = false then s.frpRaise .frpMotionRange
  else
    s.needBytes s.prev (s.prevAddrs n (vecDx v) (vecDy v))
      (s.needBytes s.cur (s.runAddrs n)
        (.next (((s.paint s.prev (s.prevAddrs n (vecDx v) (vecDy v)) n).endRun n szBytes false).takeVec)))

/-- The opcodes `12..21`: `MvRun` (R198) with the size of R192, then the advance of R199. -/
def mvStep (z : SizeSrc) (s : State) : Out :=
  withRunSize z s fun n =>
    if s.plen ≤ s.frp.vec.toNat then s.frpRaise .frpVecOverrun
    else s.needBytes .pmem [s.frp.vec.toNat] (mvVector n z.bytes (s.byte .pmem s.frp.vec.toNat) s)

/-- `FLIP` (R201): `FLAG` is toggled, `OPC` moves on, nothing else. -/
def execFlip (s : State) : Out :=
  .next { s with frp := { s.frp with
    flag := toggledFlag s.frp.flag, opc := BitVec.ofNat 32 (s.frp.opc.toNat + 1) } }

/-- `ALT1` (R202). -/
def execAlt1 (s : State) : Out := altStep (.imm 1) s

/-- `ALT2` (R203). -/
def execAlt2 (s : State) : Out := altStep (.imm 2) s

/-- `ALT3` (R204). -/
def execAlt3 (s : State) : Out := altStep (.imm 3) s

/-- `ALT4` (R205). -/
def execAlt4 (s : State) : Out := altStep (.imm 4) s

/-- `ALT5` (R206). -/
def execAlt5 (s : State) : Out := altStep (.imm 5) s

/-- `ALT6` (R207). -/
def execAlt6 (s : State) : Out := altStep (.imm 6) s

/-- `ALT7` (R208). -/
def execAlt7 (s : State) : Out := altStep (.imm 7) s

/-- `ALT8` (R209). -/
def execAlt8 (s : State) : Out := altStep (.imm 8) s

/-- `ALT.B` (R210). -/
def execAltB (s : State) : Out := altStep .size8 s

/-- `ALT.H` (R211). -/
def execAltH (s : State) : Out := altStep .size16 s

/-- `ALT.T` (R212). -/
def execAltT (s : State) : Out := altStep .size24 s

/-- `MV2` (R213). -/
def execMv2 (s : State) : Out := mvStep (.imm 2) s

/-- `MV3` (R214). -/
def execMv3 (s : State) : Out := mvStep (.imm 3) s

/-- `MV4` (R215). -/
def execMv4 (s : State) : Out := mvStep (.imm 4) s

/-- `MV5` (R216). -/
def execMv5 (s : State) : Out := mvStep (.imm 5) s

/-- `MV6` (R217). -/
def execMv6 (s : State) : Out := mvStep (.imm 6) s

/-- `MV7` (R218). -/
def execMv7 (s : State) : Out := mvStep (.imm 7) s

/-- `MV8` (R219). -/
def execMv8 (s : State) : Out := mvStep (.imm 8) s

/-- `MV.B` (R220). -/
def execMvB (s : State) : Out := mvStep .size8 s

/-- `MV.H` (R221). -/
def execMvH (s : State) : Out := mvStep .size16 s

/-- `MV.T` (R222). -/
def execMvT (s : State) : Out := mvStep .size24 s

end Sys2Proof.Machine
end

