-- ==== Sys2Proof/Machine/Lzu.lean ====
section
/-! DEFINITION. The five LZU instructions (R163 to R176). Every check comes before any write (R164). -/

namespace Sys2Proof.Machine

/-- The copies of an instruction: the literal run to `LZCOUNT` on, then the back-reference, if there is one, at the
cursor after it; `LZCOUNT` counts both (R164 to R166). `a` is the PMEM index of the first literal byte. -/
def State.lzCopies (s : State) (a lit : Nat) (back : Option BackRef) : State :=
  let lz1 := litCopy s.mem.pmem lit a s.lzcount s.mem.lzbuf
  match back with
  | none =>
    { s with
      mem := { s.mem with lzbuf := lz1 }
      csr := { s.csr with lzcount := BitVec.ofNat 32 (s.lzcount + lit) } }
  | some b =>
    { s with
      mem := { s.mem with lzbuf := backCopy b.dist b.run (s.lzcount + lit) lz1 }
      csr := { s.csr with lzcount := BitVec.ofNat 32 (s.lzcount + lit + b.run) } }

/-- `SRC <- SRC + 1 + k + lit` (R164). -/
def State.lzAdvance (s : State) (k lit : Nat) : State :=
  { s with lzu := { src := BitVec.ofNat 32 (s.lzu.src.toNat + 1 + k + lit) } }

/-- The run length of an optional back-reference. -/
def backRun : Option BackRef → Nat
  | none => 0
  | some b => b.run

/-- Whether a back-reference starts before LZBUF index 0 (R167). -/
def State.backTooFar (s : State) (lit : Nat) : Option BackRef → Bool
  | none => false
  | some b => decide (s.lzcount + lit < b.dist)

/-- What a form does at its end: `LZEND` ends LZU, the others go on (R164). -/
def State.lzFinish (s : State) (term : Bool) : State := if term then s.lzEndTerm else s

/-- The part of R164 that all five forms share, after `LZC`'s capacity test: source check, back-reference check, then
the copies and the advance of `SRC`. `k` is the number of operand bytes; `term` marks the terminal form. -/
def lzBody (k lit : Nat) (back : Option BackRef) (term : Bool) (s : State) : Out :=
  if s.plen < s.lzu.src.toNat + 1 + k + lit then .next (s.raise .lzSrcOverrun s.lzu.src.toNat)
  else if s.backTooFar lit back then .next (s.raise .lzBackrefRange s.lzu.src.toNat)
  else
    s.needBytes .pmem (List.range' (s.lzu.src.toNat + 1 + k) lit)
      (s.needBytes .lzbuf (List.range' s.lzcount (lit + backRun back))
        (.next (((s.lzCopies (s.lzu.src.toNat + 1 + k) lit back).lzAdvance k lit).lzFinish term)))

/-- `LZA` (R168). -/
def execLza (d : BitVec 2) (r : BitVec 3) (l : BitVec 2) (o1 : Byte) (s : State) : Out :=
  lzBody 1 (lzaLit l) (some (lzaBack d r o1)) false s

/-- `LZB` (R170). -/
def execLzb (r : BitVec 6) (o1 o2 : Byte) (s : State) : Out :=
  lzBody 2 (lzbLit o1) (some (lzbBack r o1 o2)) false s

/-- The family-C abort (R164, R172): LZU ends; with `LZ_C_ABORT_AFTER_LITERAL` the literal run is copied first, its
source being checked. `SRC` stays. -/
def lzAbort (k lit : Nat) (s : State) : Out :=
  if s.cfg.lzcAbortAfterLiteral then
    if s.plen < s.lzu.src.toNat + 1 + k + lit then .next (s.raise .lzSrcOverrun s.lzu.src.toNat)
    else
      s.needBytes .pmem (List.range' (s.lzu.src.toNat + 1 + k) lit)
        (s.needBytes .lzbuf (List.range' s.lzcount lit)
          (.next (s.lzCopies (s.lzu.src.toNat + 1 + k) lit none).lzEndTrunc))
  else .next s.lzEndTrunc

/-- `LZC` (R172): first the capacity test `lit + run > NPIX - LZCOUNT` over the integers, then as families A and B. -/
def execLzc (d : BitVec 1) (r : BitVec 2) (l : BitVec 2) (o1 o2 o3 : Byte) (s : State) : Out :=
  if s.npix < s.lzcount + lzcLit l + (lzcBack d r o1 o2 o3).run then lzAbort 3 (lzcLit l) s
  else lzBody 3 (lzcLit l) (some (lzcBack d r o1 o2 o3)) false s

/-- `LZLIT` (R174). -/
def execLzlit (n : BitVec 5) (s : State) : Out := lzBody 0 (lzlitLit n) none false s

/-- `LZEND` (R176): the literal run, then LZU ends. -/
def execLzend (l : BitVec 2) (s : State) : Out := lzBody 0 (lzendLit l) none true s

end Sys2Proof.Machine
end

