-- ==== Sys2Proof/Machine/Marker.lean ====
section
/-! DEFINITION. The marker step: `IMG.RAW` and `IMG.LZ` (R126). -/

namespace Sys2Proof.Machine

/-- The literal pixel source is the payload itself: `LITMODE <- 0` (R126). -/
def State.chooseRaw (s : State) : State := { s with seq := { s.seq with litmode := false } }

/-- The literal pixel source is LZU's output, and LZU is next: `LITMODE <- 1; LZ_USED <- 1; PHASE <- LZU` (R126). -/
def State.chooseLz (s : State) : State :=
  { s with
    seq := { s.seq with litmode := true, phase := .lzu, unitDone := false }
    st := { s.st with lzUsed := true } }

/-- `IMG.RAW`: `LITMODE <- 0`, then the literal-source step, after which `PHASE` is FRP (R126, R127). -/
def execImgRaw (_m : Byte) (s : State) : Out := .next s.chooseRaw.literalSource

/-- `IMG.LZ`: `LITMODE <- 1; LZ_USED <- 1; PHASE <- LZU` (R126), and LZU's initial step (R161). -/
def execImgLz (s : State) : Out := .next s.chooseLz.lzuInit

end Sys2Proof.Machine
end

