-- ==== Sys2Proof/Machine/Osd.lean ====
section
/-! DEFINITION. The trie entries `LEAF`, `END` and `NODE`, as reached by a transition (R142 line 4, R150 to R152). -/

namespace Sys2Proof.Machine

/-- The bit that led to the entry is consumed: `BITPOS <- BITPOS + 1` (R142 line 2). -/
def State.takeBit (s : State) : State :=
  { s with osd := { s.osd with bitpos := BitVec.ofNat 35 (s.osd.bitpos.toNat + 1) } }

/-- The walk goes on at a node value: `NODE <- v` (R142 line 4). -/
def State.walkTo (s : State) (v : BitVec 9) : State := { s with osd := { s.osd with node := v } }

/-- Emit an opcode: `MemWrite(OPBUF:OPCOUNT, 1, v); OPCOUNT <- OPCOUNT + 1; NODE <- SENT` (R150). -/
def State.emit (s : State) (v : Byte) : State :=
  { s with
    mem := { s.mem with opbuf := s.mem.opbuf.write s.opcount v }
    csr := { s.csr with opcount := BitVec.ofNat 32 (s.opcount + 1) }
    osd := { s.osd with node := s.osd.sent } }

/-- `LEAF v`: emit, then the cap test `OPCOUNT = NPIX` (R146, R150). -/
def execLeaf (v : Byte) (s : State) : Out :=
  s.needBytes .opbuf [s.opcount]
    (.next (if s.opcount + 1 = s.npix then (s.takeBit.emit v).osdEndByCap else s.takeBit.emit v))

/-- `END`: `NODE <- 0x16`; OSD ends at line 1 of its next step (R151). -/
def execEndMark (s : State) : Out := .next (s.takeBit.walkTo 0x16)

/-- `NODE v`: `NODE <- v` (R152). -/
def execNode (v : Byte) (s : State) : Out := .next (s.takeBit.walkTo (v.setWidth 9))

end Sys2Proof.Machine
end

