-- ==== Sys2Proof/Machine/Dispatch.lean ====
section
/-! DEFINITION. Dispatch: one arm per constructor of Instr, each one call of its meaning. -/

namespace Sys2Proof.Machine

def exec (i : Instr) (s : State) : Host.Outcome State Fault Refusal :=
  match i with
  | .imgRaw m => Sys2Proof.Machine.execImgRaw m s
  | .imgLz => Sys2Proof.Machine.execImgLz s
  | .leaf v => Sys2Proof.Machine.execLeaf v s
  | .endMark => Sys2Proof.Machine.execEndMark s
  | .node v => Sys2Proof.Machine.execNode v s
  | .lza d r l o1 => Sys2Proof.Machine.execLza d r l o1 s
  | .lzb r o1 o2 => Sys2Proof.Machine.execLzb r o1 o2 s
  | .lzc d r l o1 o2 o3 => Sys2Proof.Machine.execLzc d r l o1 o2 o3 s
  | .lzlit n => Sys2Proof.Machine.execLzlit n s
  | .lzend l => Sys2Proof.Machine.execLzend l s
  | .flip => Sys2Proof.Machine.execFlip s
  | .alt1 => Sys2Proof.Machine.execAlt1 s
  | .alt2 => Sys2Proof.Machine.execAlt2 s
  | .alt3 => Sys2Proof.Machine.execAlt3 s
  | .alt4 => Sys2Proof.Machine.execAlt4 s
  | .alt5 => Sys2Proof.Machine.execAlt5 s
  | .alt6 => Sys2Proof.Machine.execAlt6 s
  | .alt7 => Sys2Proof.Machine.execAlt7 s
  | .alt8 => Sys2Proof.Machine.execAlt8 s
  | .altB => Sys2Proof.Machine.execAltB s
  | .altH => Sys2Proof.Machine.execAltH s
  | .altT => Sys2Proof.Machine.execAltT s
  | .mv2 => Sys2Proof.Machine.execMv2 s
  | .mv3 => Sys2Proof.Machine.execMv3 s
  | .mv4 => Sys2Proof.Machine.execMv4 s
  | .mv5 => Sys2Proof.Machine.execMv5 s
  | .mv6 => Sys2Proof.Machine.execMv6 s
  | .mv7 => Sys2Proof.Machine.execMv7 s
  | .mv8 => Sys2Proof.Machine.execMv8 s
  | .mvB => Sys2Proof.Machine.execMvB s
  | .mvH => Sys2Proof.Machine.execMvH s
  | .mvT => Sys2Proof.Machine.execMvT s

end Sys2Proof.Machine
end

