-- ==== Sys2Proof/WellFormed.lean ====
section
/-! DEFINITION. When an instruction's fields lie in the ranges its row of the opcode table admits. -/

namespace Sys2Proof

/-- The field checks: the marker of `IMG.RAW` is not 2 (R93); a leaf is `0..0x15` and a node `0x17..0xFF` (R96); the
count field of `LZLIT` is at most 27, since 28 to 31 spell `LZEND` (R100). Every other field may hold any value. -/
def Instr.wf : Instr → Bool
  | .imgRaw m => m != 2
  | .leaf s => s.toNat < 0x16
  | .node v => 0x17 ≤ v.toNat
  | .lzlit n => n.toNat ≤ 27
  | .imgLz => true
  | .endMark => true
  | .lza _ _ _ _ => true
  | .lzb _ _ _ => true
  | .lzc _ _ _ _ _ _ => true
  | .lzend _ => true
  | .flip => true
  | .alt1 => true
  | .alt2 => true
  | .alt3 => true
  | .alt4 => true
  | .alt5 => true
  | .alt6 => true
  | .alt7 => true
  | .alt8 => true
  | .altB => true
  | .altH => true
  | .altT => true
  | .mv2 => true
  | .mv3 => true
  | .mv4 => true
  | .mv5 => true
  | .mv6 => true
  | .mv7 => true
  | .mv8 => true
  | .mvB => true
  | .mvH => true
  | .mvT => true

end Sys2Proof
end

