-- ==== Sys2Proof/Decode.lean ====
section
/-! DEFINITION. The decoder, total on any bytes and rejecting by name, and the encoder (R90 to R108). Which format applies
is the fetching unit's: SEQ reads a marker, OSD trie entries, LZU control bytes, FRP opcodes (R2, R44). -/

namespace Sys2Proof

/-- Why bytes are no instruction of a format. -/
inductive DecodeError where
  /-- There is no byte at all. -/
  | noBytes
  /-- An LZU control byte is not followed by all of its operand bytes. -/
  | operandsMissing
  /-- An FRP opcode in `22..255` (R108). -/
  | reservedOpcode (b : Byte)
deriving DecidableEq, Repr

/-- Marker byte (R93): 2 is `IMG.LZ`, every other value `IMG.RAW`. -/
def decodeMarker (m : Byte) : Instr := if m.toNat = 2 then .imgLz else .imgRaw m

/-- Trie entry (R96, R145): below `0x16` a leaf, `0x16` the end mark, above a node. -/
def decodeTrie (v : Byte) : Instr :=
  if v.toNat < 0x16 then .leaf v else if v.toNat = 0x16 then .endMark else .node v

/-- The five forms of an LZU control byte. -/
inductive LzForm where
  | a | b | c | lit | term
deriving DecidableEq, Repr

/-- The form a control byte selects, tested in the order of R100. -/
def lzForm (c : Byte) : LzForm :=
  if c.getLsbD 7 = false then .a
  else if c.getLsbD 6 = false then .b
  else if c.getLsbD 5 = false then .c
  else if 0xFC ≤ c.toNat then .term
  else .lit

/-- How many operand bytes follow the control byte (R100). -/
def lzOperandBytes : LzForm → Nat
  | .a => 1
  | .b => 2
  | .c => 3
  | .lit => 0
  | .term => 0

/-- The LZU instruction of control byte `c` and operand bytes `o1 o2 o3`, of which a form uses its first
`lzOperandBytes` (R100, R102): the fields of the control byte's bit pattern. -/
def decodeLz (c o1 o2 o3 : Byte) : Instr :=
  match lzForm c with
  | .a => .lza (c.extractLsb' 5 2) (c.extractLsb' 2 3) (c.extractLsb' 0 2) o1
  | .b => .lzb (c.extractLsb' 0 6) o1 o2
  | .c => .lzc (c.extractLsb' 4 1) (c.extractLsb' 2 2) (c.extractLsb' 0 2) o1 o2 o3
  | .lit => .lzlit (c.extractLsb' 0 5)
  | .term => .lzend (c.extractLsb' 0 2)

/-- The FRP opcode map (R105); `22..255` select no instruction (R108). -/
def decodeOp (b : Byte) : Option Instr :=
  match b.toNat with
  | 0 => some .flip
  | 1 => some .alt1
  | 2 => some .alt2
  | 3 => some .alt3
  | 4 => some .alt4
  | 5 => some .alt5
  | 6 => some .alt6
  | 7 => some .alt7
  | 8 => some .alt8
  | 9 => some .altB
  | 10 => some .altH
  | 11 => some .altT
  | 12 => some .mv2
  | 13 => some .mv3
  | 14 => some .mv4
  | 15 => some .mv5
  | 16 => some .mv6
  | 17 => some .mv7
  | 18 => some .mv8
  | 19 => some .mvB
  | 20 => some .mvH
  | 21 => some .mvT
  | _ => none

/-- Decode the front of a byte list in a format: the instruction and the bytes after it. -/
def decode (f : Format) (bytes : List Byte) : Except DecodeError (Instr × List Byte) :=
  match bytes with
  | [] => .error .noBytes
  | c :: rest =>
    match f with
    | .imgm => .ok (decodeMarker c, rest)
    | .trie => .ok (decodeTrie c, rest)
    | .lz =>
      if rest.length < lzOperandBytes (lzForm c) then .error .operandsMissing
      else .ok (decodeLz c (rest.getD 0 0) (rest.getD 1 0) (rest.getD 2 0), rest.drop (lzOperandBytes (lzForm c)))
    | .op =>
      match decodeOp c with
      | some i => .ok (i, rest)
      | none => .error (.reservedOpcode c)

/-- The bytes of an instruction, from the encoding patterns of the opcode table (R93, R96, R100, R105). -/
def encode : Instr → List Byte
  | .imgRaw m => [m]
  | .imgLz => [0x02#8]
  | .leaf s => [s]
  | .endMark => [0x16#8]
  | .node v => [v]
  | .lza d r l o1 => [0b0#1 ++ d ++ r ++ l, o1]
  | .lzb r o1 o2 => [0b10#2 ++ r, o1, o2]
  | .lzc d r l o1 o2 o3 => [0b110#3 ++ d ++ r ++ l, o1, o2, o3]
  | .lzlit n => [0b111#3 ++ n]
  | .lzend l => [0b111111#6 ++ l]
  | .flip => [0x00#8]
  | .alt1 => [0x01#8]
  | .alt2 => [0x02#8]
  | .alt3 => [0x03#8]
  | .alt4 => [0x04#8]
  | .alt5 => [0x05#8]
  | .alt6 => [0x06#8]
  | .alt7 => [0x07#8]
  | .alt8 => [0x08#8]
  | .altB => [0x09#8]
  | .altH => [0x0A#8]
  | .altT => [0x0B#8]
  | .mv2 => [0x0C#8]
  | .mv3 => [0x0D#8]
  | .mv4 => [0x0E#8]
  | .mv5 => [0x0F#8]
  | .mv6 => [0x10#8]
  | .mv7 => [0x11#8]
  | .mv8 => [0x12#8]
  | .mvB => [0x13#8]
  | .mvH => [0x14#8]
  | .mvT => [0x15#8]

/-- DESIGN CHOICE (log entry 4): the format in which a table word, which names no fetching unit, is read. The rows of
the four formats share byte values (R111), so no rule can name every row; this one takes the opcodes `0..21` as `OP`,
`0x16..0x3F` as `TRIE` and the rest as `LZ`. The machine itself never asks it: each unit reads its own format. -/
def tableFormat (c : Byte) : Format :=
  if c.toNat < 0x16 then .op else if c.toNat < 0x40 then .trie else .lz

/-- The longest instruction in bytes: `LZLIT` with 112 literal bytes (R101). -/
def longestInstr : Nat := 113

/-- The bytes of a word of `nbits` bits, least significant byte first, zeros above, up to the longest instruction. -/
def bytesOfWord (nbits w : Nat) : List Byte :=
  (List.range' 0 longestInstr).map fun j => BitVec.ofNat 8 ((w % 2 ^ nbits) / 256 ^ j)

/-- The instruction the decoder reads from a table word. -/
def decodeTableWord (nbits w : Nat) : Option Instr :=
  match decode (tableFormat ((bytesOfWord nbits w).getD 0 0)) (bytesOfWord nbits w) with
  | .ok (i, _) => some i
  | .error _ => none

end Sys2Proof
end

