-- ==== Sys2Proof/Machine/Fetch.lean ====
section
/-! DEFINITION. What a unit's step does before an instruction: the loop heads, the fetch checks and the decoding
(R142, R162, R163, R191), and where an instruction stands to be fetched next. -/

namespace Sys2Proof.Machine

/-- What a step finds: an instruction to execute, or the whole outcome of a step that executes none. -/
inductive Fetched where
  | run (i : Instr)
  | other (o : Out)

/-- Go on with `k` if every address exists, else stop with the model's fault `noByte`. -/
def State.fetchBytes (s : State) (sp : Space) (as : List Nat) (k : Fetched) : Fetched :=
  match s.firstMissing? sp as with
  | some a => .other (.fault (.noByte sp a))
  | none => k

/-- A fetch check failed: `raise C(info)`. -/
def State.fetchRaise (s : State) (c : Cause) (info : Nat) : Fetched := .other (.next (s.raise c info))

/-- The marker step's fetch (R126). -/
def fetchMarker (s : State) : Fetched :=
  s.fetchBytes .pmem [s.seq.imgoff.toNat] (.run (decodeMarker (s.byte .pmem s.seq.imgoff.toNat)))

/-- The next bit of the bitstream (R62, R142 line 2). -/
def State.nextBit (s : State) : Bool :=
  streamBit (s.byte .pmem (s.osd.bitpos.toNat / 8)) s.osd.bitpos.toNat

/-- The table index `(NODE - 0x17) + b*N` (R95, R142 line 3). -/
def State.tableIndex (s : State) : Nat :=
  (s.osd.node.toNat - nodeBias) + (if s.nextBit then s.osd.n.toNat else 0)

/-- The PMEM index of the table byte (R94). -/
def State.tableAddr (s : State) : Nat := s.seq.huf.toNat + 1 + s.tableIndex

/-- Line 3 of an OSD step (R142, R144): the table lookup; the entry is the instruction. -/
def fetchEntry (s : State) : Fetched :=
  if s.osd.node.toNat < nodeBias then .other (.fault .nodeBelowTable)
  else if 2 * s.osd.n.toNat ≤ s.tableIndex then s.fetchRaise .osdTableRange s.tableIndex
  else if s.plen ≤ s.tableAddr then s.fetchRaise .osdSrcOverrun s.tableAddr
  else s.fetchBytes .pmem [s.tableAddr] (.run (decodeTrie (s.byte .pmem s.tableAddr)))

/-- An OSD step: end mark, bit, table entry, in the order of R155. -/
def fetchOsd (s : State) : Fetched :=
  if s.osd.node.toNat = sentBias then .other (.next s.osdEndByMark)
  else if s.plen ≤ s.osd.bitpos.toNat / 8 then s.fetchRaise .osdSrcOverrun (s.osd.bitpos.toNat / 8)
  else s.fetchBytes .pmem [s.osd.bitpos.toNat / 8] (fetchEntry s)

/-- The control byte (R163). -/
def State.ctrlByte (s : State) : Byte := s.byte .pmem s.lzu.src.toNat

/-- Operand byte `j` (from 1) of the LZU instruction at `SRC`: one of the form's operand bytes, else 0 (R163). -/
def State.lzOperand (s : State) (j : Nat) : Byte :=
  if j ≤ lzOperandBytes (lzForm s.ctrlByte) then s.byte .pmem (s.lzu.src.toNat + j) else 0

/-- The LZU instruction at `SRC`. -/
def State.lzInstr (s : State) : Instr := decodeLz s.ctrlByte (s.lzOperand 1) (s.lzOperand 2) (s.lzOperand 3)

/-- An LZU step: loop head (R162), control byte and operand bytes in the payload (R163). -/
def fetchLzu (s : State) : Fetched :=
  if s.npix ≤ s.lzcount then .other (.next s.lzEndFull)
  else if s.plen ≤ s.lzu.src.toNat then s.fetchRaise .lzSrcOverrun s.lzu.src.toNat
  else
    s.fetchBytes .pmem [s.lzu.src.toNat]
      (if s.plen < s.lzu.src.toNat + 1 + lzOperandBytes (lzForm s.ctrlByte) then
         s.fetchRaise .lzSrcOverrun s.lzu.src.toNat
       else
         s.fetchBytes .pmem (List.range' (s.lzu.src.toNat + 1) (lzOperandBytes (lzForm s.ctrlByte)))
           (.run s.lzInstr))

/-- An FRP step: the loop test and completion (R191, R130), the opcode (R191, R223). -/
def fetchFrp (s : State) : Fetched :=
  if s.frp.rem.toNat = 0 then .other (.next s.complete)
  else if s.opcount ≤ s.frp.opc.toNat then s.fetchRaise .frpOpcUnderrun s.frp.opc.toNat
  else
    s.fetchBytes .opbuf [s.frp.opc.toNat]
      (match decodeOp (s.byte .opbuf s.frp.opc.toNat) with
       | some i => .run i
       | none => s.fetchRaise .frpBadOpcode s.frp.opc.toNat)

/-- What the active unit does next (R125). Idle, FDB does nothing and keeps all state (R275). -/
def fetch (s : State) : Fetched :=
  match s.seq.phase with
  | .idle => .other (.next s)
  | .osd => if s.seq.unitDone then fetchMarker s else fetchOsd s
  | .lzu => if s.seq.unitDone then .other (.next s.literalSource) else fetchLzu s
  | .frp => fetchFrp s

/-! ### Placing an instruction where the next step fetches it (log entry 9) -/

/-- Bytes as cells at rising addresses from an index on. -/
def cellsFrom : Nat → List Byte → List Host.Cell
  | _, [] => []
  | a, b :: r => (a, b) :: cellsFrom (a + 1) r

/-- A memory with bytes stored from an index on in place of what stood there, in canonical form. -/
def Mem.place (m : Mem) (a : Nat) (bs : List Byte) : Mem :=
  { m with cells := m.cells.filter (fun c => decide (c.1 < a)) ++ (cellsFrom a bs
      ++ m.cells.filter (fun c => decide (a + bs.length ≤ c.1))) }

/-- Bytes stored in a space from an index on. -/
def State.place (s : State) (sp : Space) (a : Nat) (bs : List Byte) : State :=
  s.setMem sp ((s.memAt sp).place a bs)

/-- No host move comes first; the memories have the first `n` bytes of the payload and one opcode; `PLEN` covers the
first `n` bytes. -/
def State.readyFor (s : State) (n : Nat) : State :=
  { s with
    inputs := []
    cfg := { s.cfg with pmemBytes := max s.cfg.pmemBytes n, maxPix := max s.cfg.maxPix 1 }
    csr := { s.csr with plen := if s.plen < n then BitVec.ofNat 32 n else s.csr.plen } }

/-- A frame has at least one pixel. -/
def State.nonEmptyFrame (s : State) : State :=
  { s with csr := { s.csr with
      width := if s.w = 0 then 1 else s.csr.width
      height := if s.h = 0 then 1 else s.csr.height
      stride := if s.stride = 0 then 1 else s.csr.stride } }

/-- The state in which the next step is the marker step and the marker is at PMEM 0. -/
def State.withMarker (s : State) (bs : List Byte) : State :=
  let s := (s.readyFor 1).place .pmem 0 (bs.take 1)
  { s with seq := { s.seq with phase := .osd, unitDone := true, imgoff := 0 } }

/-- The state in which OSD is at the root of a one-row table whose two entries are the given byte, with a 0 bit next. -/
def State.withTrieEntry (s : State) (bs : List Byte) : State :=
  let v := bs.getD 0 0
  let s := (s.readyFor 4).place .pmem 0 [0x01, v, v, 0x00]
  { s with
    seq := { s.seq with phase := .osd, unitDone := false, huf := 0 }
    osd := { n := 1, sent := 0x17, node := 0x17, bitpos := 24 } }

/-- The state in which LZU is at PMEM 0, where the instruction's bytes stand, with an empty destination. -/
def State.withLzBytes (s : State) (bs : List Byte) : State :=
  let s := ((s.readyFor longestInstr).nonEmptyFrame).place .pmem 0 (bs.take longestInstr)
  { s with
    seq := { s.seq with phase := .lzu, unitDone := false }
    lzu := { src := 0 }
    csr := { s.csr with lzcount := 0 } }

/-- The state in which FRP is at OPBUF 0, where the opcode stands, with at least one pixel to paint and zero bytes in its
size and vector streams. -/
def State.withOpcode (s : State) (bs : List Byte) : State :=
  let s := (((s.readyFor 4).nonEmptyFrame).place .pmem 0 [0, 0, 0, 0]).place .opbuf 0 (bs.take 1)
  { s with
    seq := { s.seq with phase := .frp, unitDone := false }
    csr := { s.csr with opcount := if s.opcount = 0 then 1 else s.csr.opcount }
    frp := { s.frp with
      opc := 0, siz := 0, vec := 3
      rem := if s.frp.rem = 0 then BitVec.ofNat 32 s.npix else s.frp.rem } }

/-- The instruction bytes `bs` of a format, stored where the next step fetches. -/
def State.withFetch (s : State) (f : Format) (bs : List Byte) : State :=
  match f with
  | .imgm => s.withMarker bs
  | .trie => s.withTrieEntry bs
  | .lz => s.withLzBytes bs
  | .op => s.withOpcode bs

end Sys2Proof.Machine
end

