-- ==== Sys2Proof/Machine/Run.lean ====
section
/-! DEFINITION. One step of FDB itself, and the step boundaries of the decode in progress (R10, R43, R125). -/

namespace Sys2Proof.Machine

/-- One step of FDB itself (R10, R125): the fetched instruction is executed, or the step that executes none is taken. -/
def fdbStep (s : State) : Out :=
  match fetch s with
  | .run i => exec i s
  | .other o => o

/-- At most `k` steps of FDB, stopping before the step that ends the decode: the state at boundary `k`, or at the last
boundary with `BUSY = 1`. -/
def State.runBusy : Nat → State → State
  | 0, s => s
  | k + 1, s =>
    match fdbStep s with
    | .next t => if t.busy then State.runBusy k t else s
    | .fault _ => s
    | .refused _ => s

/-- Step boundary `k` of the decode in progress (R43), counted from the end of its start step. A decode is determined by
the parameters, the configuration, PMEM, `CURSEL` and `PREV_VALID`, which nothing changes while `BUSY = 1` (R36, R37,
R45, R121, R311), so the start step taken anew on the present state gives its first boundary (log entry 3). -/
def State.boundary (s : State) (k : Nat) : State := s.start.runBusy k

end Sys2Proof.Machine
end

