-- ==== Sys2Proof/Machine/HostPort.lean ====
section
/-! DEFINITION. The host's moves: CSR access (R34 to R43), PMEM and frame-bank access (R42, R310, R311), START (R120),
reset (R280). -/

namespace Sys2Proof.Machine

/-- A geometry register after a host write: bits 15:0 are stored (R36). -/
def geometryValue (v : Word) : Half := v.setWidth 16

/-- A write that changes WIDTH, HEIGHT or STRIDE clears `PREV_VALID` (R36, R29). -/
def State.geometryChanged (s : State) (changed : Bool) : State :=
  if changed then { s with st := { s.st with prevValid := false } } else s

/-- Write CSR `n` (R34 to R40): START when `BUSY = 0`; the configuration registers when `BUSY = 0`; nothing else. -/
def State.csrWrite (s : State) (n : Nat) (v : Word) : State :=
  if s.busy then s
  else
    match n with
    | 0 => if v.getLsbD 0 then s.start else s
    | 2 => { s with csr := { s.csr with width := geometryValue v } }.geometryChanged
             (s.csr.width != geometryValue v)
    | 3 => { s with csr := { s.csr with height := geometryValue v } }.geometryChanged
             (s.csr.height != geometryValue v)
    | 4 => { s with csr := { s.csr with stride := geometryValue v } }.geometryChanged
             (s.csr.stride != geometryValue v)
    | 5 => { s with csr := { s.csr with plen := v } }
    | _ => s

/-- What a read of CSR `n` returns while `BUSY = 0` (R34 to R40). -/
def State.csrValue (s : State) (n : Nat) : Word :=
  match n with
  | 1 => s.statusWord
  | 2 => s.csr.width.setWidth 32
  | 3 => s.csr.height.setWidth 32
  | 4 => s.csr.stride.setWidth 32
  | 5 => s.csr.plen
  | 6 => s.csr.faultinfo
  | 7 => s.csr.opcount
  | 8 => s.csr.lzcount
  | _ => 0

/-- What a read of CSR `n` returns while `BUSY = 1`, with `pick` the free choice of a boundary (R43; log entry 3): STATUS
has `BUSY = 1`, `DONE = FAULT = 0`, `CAUSE = 0`; its other fields, `OPCOUNT` and `LZCOUNT` are those of step boundary
`pick` of the decode in progress. -/
def State.csrValueBusy (s : State) (n pick : Nat) : Word :=
  let b := s.boundary pick
  match n with
  | 1 => statusOf true false false b.st.prevValid b.st.cursel b.st.endings 0
  | 7 => b.csr.opcount
  | 8 => b.csr.lzcount
  | _ => s.csrValue n

/-- The host reads CSR `n`; reading changes nothing of FDB (R67). -/
def State.csrRead (s : State) (n : Nat) : State :=
  if s.busy then { s with readback := s.csrValueBusy n (Config.busyPick s.draws), draws := s.draws + 1 }
  else { s with readback := s.csrValue n }

/-- The host reads a byte of a space. -/
def State.hostReadByte (s : State) (m : HostMove) (sp : Space) (a : Nat) : Out :=
  if s.busy then .refused (.hostBreach m)
  else s.needBytes sp [a] (.next { s with readback := (s.byte sp a).setWidth 32 })

/-- The host writes a byte of PMEM. -/
def State.hostWriteByte (s : State) (m : HostMove) (a : Nat) (b : Byte) : Out :=
  if s.busy then .refused (.hostBreach m)
  else s.needBytes .pmem [a] (.next (s.setMem .pmem ((s.memAt .pmem).write a b)))

/-- Reset (R280): the values of R51; every memory's contents become unspecified. What is not FDB's own stays: the
parameters, the host's coming moves, its last read value, the count of free choices. -/
def State.hostReset (s : State) : State :=
  { State.reset with
    cfg := s.cfg
    mem := {
      pmem := s.mem.pmem.forget
      opbuf := s.mem.opbuf.forget
      lzbuf := s.mem.lzbuf.forget
      fb0 := s.mem.fb0.forget
      fb1 := s.mem.fb1.forget }
    inputs := s.inputs
    readback := s.readback
    draws := s.draws }

/-- One host move (R310). -/
def hostMove (m : HostMove) (s : State) : Out :=
  match m with
  | .writeCsr n v => .next (s.csrWrite n v)
  | .readCsr n => .next (s.csrRead n)
  | .writePmem a b => s.hostWriteByte (.writePmem a b) a b
  | .readPmem a => s.hostReadByte (.readPmem a) .pmem a
  | .readBank bank a => s.hostReadByte (.readBank bank a) (bankOf bank) a
  | .reset => .next s.hostReset

end Sys2Proof.Machine
end

