-- ==== Sys2Proof/Machine/Step.lean ====
section
/-! DEFINITION. One step of the machine: a host move where the host makes one, else a step of the active unit. -/

namespace Sys2Proof.Machine

/-- One step: the host's next scheduled move, or FDB's step where the host makes none (R310; log entry 6). -/
def step (s : State) : Host.Outcome State Fault Refusal :=
  match s.inputs with
  | [] => fdbStep s
  | none :: rest => fdbStep { s with inputs := rest }
  | some m :: rest => hostMove m { s with inputs := rest }

/-- `s` with the instruction of a table word stored where `step` fetches its next instruction, in the format
`decodeTableWord` reads it in (log entries 4 and 9). -/
def State.withFetchWord (s : State) (nbits w : Nat) : State :=
  s.withFetch (tableFormat ((bytesOfWord nbits w).getD 0 0)) (bytesOfWord nbits w)

end Sys2Proof.Machine
end

