-- ==== Sys2Proof/Safety.lean ====
section
/-! DEFINITION. What counts as a good state and a safe run, in the terms the statements use: the invariant of a decode
(R30 to R33, R35, R46 to R49), the frame vocabulary, and the spec's tables of forms and faults (R102, R105, R242). -/

namespace Sys2Proof.Machine

/-! ### Frames -/

/-- Every byte of every space reads in `t` as in `s`, but for the indices `as` of space `sp`. -/
def State.memSameBut (s t : State) (sp : Space) (as : List Nat) : Prop :=
  ∀ sp' a, ¬(sp' = sp ∧ a ∈ as) → t.byte sp' a = s.byte sp' a

/-- Every byte of every space reads in `t` as in `s`. -/
def State.memSame (s t : State) : Prop := ∀ sp a, t.byte sp a = s.byte sp a

/-- The memories are in canonical form. -/
def Mems.wf (m : Mems) : Bool := m.pmem.wf && m.opbuf.wf && m.lzbuf.wf && m.fb0.wf && m.fb1.wf

/-! ### The invariant -/

/-- What the configuration check and the header check establish of the parameters (R30, R122, R123). -/
structure State.Geometry (s : State) : Prop where
  width_pos : 1 ≤ s.w
  height_pos : 1 ≤ s.h
  width_le_stride : s.w ≤ s.stride
  pixels_fit : s.w * s.h ≤ s.cfg.maxPix
  bank_fits : s.stride * s.h ≤ s.cfg.maxFb
  payload_fits : s.plen ≤ s.cfg.pmemBytes
  header_fits : hdrBytes ≤ s.plen

/-- Every segment starts inside the payload (R123). -/
structure State.Segments (s : State) : Prop where
  huf_lt : s.seq.huf.toNat < s.plen
  sizoff_lt : s.seq.sizoff.toNat < s.plen
  vecoff_lt : s.seq.vecoff.toNat < s.plen
  imgoff_lt : s.seq.imgoff.toNat < s.plen

/-- How many of OSD's two ending bits are set (R35). -/
def StatusBits.osdEndings (t : StatusBits) : Nat := bitAt t.osdEnd 0 + bitAt t.osdCap 0

/-- How many of LZU's three ending bits are set (R35). -/
def StatusBits.lzEndings (t : StatusBits) : Nat := bitAt t.lzTerm 0 + bitAt t.lzFull 0 + bitAt t.lzTrunc 0

/-- The values the ending bits can have at a step boundary (R35): OSD not ended; OSD ended one of its two ways, and
then LZU not used, or running, or ended one of its three ways. -/
def legalEndings : List Nat := [0, 1, 2, 5, 6, 13, 14, 21, 22, 37, 38]

/-- No byte of `CUR` has been written in this decode yet (R49). -/
def State.unpainted (s : State) : Prop := (s.memAt s.cur).cells = []

/-- The index in a frame bank of the frame's pixel number `k` in raster order (R48, R197). -/
def State.pixelIndex (s : State) (k : Nat) : Nat := k / s.w * s.stride + k % s.w

/-- The number of pixels painted so far, `Y*W + X` (R199). -/
def State.paintedCount (s : State) : Nat := s.frp.y.toNat * s.w + s.frp.x.toNat

/-- During the OSD phase (R22, R31, R143). `BITPOS` is at most `8*PLEN`, or still where R141 put it: a table that runs past
the payload puts the first bit beyond it (log entry 17). -/
structure State.OsdPhase (s : State) : Prop where
  sent_eq : s.osd.sent.toNat = s.osd.n.toNat + sentBias
  node_range : s.osd.node = s.osd.sent ∨ (sentBias ≤ s.osd.node.toNat ∧ s.osd.node.toNat ≤ 0xFF)
  bitpos_le : s.osd.bitpos.toNat ≤ 8 * s.plen ∨ s.osd.bitpos.toNat = 8 * (s.seq.huf.toNat + 1 + 2 * s.osd.n.toNat)
  bitpos_ge : 8 * (s.seq.huf.toNat + 1 + 2 * s.osd.n.toNat) ≤ s.osd.bitpos.toNat
  opcount_le : s.opcount ≤ s.npix
  opcount_lt : s.seq.unitDone = false → s.opcount < s.npix
  osd_endings : s.st.osdEndings = if s.seq.unitDone then 1 else 0
  lz_unused : s.st.lzUsed = false
  lz_endings : s.st.lzEndings = 0
  lzcount_eq : s.lzcount = 0
  unpainted : s.unpainted

/-- During the LZU phase (R23, R32). -/
structure State.LzuPhase (s : State) : Prop where
  litmode_eq : s.seq.litmode = true
  opcount_le : s.opcount ≤ s.npix
  lzcount_le : s.lzcount ≤ s.npix + 111
  src_gt : s.seq.imgoff.toNat < s.lzu.src.toNat
  src_le : s.lzu.src.toNat ≤ s.plen
  osd_endings : s.st.osdEndings = 1
  lz_used : s.st.lzUsed = true
  lz_endings : s.st.lzEndings = if s.seq.unitDone then 1 else 0
  unpainted : s.unpainted

/-- During the FRP phase (R24, R33, R199): among others `Y*W + X + REM = NPIX`, and the bytes of `CUR` painted in this
decode are the pixels before the write position, no more and no fewer (R48, R230). -/
structure State.FrpPhase (s : State) : Prop where
  unit_open : s.seq.unitDone = false
  x_lt : s.frp.x.toNat < s.w
  position : s.paintedCount + s.frp.rem.toNat = s.npix
  opc_le : s.frp.opc.toNat ≤ s.opcount
  opcount_le : s.opcount ≤ s.npix
  siz_le : s.frp.siz.toNat ≤ s.plen
  vec_le : s.frp.vec.toNat ≤ s.plen
  lit_le : s.frp.lit.toNat ≤ s.seq.litlen.toNat
  raw_source : s.seq.litmode = false → s.seq.litbase.toNat + s.seq.litlen.toNat = s.plen
  lz_source : s.seq.litmode = true → s.seq.litlen = s.csr.lzcount ∧ s.lzcount ≤ s.npix + 111
  osd_endings : s.st.osdEndings = 1
  lz_used : s.st.lzUsed = s.seq.litmode
  lz_endings : s.st.lzEndings = if s.seq.litmode then 1 else 0
  painted : ∀ a, ((s.memAt s.cur).get? a).isSome = true ↔ ∃ k, k < s.paintedCount ∧ a = s.pixelIndex k

/-- What an FRP run needs of the state to find its pixels: the checked geometry, the write position inside the frame,
`Y*W + X + REM = NPIX`, and a literal source that lies in its space (R24, R127, R199). -/
structure State.FrpReady (s : State) : Prop where
  geometry : s.Geometry
  x_lt : s.frp.x.toNat < s.w
  position : s.paintedCount + s.frp.rem.toNat = s.npix
  raw_source : s.seq.litmode = false → s.seq.litbase.toNat + s.seq.litlen.toNat ≤ s.plen
  lz_source : s.seq.litmode = true → s.seq.litlen.toNat ≤ s.npix + 111

/-- What holds of STATUS and FAULTINFO at all times (R35, R38, R241). -/
structure State.StatusOk (s : State) : Prop where
  one_outcome : ¬(s.st.done = true ∧ s.st.fault = true)
  busy_open : s.busy = true → s.st.done = false ∧ s.st.fault = false
  no_cause : s.st.fault = false → s.st.cause = 0 ∧ s.csr.faultinfo = 0
  cause_range : s.st.fault = true → 1 ≤ s.st.cause.toNat ∧ s.st.cause.toNat ≤ 14
  done_endings : s.st.done = true →
    s.st.osdEndings = 1 ∧ s.st.lzEndings = if s.st.lzUsed then 1 else 0

/-- What the buffers hold: opcodes `0..21` below `OPCOUNT` (R46), a value below `LZCOUNT` in LZBUF (R47), and a whole
frame in `PREV` when `PREV_VALID = 1` (R29, R282). -/
structure State.BuffersOk (s : State) : Prop where
  opcodes : ∀ k, k < s.opcount → (s.mem.opbuf.get? k).any (fun b => decide (b.toNat < leafLimit)) = true
  lz_bytes : ∀ k, k < s.lzcount → (s.mem.lzbuf.get? k).isSome = true
  prev_frame : s.st.prevValid = true →
    ∀ k, k < s.npix → ((s.memAt s.prev).get? (s.pixelIndex k)).isSome = true

/-- The invariant of the machine. -/
structure State.Inv (s : State) : Prop where
  canonical : s.mem.wf = true
  status : s.StatusOk
  buffers : s.BuffersOk
  geometry : s.busy = true → s.Geometry ∧ s.Segments
  osd : s.seq.phase = .osd → s.OsdPhase
  lzu : s.seq.phase = .lzu → s.LzuPhase
  frp : s.seq.phase = .frp → s.FrpPhase

/-- A host move addresses only bytes that exist. -/
def HostMove.inRange (s : State) : HostMove → Prop
  | .writeCsr _ _ => True
  | .readCsr _ => True
  | .writePmem a _ => a < s.size .pmem
  | .readPmem a => a < s.size .pmem
  | .readBank bank a => a < s.size (bankOf bank)
  | .reset => True

/-! ### The spec's tables of forms -/

/-- Opcodes 1 to 11 with where their run size comes from (R105). -/
def altForms : List (Instr × SizeSrc) :=
  [(.alt1, .imm 1), (.alt2, .imm 2), (.alt3, .imm 3), (.alt4, .imm 4), (.alt5, .imm 5), (.alt6, .imm 6),
   (.alt7, .imm 7), (.alt8, .imm 8), (.altB, .size8), (.altH, .size16), (.altT, .size24)]

/-- Opcodes 12 to 21 with where their run size comes from (R105). -/
def mvForms : List (Instr × SizeSrc) :=
  [(.mv2, .imm 2), (.mv3, .imm 3), (.mv4, .imm 4), (.mv5, .imm 5), (.mv6, .imm 6), (.mv7, .imm 7), (.mv8, .imm 8),
   (.mvB, .size8), (.mvH, .size16), (.mvT, .size24)]

/-- An LZU instruction with a back-reference as R102 reads it: operand bytes, literal run length, back-reference. -/
inductive LzBackForm : Instr → Nat → Nat → BackRef → Prop where
  | a (d : BitVec 2) (r : BitVec 3) (l : BitVec 2) (o1 : Byte) :
      LzBackForm (.lza d r l o1) 1 (lzaLit l) (lzaBack d r o1)
  | b (r : BitVec 6) (o1 o2 : Byte) : LzBackForm (.lzb r o1 o2) 2 (lzbLit o1) (lzbBack r o1 o2)
  | c (d : BitVec 1) (r : BitVec 2) (l : BitVec 2) (o1 o2 o3 : Byte) :
      LzBackForm (.lzc d r l o1 o2 o3) 3 (lzcLit l) (lzcBack d r o1 o2 o3)

/-- The length in bytes of an LZU instruction, its literal bytes included (R101); 0 for the other instructions, which
have no literal bytes. -/
def lzLength : Instr → Nat
  | .lza _ _ l _ => 2 + lzaLit l
  | .lzb _ o1 _ => 3 + lzbLit o1
  | .lzc _ _ l _ _ _ => 4 + lzcLit l
  | .lzlit n => 1 + lzlitLit n
  | .lzend l => 1 + lzendLit l
  | _ => 0

/-- The causes an instruction can raise (R242); `OSD_*` and the fetch faults are raised before an instruction runs. -/
def faultsOf : Instr → List Cause
  | .imgRaw _ => []
  | .imgLz => []
  | .leaf _ => []
  | .endMark => []
  | .node _ => []
  | .lza _ _ _ _ => [.lzSrcOverrun, .lzBackrefRange]
  | .lzb _ _ _ => [.lzSrcOverrun, .lzBackrefRange]
  | .lzc _ _ _ _ _ _ => [.lzSrcOverrun, .lzBackrefRange]
  | .lzlit _ => [.lzSrcOverrun]
  | .lzend _ => [.lzSrcOverrun]
  | .flip => []
  | .alt1 => [.frpRunOverflow, .frpNoPrev, .frpLitOverrun]
  | .alt2 => [.frpRunOverflow, .frpNoPrev, .frpLitOverrun]
  | .alt3 => [.frpRunOverflow, .frpNoPrev, .frpLitOverrun]
  | .alt4 => [.frpRunOverflow, .frpNoPrev, .frpLitOverrun]
  | .alt5 => [.frpRunOverflow, .frpNoPrev, .frpLitOverrun]
  | .alt6 => [.frpRunOverflow, .frpNoPrev, .frpLitOverrun]
  | .alt7 => [.frpRunOverflow, .frpNoPrev, .frpLitOverrun]
  | .alt8 => [.frpRunOverflow, .frpNoPrev, .frpLitOverrun]
  | .altB => [.frpSizOverrun, .frpRunOverflow, .frpNoPrev, .frpLitOverrun]
  | .altH => [.frpSizOverrun, .frpRunOverflow, .frpNoPrev, .frpLitOverrun]
  | .altT => [.frpSizOverrun, .frpRunOverflow, .frpNoPrev, .frpLitOverrun]
  | .mv2 => [.frpRunOverflow, .frpVecOverrun, .frpNoPrev, .frpMotionRange]
  | .mv3 => [.frpRunOverflow, .frpVecOverrun, .frpNoPrev, .frpMotionRange]
  | .mv4 => [.frpRunOverflow, .frpVecOverrun, .frpNoPrev, .frpMotionRange]
  | .mv5 => [.frpRunOverflow, .frpVecOverrun, .frpNoPrev, .frpMotionRange]
  | .mv6 => [.frpRunOverflow, .frpVecOverrun, .frpNoPrev, .frpMotionRange]
  | .mv7 => [.frpRunOverflow, .frpVecOverrun, .frpNoPrev, .frpMotionRange]
  | .mv8 => [.frpRunOverflow, .frpVecOverrun, .frpNoPrev, .frpMotionRange]
  | .mvB => [.frpSizOverrun, .frpRunOverflow, .frpVecOverrun, .frpNoPrev, .frpMotionRange]
  | .mvH => [.frpSizOverrun, .frpRunOverflow, .frpVecOverrun, .frpNoPrev, .frpMotionRange]
  | .mvT => [.frpSizOverrun, .frpRunOverflow, .frpVecOverrun, .frpNoPrev, .frpMotionRange]

end Sys2Proof.Machine
end

