-- ==== Sys2Proof/Certificates/Slice0/Obligations.lean ====
section
/-! DEFINITION. The statements for the provers. Each docstring names the rule of spec/ it formalises; where a clause is
the model's own choice it names the log entry. -/

open Sys2Proof Sys2Proof.Machine

/-! ### Encoding -/

/-- Decoding an encoded well-formed instruction, followed by any bytes, gives it back and leaves those bytes
(R93, R96, R100, R105). -/
def Obligations.DecodeOfEncode : Prop :=
  ∀ (i : Instr) (rest : List Byte), i.wf = true → decode i.format (encode i ++ rest) = .ok (i, rest)

/-- Whatever decodes is a well-formed instruction of the format, and encoding it gives the bytes consumed: no two byte
sequences of a format decode to one instruction (R111). -/
def Obligations.EncodeOfDecode : Prop :=
  ∀ (f : Format) (bytes : List Byte) (i : Instr) (rest : List Byte), decode f bytes = .ok (i, rest) →
    i.wf = true ∧ i.format = f ∧ encode i ++ rest = bytes

/-- Every marker byte and every trie entry is an instruction, an OPBUF entry exactly when it is below 22, and an LZU control
byte always, its form and the number of its operand bytes given by the range it lies in (R93, R96, R100, R108, R111). -/
def Obligations.FormsCoverBytes : Prop :=
  ∀ (c : Byte) (rest : List Byte),
    (∃ i, decode .imgm (c :: rest) = .ok (i, rest)) ∧
    (∃ i, decode .trie (c :: rest) = .ok (i, rest)) ∧
    ((∃ i, decode .op (c :: rest) = .ok (i, rest)) ↔ c.toNat < 22) ∧
    (c.toNat ≤ 0x7F → lzForm c = .a ∧
      ((∃ d r l o1, decode .lz (c :: rest) = .ok (.lza d r l o1, rest.drop 1)) ↔ 1 ≤ rest.length)) ∧
    (0x80 ≤ c.toNat → c.toNat ≤ 0xBF → lzForm c = .b ∧
      ((∃ r o1 o2, decode .lz (c :: rest) = .ok (.lzb r o1 o2, rest.drop 2)) ↔ 2 ≤ rest.length)) ∧
    (0xC0 ≤ c.toNat → c.toNat ≤ 0xDF → lzForm c = .c ∧
      ((∃ d r l o1 o2 o3, decode .lz (c :: rest) = .ok (.lzc d r l o1 o2 o3, rest.drop 3)) ↔ 3 ≤ rest.length)) ∧
    (0xE0 ≤ c.toNat → c.toNat ≤ 0xFB → lzForm c = .lit ∧ ∃ n, decode .lz (c :: rest) = .ok (.lzlit n, rest)) ∧
    (0xFC ≤ c.toNat → lzForm c = .term ∧ ∃ l, decode .lz (c :: rest) = .ok (.lzend l, rest))

/-- The fields of each LZU form are the table's formulas over the control and operand bytes, with the table's ranges
(R102). -/
def Obligations.LzFields : Prop :=
  ∀ c o1 o2 o3 : Byte,
    (lzForm c = .a → ∃ d r l, decodeLz c o1 o2 o3 = .lza d r l o1 ∧
      lzaLit l = c.toNat &&& 3 ∧ lzaLit l ≤ 3 ∧
      (lzaBack d r o1).dist = ((c.toNat &&& 0x60) <<< 3) + o1.toNat + 1 ∧
      1 ≤ (lzaBack d r o1).dist ∧ (lzaBack d r o1).dist ≤ 1024 ∧
      (lzaBack d r o1).run = ((c.toNat &&& 0x1C) >>> 2) + 3 ∧
      3 ≤ (lzaBack d r o1).run ∧ (lzaBack d r o1).run ≤ 10) ∧
    (lzForm c = .b → ∃ r, decodeLz c o1 o2 o3 = .lzb r o1 o2 ∧
      lzbLit o1 = o1.toNat >>> 6 ∧ lzbLit o1 ≤ 3 ∧
      (lzbBack r o1 o2).dist = (((o1.toNat <<< 8) ||| o2.toNat) &&& 0x3FFF) + 1 ∧
      1 ≤ (lzbBack r o1 o2).dist ∧ (lzbBack r o1 o2).dist ≤ 16384 ∧
      (lzbBack r o1 o2).run = (c.toNat &&& 0x3F) + 4 ∧
      4 ≤ (lzbBack r o1 o2).run ∧ (lzbBack r o1 o2).run ≤ 67) ∧
    (lzForm c = .c → ∃ d r l, decodeLz c o1 o2 o3 = .lzc d r l o1 o2 o3 ∧
      lzcLit l = c.toNat &&& 3 ∧ lzcLit l ≤ 3 ∧
      (lzcBack d r o1 o2 o3).dist = ((c.toNat &&& 0x10) <<< 12) + ((o1.toNat <<< 8) ||| o2.toNat) + 1 ∧
      1 ≤ (lzcBack d r o1 o2 o3).dist ∧ (lzcBack d r o1 o2 o3).dist ≤ 131072 ∧
      (lzcBack d r o1 o2 o3).run = ((c.toNat &&& 0x0C) <<< 6) + o3.toNat + 5 ∧
      5 ≤ (lzcBack d r o1 o2 o3).run ∧ (lzcBack d r o1 o2 o3).run ≤ 1028) ∧
    (lzForm c = .lit → ∃ n, decodeLz c o1 o2 o3 = .lzlit n ∧
      lzlitLit n = ((c.toNat &&& 0x1F) <<< 2) + 4 ∧ 4 ≤ lzlitLit n ∧ lzlitLit n ≤ 112 ∧ lzlitLit n % 4 = 0) ∧
    (lzForm c = .term → ∃ l, decodeLz c o1 o2 o3 = .lzend l ∧ lzendLit l = c.toNat &&& 3 ∧ lzendLit l ≤ 3)

/-- A few words written out from the spec's encodings decode to their instructions: `09 00`, `80 40 04` and `C0 00 00 00`
of R103, the markers 2 and 3, the entries `0x15`, `0x16`, `0x17`, and the opcodes 11 and 21. -/
def Obligations.WordsDecode : Prop :=
  decode .lz [0x09, 0x00] = .ok (.lza 0 2 1 0x00, []) ∧
  decode .lz [0x80, 0x40, 0x04] = .ok (.lzb 0 0x40 0x04, []) ∧
  decode .lz [0xC0, 0x00, 0x00, 0x00] = .ok (.lzc 0 0 0 0x00 0x00 0x00, []) ∧
  decode .lz [0xFB] = .ok (.lzlit 27, []) ∧ decode .lz [0xFF] = .ok (.lzend 3, []) ∧
  decode .imgm [0x02] = .ok (.imgLz, []) ∧ decode .imgm [0x03] = .ok (.imgRaw 0x03, []) ∧
  decode .trie [0x15] = .ok (.leaf 0x15, []) ∧ decode .trie [0x16] = .ok (.endMark, []) ∧
  decode .trie [0x17] = .ok (.node 0x17, []) ∧
  decode .op [0x0B] = .ok (.altT, []) ∧ decode .op [0x15] = .ok (.mvT, []) ∧
  decode .op [0x16] = .error (.reservedOpcode 0x16)

/-! ### A step runs the decoded instruction -/

/-- When the host makes no move and the bytes at the active unit's cursor decode to `i`, the step is `exec i` at that very
state: the meanings move the cursors themselves (R125, R126, R142, R163, R191). Where the host makes a move the step is
that move, and where it passes the step is FDB's; either way its schedule moves on by one (log entry 6). -/
def Obligations.StepRunsDecoded : Prop :=
  (∀ (s : State) (i : Instr), s.inputs = [] →
    (s.seq.phase = .osd → s.seq.unitDone = true → s.seq.imgoff.toNat < s.size .pmem →
      decode .imgm [s.byte .pmem s.seq.imgoff.toNat] = .ok (i, []) → step s = exec i s) ∧
    (s.seq.phase = .osd → s.seq.unitDone = false → s.plen ≤ s.size .pmem → nodeBias ≤ s.osd.node.toNat →
      s.osd.bitpos.toNat / 8 < s.plen → s.tableIndex < 2 * s.osd.n.toNat → s.tableAddr < s.plen →
      decode .trie [s.byte .pmem s.tableAddr] = .ok (i, []) → step s = exec i s) ∧
    (s.seq.phase = .lzu → s.seq.unitDone = false → s.plen ≤ s.size .pmem → s.lzcount < s.npix →
      ∀ n, s.lzu.src.toNat + n ≤ s.plen →
      decode .lz ((List.range' s.lzu.src.toNat n).map (s.byte .pmem)) = .ok (i, []) → step s = exec i s) ∧
    (s.seq.phase = .frp → s.frp.rem.toNat ≠ 0 → s.frp.opc.toNat < s.opcount → s.frp.opc.toNat < s.size .opbuf →
      decode .op [s.byte .opbuf s.frp.opc.toNat] = .ok (i, []) → step s = exec i s)) ∧
  ∀ (s : State) (m : HostMove) (rest : List (Option HostMove)),
    step { s with inputs := some m :: rest } = hostMove m { s with inputs := rest } ∧
    step { s with inputs := none :: rest } = fdbStep { s with inputs := rest } ∧
    step { s with inputs := [] } = fdbStep { s with inputs := [] }

/-- An instruction placed by `withFetch` is the one the very next step executes (log entry 9). -/
def Obligations.PlacedInstructionRuns : Prop :=
  ∀ (s : State) (i : Instr), i.wf = true →
    step (s.withFetch i.format (encode i)) = exec i (s.withFetch i.format (encode i))

/-! ### SEQ: START, the marker step, the literal-source step, completion -/

/-- The clearing of START (R121) stands whether the decode goes on or faults at once; nothing of the configuration, of
`CURSEL` or of `PREV_VALID` changes, and no byte of PMEM, OPBUF, LZBUF or `PREV` (R124). What `CUR` held is unspecified
from here on (R49; log entry 8). -/
def Obligations.StartClears : Prop :=
  ∀ (s t : State) (v : Word), s.busy = false → v.getLsbD 0 = true → hostMove (.writeCsr 0 v) s = .next t →
    t.st.done = false ∧ t.st.osdEnd = false ∧ t.st.osdCap = false ∧ t.st.lzUsed = false ∧ t.st.lzTerm = false ∧
    t.st.lzFull = false ∧ t.st.lzTrunc = false ∧ t.csr.opcount = 0 ∧ t.csr.lzcount = 0 ∧
    t.st.fault = !t.busy ∧ (t.st.fault = false → t.st.cause = 0 ∧ t.csr.faultinfo = 0) ∧
    t.st.cursel = s.st.cursel ∧ t.st.prevValid = s.st.prevValid ∧ t.csr.width = s.csr.width ∧
    t.csr.height = s.csr.height ∧ t.csr.stride = s.csr.stride ∧ t.csr.plen = s.csr.plen ∧
    (∀ sp a, sp ≠ s.cur → t.byte sp a = s.byte sp a) ∧ ∀ a, (t.memAt t.cur).get? a = none

/-- The configuration check of START: the six conditions in their order, each with its info value (R122). -/
def Obligations.StartConfigCheck : Prop :=
  ∀ (s t : State) (v : Word), s.busy = false → v.getLsbD 0 = true → hostMove (.writeCsr 0 v) s = .next t →
    let bad := fun (k : Nat) => t.st.fault = true ∧ t.st.cause.toNat = 1 ∧ t.csr.faultinfo.toNat = k ∧ t.busy = false
    if s.w < 1 then bad 1
    else if s.h < 1 then bad 2
    else if s.stride < s.w then bad 3
    else if s.cfg.maxPix < s.w * s.h then bad 4
    else if s.cfg.maxFb < s.stride * s.h then bad 5
    else if s.cfg.pmemBytes < s.plen then bad 6
    else t.st.cause.toNat ≠ 1

/-- The header parse of START: five checks in their order, each with its info value; then the four offsets and the OSD
phase (R123). -/
def Obligations.StartHeaderParse : Prop :=
  ∀ (s t : State) (v : Word), s.busy = false → v.getLsbD 0 = true → s.configError? = none →
    hostMove (.writeCsr 0 v) s = .next t →
    let le := fun (a : Nat) => (s.byte .pmem a).toNat + 256 * (s.byte .pmem (a + 1)).toNat
    let bad := fun (k : Nat) => t.st.fault = true ∧ t.st.cause.toNat = 2 ∧ t.csr.faultinfo.toNat = k ∧ t.busy = false
    if s.plen < 8 then bad 4
    else if s.plen ≤ le 0 then bad 0
    else if s.plen ≤ le 2 then bad 1
    else if s.plen ≤ le 4 then bad 2
    else if s.plen ≤ le 6 then bad 3
    else t.st.fault = false ∧ t.seq.phase = .osd ∧ t.seq.huf.toNat = le 0 ∧ t.seq.sizoff.toNat = le 2 ∧
      t.seq.vecoff.toNat = le 4 ∧ t.seq.imgoff.toNat = le 6

/-- OSD's initial step: the table size, the sentinel and the first bit after the table (R141). -/
def Obligations.OsdInitialStep : Prop :=
  ∀ (s t : State) (v : Word), s.busy = false → v.getLsbD 0 = true → hostMove (.writeCsr 0 v) s = .next t →
    t.seq.phase = .osd →
    t.osd.n = s.byte .pmem t.seq.huf.toNat ∧ t.osd.sent.toNat = t.osd.n.toNat + 0x16 ∧ t.osd.node = t.osd.sent ∧
    t.osd.bitpos.toNat = 8 * (t.seq.huf.toNat + 1 + 2 * t.osd.n.toNat) ∧ t.csr.opcount = 0

/-- `IMG.RAW` completes: the literal source is the payload after the marker, and FRP starts from its initial values; nothing
else changes (R126, R127, R190). -/
def Obligations.ImgRawEffect : Prop :=
  ∀ (m : Byte) (s : State), s.seq.imgoff.toNat < s.plen → ∃ t, exec (.imgRaw m) s = .next t ∧
    t = { s with seq := t.seq, frp := t.frp } ∧
    t.seq = { s.seq with litmode := false, litbase := t.seq.litbase, litlen := t.seq.litlen, phase := .frp,
                         unitDone := false } ∧
    t.seq.litbase.toNat = s.seq.imgoff.toNat + 1 ∧ t.seq.litlen.toNat = s.plen - s.seq.imgoff.toNat - 1 ∧
    t.frp.x = 0 ∧ t.frp.y = 0 ∧ t.frp.rem.toNat = s.w * s.h ∧ t.frp.flag = false ∧ t.frp.opc = 0 ∧
    t.frp.siz.toNat = s.seq.sizoff.toNat ∧ t.frp.vec.toNat = s.seq.vecoff.toNat ∧ t.frp.lit = 0

/-- `IMG.LZ` completes: `LITMODE` and `LZ_USED` are 1 and LZU starts after the marker; nothing else changes
(R126, R161). -/
def Obligations.ImgLzEffect : Prop :=
  ∀ s : State, ∃ t, exec .imgLz s = .next t ∧ t.lzu.src.toNat = s.seq.imgoff.toNat + 1 ∧
    t = { s with
      seq := { s.seq with litmode := true, phase := .lzu, unitDone := false }
      st := { s.st with lzUsed := true }
      lzu := t.lzu }

/-- The literal-source step after LZU: the literal bytes are what LZU wrote, and FRP starts from its initial values; nothing
else changes (R127, R190). -/
def Obligations.LiteralSourceAfterLzu : Prop :=
  ∀ s : State, s.inputs = [] → s.seq.phase = .lzu → s.seq.unitDone = true → s.seq.litmode = true →
    ∃ t, step s = .next t ∧ t = { s with seq := t.seq, frp := t.frp } ∧
      t.seq = { s.seq with litbase := 0, litlen := s.csr.lzcount, phase := .frp, unitDone := false } ∧
      t.frp.x = 0 ∧ t.frp.y = 0 ∧ t.frp.rem.toNat = s.w * s.h ∧ t.frp.flag = false ∧ t.frp.opc = 0 ∧
      t.frp.siz.toNat = s.seq.sizoff.toNat ∧ t.frp.vec.toNat = s.seq.vecoff.toNat ∧ t.frp.lit = 0

/-- The completion step: `CURSEL` flips, `PREV_VALID` and `DONE` become 1, `BUSY` 0; nothing else changes (R130). -/
def Obligations.CompletionStep : Prop :=
  ∀ s : State, s.inputs = [] → s.seq.phase = .frp → s.frp.rem.toNat = 0 →
    ∃ t, step s = .next t ∧ t.busy = false ∧ t.prev = s.cur ∧ t.cur = s.prev ∧
      t = { s with
        st := { s.st with cursel := !s.st.cursel, prevValid := true, done := true }
        seq := { s.seq with phase := .idle } }

/-! ### OSD -/

/-- `LEAF v` completes: the opcode goes to `OPBUF[OPCOUNT]`, `NODE` returns to the sentinel, one bit is consumed, and at
`NPIX` opcodes OSD ends by the cap; nothing else changes (R150). -/
def Obligations.LeafEffect : Prop :=
  ∀ (v : Byte) (s : State), s.opcount < s.size .opbuf → s.opcount + 1 < 2 ^ 32 → s.osd.bitpos.toNat + 1 < 2 ^ 35 →
    ∃ t, exec (.leaf v) s = .next t ∧
      t.byte .opbuf s.opcount = v ∧ s.memSameBut t .opbuf [s.opcount] ∧
      t.opcount = s.opcount + 1 ∧ t.osd.bitpos.toNat = s.osd.bitpos.toNat + 1 ∧
      t = { s with
        mem := { s.mem with opbuf := t.mem.opbuf }
        csr := { s.csr with opcount := t.csr.opcount }
        osd := { s.osd with node := s.osd.sent, bitpos := t.osd.bitpos }
        st := { s.st with osdCap := s.st.osdCap || decide (s.opcount + 1 = s.npix) }
        seq := { s.seq with unitDone := s.seq.unitDone || decide (s.opcount + 1 = s.npix) } }

/-- `END` completes: `NODE` is `0x16` and one bit is consumed, nothing else; the next OSD step sets `OSD_END` and ends OSD
without reading a bit (R151). -/
def Obligations.EndMarkEffect : Prop :=
  ∀ s : State, s.osd.bitpos.toNat + 1 < 2 ^ 35 →
    ∃ t, exec .endMark s = .next t ∧ t.osd.bitpos.toNat = s.osd.bitpos.toNat + 1 ∧
      t = { s with osd := { s.osd with node := 0x16, bitpos := t.osd.bitpos } } ∧
      (t.inputs = [] → t.seq.phase = .osd → t.seq.unitDone = false →
        step t = .next { t with st := { t.st with osdEnd := true }, seq := { t.seq with unitDone := true } })

/-- `NODE v` completes: the walk continues at `v` and one bit is consumed; nothing else changes (R152). -/
def Obligations.NodeEffect : Prop :=
  ∀ (v : Byte) (s : State), s.osd.bitpos.toNat + 1 < 2 ^ 35 →
    ∃ t, exec (.node v) s = .next t ∧ t.osd.node.toNat = v.toNat ∧ t.osd.bitpos.toNat = s.osd.bitpos.toNat + 1 ∧
      t = { s with osd := { s.osd with node := t.osd.node, bitpos := t.osd.bitpos } }

/-- One OSD step: the checks in their order, each fault with its info value, and the entry the transition reaches: bit
`7 - (BITPOS mod 8)` of byte `BITPOS / 8`, then `table[(NODE - 0x17) + b*N]` (R142, R144, R155). -/
def Obligations.OsdStepOrder : Prop :=
  ∀ s : State, s.inputs = [] → s.seq.phase = .osd → s.seq.unitDone = false → s.plen ≤ s.size .pmem →
    0x16 ≤ s.osd.node.toNat →
    let a := s.osd.bitpos.toNat / 8
    let b := ((s.byte .pmem a).toNat / 2 ^ (7 - s.osd.bitpos.toNat % 8)) % 2
    let i := (s.osd.node.toNat - 0x17) + b * s.osd.n.toNat
    let v := s.byte .pmem (s.seq.huf.toNat + 1 + i)
    step s =
      if s.osd.node.toNat = 0x16 then
        .next { s with st := { s.st with osdEnd := true }, seq := { s.seq with unitDone := true } }
      else if s.plen ≤ a then .next (s.raise .osdSrcOverrun a)
      else if 2 * s.osd.n.toNat ≤ i then .next (s.raise .osdTableRange i)
      else if s.plen ≤ s.seq.huf.toNat + 1 + i then .next (s.raise .osdSrcOverrun (s.seq.huf.toNat + 1 + i))
      else if v.toNat < 0x16 then exec (.leaf v) s
      else if v.toNat = 0x16 then exec .endMark s
      else exec (.node v) s

/-! ### LZU -/

/-- One LZU step up to the instruction: the loop head, the control byte and the operand bytes in the payload, each check in
its order; then the instruction those bytes spell (R162, R163). -/
def Obligations.LzFetchOrder : Prop :=
  ∀ s : State, s.inputs = [] → s.seq.phase = .lzu → s.seq.unitDone = false → s.plen ≤ s.size .pmem →
    let src := s.lzu.src.toNat
    let c := s.byte .pmem src
    let k := lzOperandBytes (lzForm c)
    step s =
      if s.npix ≤ s.lzcount then
        .next { s with st := { s.st with lzFull := true }, seq := { s.seq with unitDone := true } }
      else if s.plen ≤ src then .next (s.raise .lzSrcOverrun src)
      else if s.plen < src + 1 + k then .next (s.raise .lzSrcOverrun src)
      else exec (decodeLz c (if 1 ≤ k then s.byte .pmem (src + 1) else 0) (if 2 ≤ k then s.byte .pmem (src + 2) else 0)
        (if 3 ≤ k then s.byte .pmem (src + 3) else 0)) s

/-- `LZA`, `LZB` and `LZC` complete where their checks pass (for `LZC` that they fit): the literal run, then the
back-reference, each of whose bytes is the byte `dist` behind it as this very copy leaves it; `LZCOUNT` and `SRC` move on;
nothing else changes (R164, R165, R166, R168, R170, R172). -/
def Obligations.LzBackReferenceEffect : Prop :=
  ∀ (i : Instr) (k lit : Nat) (b : BackRef) (s : State), LzBackForm i k lit b →
    s.Geometry → s.lzcount < s.npix → s.lzu.src.toNat + 1 + k + lit ≤ s.plen → b.dist ≤ s.lzcount + lit →
    (∀ d r l o1 o2 o3, i = .lzc d r l o1 o2 o3 → s.lzcount + lit + b.run ≤ s.npix) →
    ∃ t, exec i s = .next t ∧
      t.lzcount = s.lzcount + lit + b.run ∧ t.lzu.src.toNat = s.lzu.src.toNat + 1 + k + lit ∧
      (∀ j, j < lit → t.byte .lzbuf (s.lzcount + j) = s.byte .pmem (s.lzu.src.toNat + 1 + k + j)) ∧
      (∀ j, j < b.run → t.byte .lzbuf (s.lzcount + lit + j) = t.byte .lzbuf (s.lzcount + lit + j - b.dist)) ∧
      s.memSameBut t .lzbuf (List.range' s.lzcount (lit + b.run)) ∧
      t = { s with
        lzu := t.lzu
        csr := { s.csr with lzcount := t.csr.lzcount }
        mem := { s.mem with lzbuf := t.mem.lzbuf } }

/-- `BackCopy` in closed form: byte `p + j` becomes the byte at `p - dist + (j mod dist)` as it was before the copy, and no
other byte changes (R166). -/
def Obligations.BackCopyPeriodic : Prop :=
  ∀ (dist run p : Nat) (m : Mem), 1 ≤ dist → dist ≤ p →
    (∀ j, j < run → (backCopy dist run p m).byte .lzbuf (p + j) = m.byte .lzbuf (p - dist + j % dist)) ∧
    ∀ a, a < p ∨ p + run ≤ a → (backCopy dist run p m).byte .lzbuf a = m.byte .lzbuf a

/-- `LZLIT` and `LZEND` complete where their literal bytes are in the payload: the literal run goes to LZBUF, `LZCOUNT` and
`SRC` move on, and `LZEND` sets `LZ_TERM` and ends LZU; nothing else changes (R165, R174, R176). -/
def Obligations.LzLiteralEffect : Prop :=
  ∀ s : State, s.Geometry → s.lzcount < s.npix →
    (∀ n : BitVec 5, n.toNat ≤ 27 → s.lzu.src.toNat + 1 + (4 * n.toNat + 4) ≤ s.plen →
      ∃ t, exec (.lzlit n) s = .next t ∧
        t.lzcount = s.lzcount + (4 * n.toNat + 4) ∧ t.lzu.src.toNat = s.lzu.src.toNat + 1 + (4 * n.toNat + 4) ∧
        (∀ j, j < 4 * n.toNat + 4 → t.byte .lzbuf (s.lzcount + j) = s.byte .pmem (s.lzu.src.toNat + 1 + j)) ∧
        s.memSameBut t .lzbuf (List.range' s.lzcount (4 * n.toNat + 4)) ∧
        t = { s with
          lzu := t.lzu
          csr := { s.csr with lzcount := t.csr.lzcount }
          mem := { s.mem with lzbuf := t.mem.lzbuf } }) ∧
    (∀ l : BitVec 2, s.lzu.src.toNat + 1 + l.toNat ≤ s.plen →
      ∃ t, exec (.lzend l) s = .next t ∧
        t.lzcount = s.lzcount + l.toNat ∧ t.lzu.src.toNat = s.lzu.src.toNat + 1 + l.toNat ∧
        (∀ j, j < l.toNat → t.byte .lzbuf (s.lzcount + j) = s.byte .pmem (s.lzu.src.toNat + 1 + j)) ∧
        s.memSameBut t .lzbuf (List.range' s.lzcount l.toNat) ∧
        t = { s with
          lzu := t.lzu
          csr := { s.csr with lzcount := t.csr.lzcount }
          mem := { s.mem with lzbuf := t.mem.lzbuf }
          st := { s.st with lzTerm := true }
          seq := { s.seq with unitDone := true } })

/-- The family-C abort: when `lit + run` exceeds `NPIX - LZCOUNT` LZU ends with `LZ_TRUNC`; with the parameter false nothing
of the instruction is written and its source is not looked at; with the parameter true the literal run, its source
checked, is copied first (R164, R172). That `SRC` stays where it was after such an abort is the model's reading of R164,
no sentence of a rule (log entry 12). -/
def Obligations.LzcAbort : Prop :=
  ∀ (d : BitVec 1) (r l : BitVec 2) (o1 o2 o3 : Byte) (s : State), s.Geometry → s.lzcount < s.npix →
    s.npix < s.lzcount + lzcLit l + (lzcBack d r o1 o2 o3).run →
    (s.cfg.lzcAbortAfterLiteral = false → exec (.lzc d r l o1 o2 o3) s =
      .next { s with st := { s.st with lzTrunc := true }, seq := { s.seq with unitDone := true } }) ∧
    (s.cfg.lzcAbortAfterLiteral = true → s.plen < s.lzu.src.toNat + 4 + lzcLit l →
      exec (.lzc d r l o1 o2 o3) s = .next (s.raise .lzSrcOverrun s.lzu.src.toNat)) ∧
    (s.cfg.lzcAbortAfterLiteral = true → s.lzu.src.toNat + 4 + lzcLit l ≤ s.plen →
      ∃ t, exec (.lzc d r l o1 o2 o3) s = .next t ∧ t.lzcount = s.lzcount + lzcLit l ∧
        (∀ j, j < lzcLit l → t.byte .lzbuf (s.lzcount + j) = s.byte .pmem (s.lzu.src.toNat + 4 + j)) ∧
        s.memSameBut t .lzbuf (List.range' s.lzcount (lzcLit l)) ∧
        t = { s with
          csr := { s.csr with lzcount := t.csr.lzcount }
          mem := { s.mem with lzbuf := t.mem.lzbuf }
          st := { s.st with lzTrunc := true }
          seq := { s.seq with unitDone := true } })

/-- The order of an LZU instruction's own checks: literal bytes in the payload, then the back-reference range; a faulting
instruction writes nothing (R164, R167, R179). `LZC` makes them only when it does not abort. -/
def Obligations.LzFaultOrder : Prop :=
  (∀ (i : Instr) (k lit : Nat) (b : BackRef) (s : State), LzBackForm i k lit b →
    (∀ d r l o1 o2 o3, i = .lzc d r l o1 o2 o3 → s.lzcount + lit + b.run ≤ s.npix) →
    (s.plen < s.lzu.src.toNat + 1 + k + lit → exec i s = .next (s.raise .lzSrcOverrun s.lzu.src.toNat)) ∧
    (s.lzu.src.toNat + 1 + k + lit ≤ s.plen → s.lzcount + lit < b.dist →
      exec i s = .next (s.raise .lzBackrefRange s.lzu.src.toNat))) ∧
  (∀ (n : BitVec 5) (s : State), s.plen < s.lzu.src.toNat + 1 + (4 * n.toNat + 4) →
    exec (.lzlit n) s = .next (s.raise .lzSrcOverrun s.lzu.src.toNat)) ∧
  (∀ (l : BitVec 2) (s : State), s.plen < s.lzu.src.toNat + 1 + l.toNat →
    exec (.lzend l) s = .next (s.raise .lzSrcOverrun s.lzu.src.toNat))

/-- An LZU step leaves `LZCOUNT` at most `NPIX + 111`, inside the buffer's `NPIX + 130` bytes; with the default parameter an
`LZC` step leaves it at most `NPIX` (R32, R169, R172). -/
def Obligations.LzOvershoot : Prop :=
  ∀ (s t : State), s.Geometry → s.inputs = [] → s.seq.phase = .lzu → s.seq.unitDone = false →
    s.lzcount < s.npix → step s = .next t →
    t.lzcount ≤ s.npix + 111 ∧
    (s.cfg.lzcAbortAfterLiteral = false → lzForm (s.byte .pmem s.lzu.src.toNat) = .c → t.lzcount ≤ s.npix)

/-! ### FRP -/

/-- `FLIP` completes: `FLAG` is toggled and `OPC` moves on; nothing else changes (R201). -/
def Obligations.FlipEffect : Prop :=
  ∀ s : State, s.frp.opc.toNat < s.opcount →
    ∃ t, exec .flip s = .next t ∧ t.frp.opc.toNat = s.frp.opc.toNat + 1 ∧
      t = { s with frp := { s.frp with flag := !s.frp.flag, opc := t.frp.opc } }

/-- The FRP loop: completion at `REM = 0` before any fetch, `FRP_OPC_UNDERRUN` when the opcodes run out, `FRP_BAD_OPCODE` on
`22..255`, else the opcode is executed (R191, R223). -/
def Obligations.FrpFetchOrder : Prop :=
  ∀ s : State, s.inputs = [] → s.seq.phase = .frp → s.opcount ≤ s.size .opbuf →
    let pc := s.frp.opc.toNat
    let op := s.byte .opbuf pc
    (s.frp.rem.toNat = 0 → step s = .next s.complete) ∧
    (s.frp.rem.toNat ≠ 0 → s.opcount ≤ pc → step s = .next (s.raise .frpOpcUnderrun pc)) ∧
    (s.frp.rem.toNat ≠ 0 → pc < s.opcount → 22 ≤ op.toNat → step s = .next (s.raise .frpBadOpcode pc)) ∧
    (s.frp.rem.toNat ≠ 0 → pc < s.opcount → op.toNat < 22 →
      ∃ i, decodeOp op = some i ∧ encode i = [op] ∧ step s = exec i s)

/-- The run size of every opcode `1..21` (R192), with the big-endian assembly of the size bytes (R106). -/
def Obligations.RunSizes : Prop :=
  ∀ (op : Byte) (i : Instr) (z : SizeSrc) (s : State), decodeOp op = some i → (i, z) ∈ altForms ++ mvForms →
    let b := fun (j : Nat) => (s.byte .pmem (s.frp.siz.toNat + j)).toNat
    s.runSize z =
        (if op.toNat ≤ 8 then op.toNat
        else if 12 ≤ op.toNat ∧ op.toNat ≤ 18 then op.toNat - 10
        else if op.toNat = 9 ∨ op.toNat = 19 then b 0
        else if op.toNat = 10 ∨ op.toNat = 20 then 256 * b 0 + b 1
        else 65536 * b 0 + 256 * b 1 + b 2) ∧
    z.bytes = (if op.toNat = 9 ∨ op.toNat = 19 then 1 else if op.toNat = 10 ∨ op.toNat = 20 then 2
      else if op.toNat = 11 ∨ op.toNat = 21 then 3 else 0)

/-- `ALT1` to `ALT8`, `ALT.B`, `ALT.H`, `ALT.T` complete with `FLAG = 1` before the step: the run's pixels are the next
literal bytes, `PMEM[LITBASE + LIT + k]` when `LITMODE = 0` and `LZBUF[LIT + k]` when `LITMODE = 1`; `FLAG` becomes 0, the
cursors advance; nothing else changes (R127, R195, R197, R199, R202 to R212). -/
def Obligations.AltLiteralEffect : Prop :=
  ∀ (i : Instr) (z : SizeSrc) (s : State), (i, z) ∈ altForms → s.FrpReady → s.frp.opc.toNat < s.opcount →
    s.frp.flag = true → s.frp.siz.toNat + z.bytes ≤ s.plen → s.runSize z ≤ s.frp.rem.toNat →
    s.frp.lit.toNat + s.runSize z ≤ s.seq.litlen.toNat →
    ∃ t, exec i s = .next t ∧ t = { s with frp := t.frp, mem := t.mem } ∧
      t.frp.flag = false ∧ t.frp.opc.toNat = s.frp.opc.toNat + 1 ∧ t.frp.siz.toNat = s.frp.siz.toNat + z.bytes ∧
      t.frp.vec = s.frp.vec ∧ t.frp.lit.toNat = s.frp.lit.toNat + s.runSize z ∧
      t.frp.rem.toNat = s.frp.rem.toNat - s.runSize z ∧
      t.frp.x.toNat = (s.frp.x.toNat + s.runSize z) % s.w ∧
      t.frp.y.toNat = s.frp.y.toNat + (s.frp.x.toNat + s.runSize z) / s.w ∧
      (s.seq.litmode = false → ∀ k, k < s.runSize z → t.byte s.cur (s.pixelIndex (s.paintedCount + k)) =
        s.byte .pmem (s.seq.litbase.toNat + s.frp.lit.toNat + k)) ∧
      (s.seq.litmode = true → ∀ k, k < s.runSize z → t.byte s.cur (s.pixelIndex (s.paintedCount + k)) =
        s.byte .lzbuf (s.frp.lit.toNat + k)) ∧
      s.memSameBut t s.cur (s.runAddrs (s.runSize z))

/-- The same eleven instructions complete with `FLAG = 0` before the step: the run's pixels are those of `PREV` at the same
place, `FLAG` becomes 1, no literal byte is consumed; nothing else changes (R195, R196, R197, R199, R202 to R212). -/
def Obligations.AltPreviousEffect : Prop :=
  ∀ (i : Instr) (z : SizeSrc) (s : State), (i, z) ∈ altForms → s.FrpReady → s.frp.opc.toNat < s.opcount →
    s.frp.flag = false → s.frp.siz.toNat + z.bytes ≤ s.plen → s.runSize z ≤ s.frp.rem.toNat →
    (1 ≤ s.runSize z → s.st.prevValid = true) →
    ∃ t, exec i s = .next t ∧ t = { s with frp := t.frp, mem := t.mem } ∧
      t.frp.flag = true ∧ t.frp.opc.toNat = s.frp.opc.toNat + 1 ∧ t.frp.siz.toNat = s.frp.siz.toNat + z.bytes ∧
      t.frp.vec = s.frp.vec ∧ t.frp.lit = s.frp.lit ∧
      t.frp.rem.toNat = s.frp.rem.toNat - s.runSize z ∧
      t.frp.x.toNat = (s.frp.x.toNat + s.runSize z) % s.w ∧
      t.frp.y.toNat = s.frp.y.toNat + (s.frp.x.toNat + s.runSize z) / s.w ∧
      (∀ k, k < s.runSize z → t.byte s.cur (s.pixelIndex (s.paintedCount + k)) =
        s.byte s.prev (s.pixelIndex (s.paintedCount + k))) ∧
      s.memSameBut t s.cur (s.runAddrs (s.runSize z))

/-- `MV2` to `MV8`, `MV.B`, `MV.H`, `MV.T` complete where their checks pass: pixel `k` of the run is `PREV`'s pixel at
`(Y+dy)*W + (X+dx) + k`, `FLAG` becomes 0, the vector byte is consumed, the cursors advance; nothing else changes
(R197, R198, R199, R213 to R222). -/
def Obligations.MvEffect : Prop :=
  ∀ (i : Instr) (z : SizeSrc) (s : State), (i, z) ∈ mvForms → s.FrpReady → s.frp.opc.toNat < s.opcount →
    s.frp.siz.toNat + z.bytes ≤ s.plen → s.runSize z ≤ s.frp.rem.toNat → s.frp.vec.toNat < s.plen →
    let n := s.runSize z
    let v := s.byte .pmem s.frp.vec.toNat
    let rx : Int := s.frp.x.toNat + vecDx v
    let ry : Int := s.frp.y.toNat + vecDy v
    (1 ≤ n → s.st.prevValid = true ∧ 0 ≤ rx ∧ rx < s.w ∧ 0 ≤ ry ∧ ry < s.h ∧ ry * s.w + rx + n ≤ s.w * s.h) →
    ∃ t, exec i s = .next t ∧ t = { s with frp := t.frp, mem := t.mem } ∧
      t.frp.flag = false ∧ t.frp.opc.toNat = s.frp.opc.toNat + 1 ∧ t.frp.siz.toNat = s.frp.siz.toNat + z.bytes ∧
      t.frp.vec.toNat = s.frp.vec.toNat + 1 ∧ t.frp.lit = s.frp.lit ∧
      t.frp.rem.toNat = s.frp.rem.toNat - n ∧
      t.frp.x.toNat = (s.frp.x.toNat + n) % s.w ∧ t.frp.y.toNat = s.frp.y.toNat + (s.frp.x.toNat + n) / s.w ∧
      (∀ k, k < n → t.byte s.cur (s.pixelIndex (s.paintedCount + k)) =
        s.byte s.prev (s.pixelIndex ((ry * s.w + rx).toNat + k))) ∧
      s.memSameBut t s.cur (s.runAddrs n)

/-- A run of size 0 still toggles or clears `FLAG` and consumes its size bytes and its vector byte; it needs no previous
frame, no vector in range and no literal byte, and changes nothing else (R193). -/
def Obligations.ZeroSizeRuns : Prop :=
  ∀ (i : Instr) (z : SizeSrc) (s : State), s.Geometry → s.frp.x.toNat < s.w → s.runSize z = 0 →
    s.frp.siz.toNat + z.bytes ≤ s.plen → s.frp.opc.toNat < s.opcount → s.frp.lit.toNat ≤ s.seq.litlen.toNat →
    ((i, z) ∈ altForms → ∃ t, exec i s = .next t ∧ s.memSame t ∧
      t.frp.opc.toNat = s.frp.opc.toNat + 1 ∧ t.frp.siz.toNat = s.frp.siz.toNat + z.bytes ∧
      t = { s with frp := { s.frp with flag := !s.frp.flag, opc := t.frp.opc, siz := t.frp.siz } }) ∧
    ((i, z) ∈ mvForms → s.frp.vec.toNat < s.plen → ∃ t, exec i s = .next t ∧ s.memSame t ∧
      t.frp.opc.toNat = s.frp.opc.toNat + 1 ∧ t.frp.siz.toNat = s.frp.siz.toNat + z.bytes ∧
      t.frp.vec.toNat = s.frp.vec.toNat + 1 ∧
      t = { s with frp := { s.frp with flag := false, opc := t.frp.opc, siz := t.frp.siz, vec := t.frp.vec } })

/-- The order of the checks of opcodes `1..11`: size bytes, run overflow, then previous-frame validity when the new flag is
1 and the literal bound when it is 0; the first that fails is recorded and nothing else happens (R193 to R196, R200). -/
def Obligations.AltFaultOrder : Prop :=
  ∀ (i : Instr) (z : SizeSrc) (s : State), (i, z) ∈ altForms → s.plen ≤ s.size .pmem → 1 ≤ s.w →
    let f := fun (c : Cause) => Host.Outcome.next (s.raise c s.frp.opc.toNat)
    (0 < z.bytes → s.plen < s.frp.siz.toNat + z.bytes → exec i s = f .frpSizOverrun) ∧
    ((0 < z.bytes → s.frp.siz.toNat + z.bytes ≤ s.plen) →
      (s.frp.rem.toNat < s.runSize z → exec i s = f .frpRunOverflow) ∧
      (s.runSize z ≤ s.frp.rem.toNat →
        (s.frp.flag = false → 1 ≤ s.runSize z → s.st.prevValid = false → exec i s = f .frpNoPrev) ∧
        (s.frp.flag = true → s.seq.litlen.toNat < s.frp.lit.toNat + s.runSize z → exec i s = f .frpLitOverrun)))

/-- The order of the checks of opcodes `12..21`: size bytes, run overflow, vector byte, and for a run of at least one pixel
previous-frame validity, then the motion range (R193, R194, R198, R200). -/
def Obligations.MvFaultOrder : Prop :=
  ∀ (i : Instr) (z : SizeSrc) (s : State), (i, z) ∈ mvForms → s.plen ≤ s.size .pmem → 1 ≤ s.w →
    let f := fun (c : Cause) => Host.Outcome.next (s.raise c s.frp.opc.toNat)
    let v := s.byte .pmem s.frp.vec.toNat
    let rx : Int := s.frp.x.toNat + vecDx v
    let ry : Int := s.frp.y.toNat + vecDy v
    (0 < z.bytes → s.plen < s.frp.siz.toNat + z.bytes → exec i s = f .frpSizOverrun) ∧
    ((0 < z.bytes → s.frp.siz.toNat + z.bytes ≤ s.plen) →
      (s.frp.rem.toNat < s.runSize z → exec i s = f .frpRunOverflow) ∧
      (s.runSize z ≤ s.frp.rem.toNat →
        (s.plen ≤ s.frp.vec.toNat → exec i s = f .frpVecOverrun) ∧
        (s.frp.vec.toNat < s.plen → 1 ≤ s.runSize z →
          (s.st.prevValid = false → exec i s = f .frpNoPrev) ∧
          (s.st.prevValid = true →
            ¬(0 ≤ rx ∧ rx < s.w ∧ 0 ≤ ry ∧ ry < s.h ∧ ry * s.w + rx + s.runSize z ≤ s.w * s.h) →
            exec i s = f .frpMotionRange))))

/-- The vector byte: `dx` is bits 7:4 and `dy` bits 3:0, each as a signed 4-bit number (R107). -/
def Obligations.VectorComponents : Prop :=
  ∀ v : Byte,
    vecDx v = (if v.toNat / 16 < 8 then (v.toNat / 16 : Int) else (v.toNat / 16 : Int) - 16) ∧
    vecDy v = (if v.toNat % 16 < 8 then (v.toNat % 16 : Int) else (v.toNat % 16 : Int) - 16) ∧
    -8 ≤ vecDx v ∧ vecDx v ≤ 7 ∧ -8 ≤ vecDy v ∧ vecDy v ≤ 7

/-- Raster order in closed form: from column `c < W` of row `r`, pixel `k` of a run lies at column `(d+k) mod W` of row
`(d+k) / W` with `d = r*W + c` (R197). -/
def Obligations.RasterOrder : Prop :=
  ∀ (w stride n c r k : Nat), c < w → k < n →
    (pixelAddrs w stride n (c, r))[k]? = some ((r * w + c + k) / w * stride + (r * w + c + k) % w)

/-- The motion check confines the read: every byte of `PREV` a displaced run reads is a pixel of the frame (R71, R198). -/
def Obligations.MotionReadsInsideFrame : Prop :=
  ∀ (s : State) (n : Nat) (dx dy : Int), s.motionInside n dx dy = true →
    ∀ a ∈ s.prevAddrs n dx dy, ∃ row col, row < s.h ∧ col < s.w ∧ a = row * s.stride + col

/-- At `REM = 0` the frame is whole: the completion step is taken, the position is `(0, H)`, and the bank that becomes
`PREV` holds a value painted in this decode at every pixel of the frame and at no other byte (R130, R230). -/
def Obligations.CompletedFrameIsWhole : Prop :=
  ∀ s : State, s.Inv → s.inputs = [] → s.seq.phase = .frp → s.frp.rem.toNat = 0 →
    ∃ t, step s = .next t ∧ t.st.done = true ∧ t.st.prevValid = true ∧ t.busy = false ∧
      t.frp.x.toNat = 0 ∧ t.frp.y.toNat = t.h ∧
      ∀ a, ((t.memAt t.prev).get? a).isSome = true ↔ ∃ k, k < t.npix ∧ a = t.pixelIndex k

/-! ### Faults -/

/-- Fault entry: `FAULT`, `CAUSE`, `FAULTINFO`, `BUSY` and `PHASE` are written and nothing else changes (R262). -/
def Obligations.FaultEntry : Prop :=
  ∀ (s : State) (c : Cause) (info : Nat), info < 2 ^ 32 →
    (s.raise c info).st.fault = true ∧ (s.raise c info).st.cause.toNat = c.code ∧
    (s.raise c info).csr.faultinfo.toNat = info ∧ (s.raise c info).busy = false ∧
    (s.raise c info).seq.phase = .idle ∧
    s.raise c info = { s with
      st := { s.st with fault := true, cause := (s.raise c info).st.cause }
      csr := { s.csr with faultinfo := (s.raise c info).csr.faultinfo }
      seq := { s.seq with phase := .idle } }

/-- Faults are precise: whenever a step of FDB raises one, the new state is the old one with the fault entry and nothing
else (R15, R262). -/
def Obligations.FaultsArePrecise : Prop :=
  ∀ s t : State, s.inputs = [] → step s = .next t → s.st.fault = false → t.st.fault = true →
    ∃ c info, t = s.raise c info

/-- An instruction raises only the causes the table gives it, and raising one is all it then does (R242). -/
def Obligations.FaultTable : Prop :=
  ∀ (i : Instr) (s t : State), exec i s = .next t → s.st.fault = false → t.st.fault = true →
    ∃ c ∈ faultsOf i, ∃ info, t = s.raise c info

/-- A recorded fault stays, with its cause and info and with `BUSY = 0`, through every step but an accepted START and a
reset (R263). -/
def Obligations.FaultKept : Prop :=
  ∀ s t : State, s.st.fault = true → s.busy = false → step s = .next t →
    (∃ v rest, s.inputs = some (.writeCsr 0 v) :: rest ∧ v.getLsbD 0 = true) ∨
    (∃ rest, s.inputs = some .reset :: rest) ∨
    (t.st.fault = true ∧ t.st.cause = s.st.cause ∧ t.csr.faultinfo = s.csr.faultinfo ∧ t.busy = false)

/-! ### The host and reset -/

/-- Reset gives the values of R51, at power-up and at any later time, also during a decode, when every memory becomes
unspecified again (R51, R280); the registers the rule leaves unspecified are not mentioned. -/
def Obligations.ResetValues : Prop :=
  let zeroed := fun (t : State) =>
    t.seq.phase = .idle ∧ t.busy = false ∧ t.statusWord = 0 ∧ t.csr.width = 0 ∧ t.csr.height = 0 ∧
    t.csr.stride = 0 ∧ t.csr.plen = 0 ∧ t.csr.faultinfo = 0 ∧ t.csr.opcount = 0 ∧ t.csr.lzcount = 0 ∧
    t.irq = false ∧ ∀ sp a, (t.memAt sp).get? a = none
  zeroed State.reset ∧ ∀ s : State, ∃ t, hostMove .reset s = .next t ∧ zeroed t ∧ t.cfg = s.cfg

/-- While `BUSY = 1` a host write to any CSR changes nothing, and a host access to PMEM or a frame bank is no move: the
model refuses it by name (R34, R36, R37, R311). -/
def Obligations.BusyHostMoves : Prop :=
  ∀ s : State, s.busy = true →
    (∀ n v, hostMove (.writeCsr n v) s = .next s) ∧
    (∀ a b, hostMove (.writePmem a b) s = .refused (.hostBreach (.writePmem a b))) ∧
    (∀ a, hostMove (.readPmem a) s = .refused (.hostBreach (.readPmem a))) ∧
    (∀ bank a, hostMove (.readBank bank a) s = .refused (.hostBreach (.readBank bank a)))

/-- While `BUSY = 0` a write to WIDTH, HEIGHT or STRIDE stores bits 15:0 and, if the value changes, clears `PREV_VALID`;
a write to PLEN stores all 32 bits; writes to CTRL without bit 0, to the read-only registers and to numbers above 8
change nothing (R34, R36, R37, R40, R42). -/
def Obligations.IdleCsrWrites : Prop :=
  ∀ (s : State) (v : Word), s.busy = false →
    let st' := fun (same : Bool) => { s.st with prevValid := s.st.prevValid && same }
    hostMove (.writeCsr 2 v) s = .next { s with
      csr := { s.csr with width := v.setWidth 16 }, st := st' (s.csr.width == v.setWidth 16) } ∧
    hostMove (.writeCsr 3 v) s = .next { s with
      csr := { s.csr with height := v.setWidth 16 }, st := st' (s.csr.height == v.setWidth 16) } ∧
    hostMove (.writeCsr 4 v) s = .next { s with
      csr := { s.csr with stride := v.setWidth 16 }, st := st' (s.csr.stride == v.setWidth 16) } ∧
    hostMove (.writeCsr 5 v) s = .next { s with csr := { s.csr with plen := v } } ∧
    (v.getLsbD 0 = false → hostMove (.writeCsr 0 v) s = .next s) ∧
    ∀ n, n = 1 ∨ 6 ≤ n → hostMove (.writeCsr n v) s = .next s

/-- What a host read of each CSR returns while `BUSY = 0`; a read changes nothing of FDB (R34 to R40, R67). -/
def Obligations.IdleCsrReads : Prop :=
  ∀ (s : State) (n : Nat), s.busy = false → ∃ t, hostMove (.readCsr n) s = .next t ∧
    t = { s with readback := t.readback } ∧
    (n = 0 → t.readback = 0) ∧ (n = 1 → t.readback = s.statusWord) ∧
    (n = 2 → t.readback.toNat = s.w) ∧ (n = 3 → t.readback.toNat = s.h) ∧ (n = 4 → t.readback.toNat = s.stride) ∧
    (n = 5 → t.readback.toNat = s.plen) ∧ (n = 6 → t.readback = s.csr.faultinfo) ∧
    (n = 7 → t.readback.toNat = s.opcount) ∧ (n = 8 → t.readback.toNat = s.lzcount) ∧ (9 ≤ n → t.readback = 0)

/-- The layout of STATUS: every field at its bits, the reserved bits 0 (R35); and the interrupt output
`IRQ = DONE | FAULT`, in terms of the STATUS bits (R266). -/
def Obligations.StatusLayout : Prop :=
  ∀ s : State,
    s.statusWord.getLsbD 0 = s.busy ∧ s.statusWord.getLsbD 1 = s.st.done ∧ s.statusWord.getLsbD 2 = s.st.fault ∧
    s.statusWord.getLsbD 3 = s.st.prevValid ∧ s.statusWord.getLsbD 4 = s.st.cursel ∧
    s.statusWord.getLsbD 5 = s.st.osdEnd ∧ s.statusWord.getLsbD 6 = s.st.osdCap ∧
    s.statusWord.getLsbD 7 = s.st.lzUsed ∧ s.statusWord.getLsbD 8 = s.st.lzTerm ∧
    s.statusWord.getLsbD 9 = s.st.lzFull ∧ s.statusWord.getLsbD 10 = s.st.lzTrunc ∧
    s.statusWord.extractLsb' 11 5 = 0 ∧ s.statusWord.extractLsb' 16 5 = s.st.cause ∧
    s.statusWord.extractLsb' 21 11 = 0 ∧
    s.irq = (s.st.done || s.st.fault) ∧ s.irq = (s.statusWord.getLsbD 1 || s.statusWord.getLsbD 2)

/-- A host read of any CSR while `BUSY = 1`, whatever the free choice (R43): in STATUS `BUSY = 1`, `DONE = 0`, `FAULT = 0`,
`CAUSE = 0`, the reserved bits are 0, `PREV_VALID` and `CURSEL` are the present ones (log entry 3) and the ending bits, a
combination R35 allows, are those of a step boundary of the decode; OPCOUNT and LZCOUNT are that boundary's too, at most
`NPIX` and `NPIX + 111` (R31, R32). CTRL, the configuration registers, FAULTINFO and the numbers above 8 read as at any
time (R34, R36, R37, R38, R40, R42). A read changes nothing of FDB (R67). -/
def Obligations.BusyCsrReads : Prop :=
  ∀ (s : State) (n : Nat), s.busy = true → ∃ t k, hostMove (.readCsr n) s = .next t ∧
    t = { s with readback := t.readback, draws := s.draws + 1 } ∧
    (n = 0 → t.readback = 0) ∧
    (n = 1 → t.readback.extractLsb' 0 3 = 1 ∧
      t.readback.getLsbD 3 = s.st.prevValid ∧ t.readback.getLsbD 4 = s.st.cursel ∧
      t.readback.getLsbD 5 = (s.boundary k).st.osdEnd ∧ t.readback.getLsbD 6 = (s.boundary k).st.osdCap ∧
      t.readback.getLsbD 7 = (s.boundary k).st.lzUsed ∧ t.readback.getLsbD 8 = (s.boundary k).st.lzTerm ∧
      t.readback.getLsbD 9 = (s.boundary k).st.lzFull ∧ t.readback.getLsbD 10 = (s.boundary k).st.lzTrunc ∧
      (s.boundary k).st.endings ∈ legalEndings ∧
      t.readback.extractLsb' 11 5 = 0 ∧ t.readback.extractLsb' 16 5 = 0 ∧ t.readback.extractLsb' 21 11 = 0) ∧
    (n = 2 → t.readback.toNat = s.w) ∧ (n = 3 → t.readback.toNat = s.h) ∧ (n = 4 → t.readback.toNat = s.stride) ∧
    (n = 5 → t.readback.toNat = s.plen) ∧ (n = 6 → t.readback = s.csr.faultinfo) ∧
    (n = 7 → t.readback = (s.boundary k).csr.opcount ∧ t.readback.toNat ≤ s.npix) ∧
    (n = 8 → t.readback = (s.boundary k).csr.lzcount ∧ t.readback.toNat ≤ s.npix + 111) ∧
    (9 ≤ n → t.readback = 0)

/-- While `BUSY = 0` the host writes and reads bytes of PMEM and reads bytes of the banks: a write changes that byte and no
other, and a read returns the byte and changes nothing of FDB (R67, R310). -/
def Obligations.IdleMemoryMoves : Prop :=
  ∀ (s : State) (a : Nat) (b : Byte) (bank : Bool), s.busy = false →
    (a < s.size .pmem → ∃ t, hostMove (.writePmem a b) s = .next t ∧ t.byte .pmem a = b ∧
      s.memSameBut t .pmem [a] ∧ t = { s with mem := t.mem }) ∧
    (a < s.size .pmem → hostMove (.readPmem a) s =
      .next { s with readback := (s.byte .pmem a).setWidth 32 }) ∧
    (a < s.size (bankOf bank) → hostMove (.readBank bank a) s =
      .next { s with readback := (s.byte (bankOf bank) a).setWidth 32 })

/-- Idle, FDB does nothing and keeps all state (R275). -/
def Obligations.IdleStays : Prop :=
  ∀ s : State, s.busy = false → s.inputs = [] → step s = .next s

/-! ### Rules of the whole machine -/

/-- `CURSEL` changes only at the completion step and at reset; `PREV_VALID` becomes 1 only at the completion step, and 0
only at reset and at a host write that changes the geometry (R28, R29, R36, R130, R280). -/
def Obligations.FramePairChanges : Prop :=
  ∀ s t : State, step s = .next t →
    (t.st.cursel ≠ s.st.cursel →
      (∃ rest, s.inputs = some .reset :: rest) ∨
      (s.seq.phase = .frp ∧ s.frp.rem.toNat = 0 ∧ t.st.done = true ∧ t.busy = false)) ∧
    (s.st.prevValid = false → t.st.prevValid = true →
      s.seq.phase = .frp ∧ s.frp.rem.toNat = 0 ∧ t.st.done = true ∧ t.busy = false) ∧
    (s.st.prevValid = true → t.st.prevValid = false →
      (∃ rest, s.inputs = some .reset :: rest) ∨
      (∃ n v rest, s.inputs = some (.writeCsr n v) :: rest ∧ s.busy = false ∧ (n = 2 ∨ n = 3 ∨ n = 4) ∧
        (t.w ≠ s.w ∨ t.h ≠ s.h ∨ t.stride ≠ s.stride)))

/-- The cursors only move forward: a step of OSD that does not end it consumes one bit, an LZU instruction that neither
faults nor aborts moves `SRC` by its length, an FRP opcode that does not fault moves `OPC` by 1 (R25, R101, R232). -/
def Obligations.CursorsAdvance : Prop :=
  ∀ s t : State, s.Inv → s.inputs = [] → step s = .next t → t.st.fault = false →
    (s.seq.phase = .osd → s.seq.unitDone = false → s.osd.node.toNat ≠ 0x16 →
      t.osd.bitpos.toNat = s.osd.bitpos.toNat + 1) ∧
    (s.seq.phase = .lzu → s.seq.unitDone = false → s.lzcount < s.npix → t.st.lzTrunc = false →
      t.lzu.src.toNat = s.lzu.src.toNat + lzLength s.lzInstr ∧ 1 ≤ lzLength s.lzInstr) ∧
    (s.seq.phase = .frp → s.frp.rem.toNat ≠ 0 → t.frp.opc.toNat = s.frp.opc.toNat + 1)

/-- A step of FDB changes no byte but one of its own: OSD the entry `OPBUF[OPCOUNT]`, LZU the bytes of LZBUF between the old
and the new `LZCOUNT`, FRP the pixels of `CUR` between the old and the new position; PMEM, `PREV`, row padding and the
bytes beyond the frame are never written (R45 to R48, R77, R270, R292). -/
def Obligations.FdbWritesOnlyItsOwn : Prop :=
  ∀ s t : State, s.Inv → s.inputs = [] → step s = .next t → ∀ sp a, t.byte sp a ≠ s.byte sp a →
    (sp = .opbuf ∧ s.seq.phase = .osd ∧ a = s.opcount) ∨
    (sp = .lzbuf ∧ s.seq.phase = .lzu ∧ s.lzcount ≤ a ∧ a < t.lzcount) ∨
    (sp = s.cur ∧ s.seq.phase = .frp ∧ ∃ k, s.paintedCount ≤ k ∧ k < t.paintedCount ∧ a = s.pixelIndex k)

/-- Every memory operation keeps the canonical form: any step from a state whose memories are in canonical form leaves
them so (the model's own form of memory, log entry 2). -/
def Obligations.StepKeepsCanonical : Prop :=
  ∀ s t : State, s.mem.wf = true → step s = .next t → t.mem.wf = true

/-- The invariant holds of the machine after reset. -/
def Obligations.InvAtReset : Prop := State.reset.Inv

/-- Every step, of FDB or of the host, keeps the invariant: the cursors' bounds (R30 to R33; of `BITPOS` at most `8*PLEN`
unless the table itself runs past the payload, log entry 17), one ending bit per unit and one outcome per decode (R35),
`Y*W + X + REM = NPIX` and exactly the pixels before the position painted (R199, R230), opcodes below 22 in OPBUF (R46),
a value in every byte of OPBUF, of LZBUF and of `PREV` that FDB may read later (R282; not of PMEM, which is the host's duty
by R283). -/
def Obligations.StepKeepsInv : Prop :=
  ∀ s t : State, s.Inv → step s = .next t → t.Inv

/-- No state of the invariant is stuck: with host moves that address existing bytes a step always answers a next state, but
for a host that touches FDB's memories while `BUSY = 1` (R71, R243, R276, R311). -/
def Obligations.NoModelFault : Prop :=
  ∀ s : State, s.Inv → (∀ m rest, s.inputs = some m :: rest → m.inRange s) →
    (∃ t, step s = .next t) ∨
    (∃ m rest, s.inputs = some m :: rest ∧ s.busy = true ∧ step s = .refused (.hostBreach m))

/-- Every decode ends, whatever bits beside bit 0 START is written with, and while the host goes on reading CSRs or lets
FDB step: within `2 + 8*PLEN + PLEN + NPIX + 2` steps, the START step included and the host's reads not counted, `BUSY` is
0 and exactly one of `DONE` and `FAULT` is 1 (R132, R133, R310). -/
def Obligations.EveryDecodeEnds : Prop :=
  ∀ (s : State) (v : Word) (rest : List (Option HostMove)), s.Inv → s.busy = false → v.getLsbD 0 = true →
    s.inputs = some (.writeCsr 0 v) :: rest → (∀ m, some m ∈ rest → ∃ n, m = .readCsr n) →
    ∃ t, Sys2Proof.core.run (2 + 8 * s.plen + s.plen + s.npix + 2 + rest.countP Option.isSome) s = .next t ∧
      t.busy = false ∧ t.st.done = !t.st.fault

/-- The boundaries a busy read shows are those of the decode in progress (R43): after an accepted START, at every boundary
`j` of that decode, whatever the host has read meanwhile and whatever it will do, the read that chooses boundary `k`
returns what CSR `n` holds at boundary `k` of that decode. That `k` may lie before or after `j` is the model's choice
(log entry 3). -/
def Obligations.BusyReadsShowThisDecode : Prop :=
  ∀ (s t : State) (v : Word), s.busy = false → v.getLsbD 0 = true → hostMove (.writeCsr 0 v) s = .next t →
    t.busy = true → ∀ (j k n d : Nat) (r : Word) (ins : List (Option HostMove)),
    ({ t.runBusy j with inputs := ins, readback := r, draws := d }).csrValueBusy n k = (t.runBusy k).csrValue n
end

