-- ==== Sys2Proof/Laws/State.lean ====
section
/-! SUPPORT. One lemma for each field that a named update of the state leaves alone or writes, each true by `rfl`, so that
no later proof unfolds a record update. -/

namespace Sys2Proof.Machine

/-! ### `setMem` -/

@[simp] theorem State.setMem_cfg (s : State) (sp : Space) (x : Mem) : (s.setMem sp x).cfg = s.cfg := rfl
@[simp] theorem State.setMem_seq (s : State) (sp : Space) (x : Mem) : (s.setMem sp x).seq = s.seq := rfl
@[simp] theorem State.setMem_osd (s : State) (sp : Space) (x : Mem) : (s.setMem sp x).osd = s.osd := rfl
@[simp] theorem State.setMem_lzu (s : State) (sp : Space) (x : Mem) : (s.setMem sp x).lzu = s.lzu := rfl
@[simp] theorem State.setMem_frp (s : State) (sp : Space) (x : Mem) : (s.setMem sp x).frp = s.frp := rfl
@[simp] theorem State.setMem_st (s : State) (sp : Space) (x : Mem) : (s.setMem sp x).st = s.st := rfl
@[simp] theorem State.setMem_csr (s : State) (sp : Space) (x : Mem) : (s.setMem sp x).csr = s.csr := rfl
@[simp] theorem State.setMem_mem (s : State) (sp : Space) (x : Mem) : (s.setMem sp x).mem = s.mem.set sp x := rfl
@[simp] theorem State.setMem_inputs (s : State) (sp : Space) (x : Mem) : (s.setMem sp x).inputs = s.inputs := rfl
@[simp] theorem State.setMem_readback (s : State) (sp : Space) (x : Mem) :
    (s.setMem sp x).readback = s.readback := rfl
@[simp] theorem State.setMem_draws (s : State) (sp : Space) (x : Mem) : (s.setMem sp x).draws = s.draws := rfl
@[simp] theorem State.setMem_w (s : State) (sp : Space) (x : Mem) : (s.setMem sp x).w = s.w := rfl
@[simp] theorem State.setMem_h (s : State) (sp : Space) (x : Mem) : (s.setMem sp x).h = s.h := rfl
@[simp] theorem State.setMem_stride (s : State) (sp : Space) (x : Mem) : (s.setMem sp x).stride = s.stride := rfl
@[simp] theorem State.setMem_plen (s : State) (sp : Space) (x : Mem) : (s.setMem sp x).plen = s.plen := rfl
@[simp] theorem State.setMem_npix (s : State) (sp : Space) (x : Mem) : (s.setMem sp x).npix = s.npix := rfl
@[simp] theorem State.setMem_opcount (s : State) (sp : Space) (x : Mem) : (s.setMem sp x).opcount = s.opcount := rfl
@[simp] theorem State.setMem_lzcount (s : State) (sp : Space) (x : Mem) : (s.setMem sp x).lzcount = s.lzcount := rfl
@[simp] theorem State.setMem_cur (s : State) (sp : Space) (x : Mem) : (s.setMem sp x).cur = s.cur := rfl
@[simp] theorem State.setMem_prev (s : State) (sp : Space) (x : Mem) : (s.setMem sp x).prev = s.prev := rfl
@[simp] theorem State.setMem_size (s : State) (sp : Space) (x : Mem) : (s.setMem sp x).size = s.size := rfl

/-! ### `raise` -/

@[simp] theorem State.raise_cfg (s : State) (c : Cause) (info : Nat) : (s.raise c info).cfg = s.cfg := rfl
@[simp] theorem State.raise_seq_phase (s : State) (c : Cause) (info : Nat) : (s.raise c info).seq.phase = .idle := rfl
@[simp] theorem State.raise_seq_unitDone (s : State) (c : Cause) (info : Nat) :
    (s.raise c info).seq.unitDone = s.seq.unitDone := rfl
@[simp] theorem State.raise_seq_huf (s : State) (c : Cause) (info : Nat) : (s.raise c info).seq.huf = s.seq.huf := rfl
@[simp] theorem State.raise_seq_sizoff (s : State) (c : Cause) (info : Nat) :
    (s.raise c info).seq.sizoff = s.seq.sizoff := rfl
@[simp] theorem State.raise_seq_vecoff (s : State) (c : Cause) (info : Nat) :
    (s.raise c info).seq.vecoff = s.seq.vecoff := rfl
@[simp] theorem State.raise_seq_imgoff (s : State) (c : Cause) (info : Nat) :
    (s.raise c info).seq.imgoff = s.seq.imgoff := rfl
@[simp] theorem State.raise_seq_litmode (s : State) (c : Cause) (info : Nat) :
    (s.raise c info).seq.litmode = s.seq.litmode := rfl
@[simp] theorem State.raise_seq_litbase (s : State) (c : Cause) (info : Nat) :
    (s.raise c info).seq.litbase = s.seq.litbase := rfl
@[simp] theorem State.raise_seq_litlen (s : State) (c : Cause) (info : Nat) :
    (s.raise c info).seq.litlen = s.seq.litlen := rfl
@[simp] theorem State.raise_osd (s : State) (c : Cause) (info : Nat) : (s.raise c info).osd = s.osd := rfl
@[simp] theorem State.raise_lzu (s : State) (c : Cause) (info : Nat) : (s.raise c info).lzu = s.lzu := rfl
@[simp] theorem State.raise_frp (s : State) (c : Cause) (info : Nat) : (s.raise c info).frp = s.frp := rfl
@[simp] theorem State.raise_st_done (s : State) (c : Cause) (info : Nat) : (s.raise c info).st.done = s.st.done := rfl
@[simp] theorem State.raise_st_fault (s : State) (c : Cause) (info : Nat) : (s.raise c info).st.fault = true := rfl
@[simp] theorem State.raise_st_prevValid (s : State) (c : Cause) (info : Nat) :
    (s.raise c info).st.prevValid = s.st.prevValid := rfl
@[simp] theorem State.raise_st_cursel (s : State) (c : Cause) (info : Nat) :
    (s.raise c info).st.cursel = s.st.cursel := rfl
@[simp] theorem State.raise_st_osdEnd (s : State) (c : Cause) (info : Nat) :
    (s.raise c info).st.osdEnd = s.st.osdEnd := rfl
@[simp] theorem State.raise_st_osdCap (s : State) (c : Cause) (info : Nat) :
    (s.raise c info).st.osdCap = s.st.osdCap := rfl
@[simp] theorem State.raise_st_lzUsed (s : State) (c : Cause) (info : Nat) :
    (s.raise c info).st.lzUsed = s.st.lzUsed := rfl
@[simp] theorem State.raise_st_lzTerm (s : State) (c : Cause) (info : Nat) :
    (s.raise c info).st.lzTerm = s.st.lzTerm := rfl
@[simp] theorem State.raise_st_lzFull (s : State) (c : Cause) (info : Nat) :
    (s.raise c info).st.lzFull = s.st.lzFull := rfl
@[simp] theorem State.raise_st_lzTrunc (s : State) (c : Cause) (info : Nat) :
    (s.raise c info).st.lzTrunc = s.st.lzTrunc := rfl
@[simp] theorem State.raise_st_cause (s : State) (c : Cause) (info : Nat) :
    (s.raise c info).st.cause = BitVec.ofNat 5 c.code := rfl
@[simp] theorem State.raise_csr_width (s : State) (c : Cause) (info : Nat) :
    (s.raise c info).csr.width = s.csr.width := rfl
@[simp] theorem State.raise_csr_height (s : State) (c : Cause) (info : Nat) :
    (s.raise c info).csr.height = s.csr.height := rfl
@[simp] theorem State.raise_csr_stride (s : State) (c : Cause) (info : Nat) :
    (s.raise c info).csr.stride = s.csr.stride := rfl
@[simp] theorem State.raise_csr_plen (s : State) (c : Cause) (info : Nat) :
    (s.raise c info).csr.plen = s.csr.plen := rfl
@[simp] theorem State.raise_csr_faultinfo (s : State) (c : Cause) (info : Nat) :
    (s.raise c info).csr.faultinfo = BitVec.ofNat 32 info := rfl
@[simp] theorem State.raise_csr_opcount (s : State) (c : Cause) (info : Nat) :
    (s.raise c info).csr.opcount = s.csr.opcount := rfl
@[simp] theorem State.raise_csr_lzcount (s : State) (c : Cause) (info : Nat) :
    (s.raise c info).csr.lzcount = s.csr.lzcount := rfl
@[simp] theorem State.raise_mem (s : State) (c : Cause) (info : Nat) : (s.raise c info).mem = s.mem := rfl
@[simp] theorem State.raise_inputs (s : State) (c : Cause) (info : Nat) : (s.raise c info).inputs = s.inputs := rfl
@[simp] theorem State.raise_readback (s : State) (c : Cause) (info : Nat) :
    (s.raise c info).readback = s.readback := rfl
@[simp] theorem State.raise_draws (s : State) (c : Cause) (info : Nat) : (s.raise c info).draws = s.draws := rfl
@[simp] theorem State.raise_w (s : State) (c : Cause) (info : Nat) : (s.raise c info).w = s.w := rfl
@[simp] theorem State.raise_h (s : State) (c : Cause) (info : Nat) : (s.raise c info).h = s.h := rfl
@[simp] theorem State.raise_stride (s : State) (c : Cause) (info : Nat) : (s.raise c info).stride = s.stride := rfl
@[simp] theorem State.raise_plen (s : State) (c : Cause) (info : Nat) : (s.raise c info).plen = s.plen := rfl
@[simp] theorem State.raise_npix (s : State) (c : Cause) (info : Nat) : (s.raise c info).npix = s.npix := rfl
@[simp] theorem State.raise_opcount (s : State) (c : Cause) (info : Nat) : (s.raise c info).opcount = s.opcount := rfl
@[simp] theorem State.raise_lzcount (s : State) (c : Cause) (info : Nat) : (s.raise c info).lzcount = s.lzcount := rfl
@[simp] theorem State.raise_cur (s : State) (c : Cause) (info : Nat) : (s.raise c info).cur = s.cur := rfl
@[simp] theorem State.raise_prev (s : State) (c : Cause) (info : Nat) : (s.raise c info).prev = s.prev := rfl
@[simp] theorem State.raise_memAt (s : State) (c : Cause) (info : Nat) : (s.raise c info).memAt = s.memAt := rfl
@[simp] theorem State.raise_byte (s : State) (c : Cause) (info : Nat) : (s.raise c info).byte = s.byte := rfl
@[simp] theorem State.raise_size (s : State) (c : Cause) (info : Nat) : (s.raise c info).size = s.size := rfl

/-! ### `osdInit` -/

@[simp] theorem State.osdInit_cfg (s : State) : (s.osdInit).cfg = s.cfg := rfl
@[simp] theorem State.osdInit_seq (s : State) : (s.osdInit).seq = s.seq := rfl
@[simp] theorem State.osdInit_osd_n (s : State) : (s.osdInit).osd.n = s.byte .pmem s.seq.huf.toNat := rfl
@[simp] theorem State.osdInit_osd_sent (s : State) :
    (s.osdInit).osd.sent = BitVec.ofNat 9 ((s.byte .pmem s.seq.huf.toNat).toNat + sentBias) := rfl
@[simp] theorem State.osdInit_osd_node (s : State) :
    (s.osdInit).osd.node = BitVec.ofNat 9 ((s.byte .pmem s.seq.huf.toNat).toNat + sentBias) := rfl
@[simp] theorem State.osdInit_osd_bitpos (s : State) :
    (s.osdInit).osd.bitpos = BitVec.ofNat 35 (8 * (s.seq.huf.toNat + 1 + 2 * (s.byte .pmem s.seq.huf.toNat).toNat)) := rfl
@[simp] theorem State.osdInit_lzu (s : State) : (s.osdInit).lzu = s.lzu := rfl
@[simp] theorem State.osdInit_frp (s : State) : (s.osdInit).frp = s.frp := rfl
@[simp] theorem State.osdInit_st (s : State) : (s.osdInit).st = s.st := rfl
@[simp] theorem State.osdInit_csr (s : State) : (s.osdInit).csr = s.csr := rfl
@[simp] theorem State.osdInit_mem (s : State) : (s.osdInit).mem = s.mem := rfl
@[simp] theorem State.osdInit_inputs (s : State) : (s.osdInit).inputs = s.inputs := rfl
@[simp] theorem State.osdInit_readback (s : State) : (s.osdInit).readback = s.readback := rfl
@[simp] theorem State.osdInit_draws (s : State) : (s.osdInit).draws = s.draws := rfl
@[simp] theorem State.osdInit_w (s : State) : (s.osdInit).w = s.w := rfl
@[simp] theorem State.osdInit_h (s : State) : (s.osdInit).h = s.h := rfl
@[simp] theorem State.osdInit_stride (s : State) : (s.osdInit).stride = s.stride := rfl
@[simp] theorem State.osdInit_plen (s : State) : (s.osdInit).plen = s.plen := rfl
@[simp] theorem State.osdInit_npix (s : State) : (s.osdInit).npix = s.npix := rfl
@[simp] theorem State.osdInit_opcount (s : State) : (s.osdInit).opcount = s.opcount := rfl
@[simp] theorem State.osdInit_lzcount (s : State) : (s.osdInit).lzcount = s.lzcount := rfl
@[simp] theorem State.osdInit_cur (s : State) : (s.osdInit).cur = s.cur := rfl
@[simp] theorem State.osdInit_prev (s : State) : (s.osdInit).prev = s.prev := rfl
@[simp] theorem State.osdInit_memAt (s : State) : (s.osdInit).memAt = s.memAt := rfl
@[simp] theorem State.osdInit_byte (s : State) : (s.osdInit).byte = s.byte := rfl
@[simp] theorem State.osdInit_size (s : State) : (s.osdInit).size = s.size := rfl

/-! ### `lzuInit` -/

@[simp] theorem State.lzuInit_cfg (s : State) : (s.lzuInit).cfg = s.cfg := rfl
@[simp] theorem State.lzuInit_seq (s : State) : (s.lzuInit).seq = s.seq := rfl
@[simp] theorem State.lzuInit_osd (s : State) : (s.lzuInit).osd = s.osd := rfl
@[simp] theorem State.lzuInit_lzu_src (s : State) :
    (s.lzuInit).lzu.src = BitVec.ofNat 32 (s.seq.imgoff.toNat + 1) := rfl
@[simp] theorem State.lzuInit_frp (s : State) : (s.lzuInit).frp = s.frp := rfl
@[simp] theorem State.lzuInit_st (s : State) : (s.lzuInit).st = s.st := rfl
@[simp] theorem State.lzuInit_csr (s : State) : (s.lzuInit).csr = s.csr := rfl
@[simp] theorem State.lzuInit_mem (s : State) : (s.lzuInit).mem = s.mem := rfl
@[simp] theorem State.lzuInit_inputs (s : State) : (s.lzuInit).inputs = s.inputs := rfl
@[simp] theorem State.lzuInit_readback (s : State) : (s.lzuInit).readback = s.readback := rfl
@[simp] theorem State.lzuInit_draws (s : State) : (s.lzuInit).draws = s.draws := rfl
@[simp] theorem State.lzuInit_w (s : State) : (s.lzuInit).w = s.w := rfl
@[simp] theorem State.lzuInit_h (s : State) : (s.lzuInit).h = s.h := rfl
@[simp] theorem State.lzuInit_stride (s : State) : (s.lzuInit).stride = s.stride := rfl
@[simp] theorem State.lzuInit_plen (s : State) : (s.lzuInit).plen = s.plen := rfl
@[simp] theorem State.lzuInit_npix (s : State) : (s.lzuInit).npix = s.npix := rfl
@[simp] theorem State.lzuInit_opcount (s : State) : (s.lzuInit).opcount = s.opcount := rfl
@[simp] theorem State.lzuInit_lzcount (s : State) : (s.lzuInit).lzcount = s.lzcount := rfl
@[simp] theorem State.lzuInit_cur (s : State) : (s.lzuInit).cur = s.cur := rfl
@[simp] theorem State.lzuInit_prev (s : State) : (s.lzuInit).prev = s.prev := rfl
@[simp] theorem State.lzuInit_memAt (s : State) : (s.lzuInit).memAt = s.memAt := rfl
@[simp] theorem State.lzuInit_byte (s : State) : (s.lzuInit).byte = s.byte := rfl
@[simp] theorem State.lzuInit_size (s : State) : (s.lzuInit).size = s.size := rfl

/-! ### `frpInit` -/

@[simp] theorem State.frpInit_cfg (s : State) : (s.frpInit).cfg = s.cfg := rfl
@[simp] theorem State.frpInit_seq (s : State) : (s.frpInit).seq = s.seq := rfl
@[simp] theorem State.frpInit_osd (s : State) : (s.frpInit).osd = s.osd := rfl
@[simp] theorem State.frpInit_lzu (s : State) : (s.frpInit).lzu = s.lzu := rfl
@[simp] theorem State.frpInit_frp_x (s : State) : (s.frpInit).frp.x = 0 := rfl
@[simp] theorem State.frpInit_frp_y (s : State) : (s.frpInit).frp.y = 0 := rfl
@[simp] theorem State.frpInit_frp_rem (s : State) : (s.frpInit).frp.rem = BitVec.ofNat 32 s.npix := rfl
@[simp] theorem State.frpInit_frp_flag (s : State) : (s.frpInit).frp.flag = false := rfl
@[simp] theorem State.frpInit_frp_opc (s : State) : (s.frpInit).frp.opc = 0 := rfl
@[simp] theorem State.frpInit_frp_siz (s : State) : (s.frpInit).frp.siz = s.seq.sizoff.setWidth 32 := rfl
@[simp] theorem State.frpInit_frp_vec (s : State) : (s.frpInit).frp.vec = s.seq.vecoff.setWidth 32 := rfl
@[simp] theorem State.frpInit_frp_lit (s : State) : (s.frpInit).frp.lit = 0 := rfl
@[simp] theorem State.frpInit_st (s : State) : (s.frpInit).st = s.st := rfl
@[simp] theorem State.frpInit_csr (s : State) : (s.frpInit).csr = s.csr := rfl
@[simp] theorem State.frpInit_mem (s : State) : (s.frpInit).mem = s.mem := rfl
@[simp] theorem State.frpInit_inputs (s : State) : (s.frpInit).inputs = s.inputs := rfl
@[simp] theorem State.frpInit_readback (s : State) : (s.frpInit).readback = s.readback := rfl
@[simp] theorem State.frpInit_draws (s : State) : (s.frpInit).draws = s.draws := rfl
@[simp] theorem State.frpInit_w (s : State) : (s.frpInit).w = s.w := rfl
@[simp] theorem State.frpInit_h (s : State) : (s.frpInit).h = s.h := rfl
@[simp] theorem State.frpInit_stride (s : State) : (s.frpInit).stride = s.stride := rfl
@[simp] theorem State.frpInit_plen (s : State) : (s.frpInit).plen = s.plen := rfl
@[simp] theorem State.frpInit_npix (s : State) : (s.frpInit).npix = s.npix := rfl
@[simp] theorem State.frpInit_opcount (s : State) : (s.frpInit).opcount = s.opcount := rfl
@[simp] theorem State.frpInit_lzcount (s : State) : (s.frpInit).lzcount = s.lzcount := rfl
@[simp] theorem State.frpInit_cur (s : State) : (s.frpInit).cur = s.cur := rfl
@[simp] theorem State.frpInit_prev (s : State) : (s.frpInit).prev = s.prev := rfl
@[simp] theorem State.frpInit_memAt (s : State) : (s.frpInit).memAt = s.memAt := rfl
@[simp] theorem State.frpInit_byte (s : State) : (s.frpInit).byte = s.byte := rfl
@[simp] theorem State.frpInit_size (s : State) : (s.frpInit).size = s.size := rfl

/-! ### `startClear` -/

@[simp] theorem State.startClear_cfg (s : State) : (s.startClear).cfg = s.cfg := rfl
@[simp] theorem State.startClear_seq (s : State) : (s.startClear).seq = s.seq := rfl
@[simp] theorem State.startClear_osd (s : State) : (s.startClear).osd = s.osd := rfl
@[simp] theorem State.startClear_lzu (s : State) : (s.startClear).lzu = s.lzu := rfl
@[simp] theorem State.startClear_frp (s : State) : (s.startClear).frp = s.frp := rfl
@[simp] theorem State.startClear_st_done (s : State) : (s.startClear).st.done = false := rfl
@[simp] theorem State.startClear_st_fault (s : State) : (s.startClear).st.fault = false := rfl
@[simp] theorem State.startClear_st_prevValid (s : State) : (s.startClear).st.prevValid = s.st.prevValid := rfl
@[simp] theorem State.startClear_st_cursel (s : State) : (s.startClear).st.cursel = s.st.cursel := rfl
@[simp] theorem State.startClear_st_osdEnd (s : State) : (s.startClear).st.osdEnd = false := rfl
@[simp] theorem State.startClear_st_osdCap (s : State) : (s.startClear).st.osdCap = false := rfl
@[simp] theorem State.startClear_st_lzUsed (s : State) : (s.startClear).st.lzUsed = false := rfl
@[simp] theorem State.startClear_st_lzTerm (s : State) : (s.startClear).st.lzTerm = false := rfl
@[simp] theorem State.startClear_st_lzFull (s : State) : (s.startClear).st.lzFull = false := rfl
@[simp] theorem State.startClear_st_lzTrunc (s : State) : (s.startClear).st.lzTrunc = false := rfl
@[simp] theorem State.startClear_st_cause (s : State) : (s.startClear).st.cause = 0 := rfl
@[simp] theorem State.startClear_csr_width (s : State) : (s.startClear).csr.width = s.csr.width := rfl
@[simp] theorem State.startClear_csr_height (s : State) : (s.startClear).csr.height = s.csr.height := rfl
@[simp] theorem State.startClear_csr_stride (s : State) : (s.startClear).csr.stride = s.csr.stride := rfl
@[simp] theorem State.startClear_csr_plen (s : State) : (s.startClear).csr.plen = s.csr.plen := rfl
@[simp] theorem State.startClear_csr_faultinfo (s : State) : (s.startClear).csr.faultinfo = 0 := rfl
@[simp] theorem State.startClear_csr_opcount (s : State) : (s.startClear).csr.opcount = 0 := rfl
@[simp] theorem State.startClear_csr_lzcount (s : State) : (s.startClear).csr.lzcount = 0 := rfl
@[simp] theorem State.startClear_mem (s : State) : (s.startClear).mem = s.mem := rfl
@[simp] theorem State.startClear_inputs (s : State) : (s.startClear).inputs = s.inputs := rfl
@[simp] theorem State.startClear_readback (s : State) : (s.startClear).readback = s.readback := rfl
@[simp] theorem State.startClear_draws (s : State) : (s.startClear).draws = s.draws := rfl
@[simp] theorem State.startClear_w (s : State) : (s.startClear).w = s.w := rfl
@[simp] theorem State.startClear_h (s : State) : (s.startClear).h = s.h := rfl
@[simp] theorem State.startClear_stride (s : State) : (s.startClear).stride = s.stride := rfl
@[simp] theorem State.startClear_plen (s : State) : (s.startClear).plen = s.plen := rfl
@[simp] theorem State.startClear_npix (s : State) : (s.startClear).npix = s.npix := rfl
@[simp] theorem State.startClear_cur (s : State) : (s.startClear).cur = s.cur := rfl
@[simp] theorem State.startClear_prev (s : State) : (s.startClear).prev = s.prev := rfl
@[simp] theorem State.startClear_memAt (s : State) : (s.startClear).memAt = s.memAt := rfl
@[simp] theorem State.startClear_byte (s : State) : (s.startClear).byte = s.byte := rfl
@[simp] theorem State.startClear_size (s : State) : (s.startClear).size = s.size := rfl

/-! ### `freshCurrent` -/

@[simp] theorem State.freshCurrent_cfg (s : State) : (s.freshCurrent).cfg = s.cfg := rfl
@[simp] theorem State.freshCurrent_seq (s : State) : (s.freshCurrent).seq = s.seq := rfl
@[simp] theorem State.freshCurrent_osd (s : State) : (s.freshCurrent).osd = s.osd := rfl
@[simp] theorem State.freshCurrent_lzu (s : State) : (s.freshCurrent).lzu = s.lzu := rfl
@[simp] theorem State.freshCurrent_frp (s : State) : (s.freshCurrent).frp = s.frp := rfl
@[simp] theorem State.freshCurrent_st (s : State) : (s.freshCurrent).st = s.st := rfl
@[simp] theorem State.freshCurrent_csr (s : State) : (s.freshCurrent).csr = s.csr := rfl
@[simp] theorem State.freshCurrent_mem (s : State) :
    (s.freshCurrent).mem = s.mem.set s.cur (s.memAt s.cur).forget := rfl
@[simp] theorem State.freshCurrent_inputs (s : State) : (s.freshCurrent).inputs = s.inputs := rfl
@[simp] theorem State.freshCurrent_readback (s : State) : (s.freshCurrent).readback = s.readback := rfl
@[simp] theorem State.freshCurrent_draws (s : State) : (s.freshCurrent).draws = s.draws := rfl
@[simp] theorem State.freshCurrent_w (s : State) : (s.freshCurrent).w = s.w := rfl
@[simp] theorem State.freshCurrent_h (s : State) : (s.freshCurrent).h = s.h := rfl
@[simp] theorem State.freshCurrent_stride (s : State) : (s.freshCurrent).stride = s.stride := rfl
@[simp] theorem State.freshCurrent_plen (s : State) : (s.freshCurrent).plen = s.plen := rfl
@[simp] theorem State.freshCurrent_npix (s : State) : (s.freshCurrent).npix = s.npix := rfl
@[simp] theorem State.freshCurrent_opcount (s : State) : (s.freshCurrent).opcount = s.opcount := rfl
@[simp] theorem State.freshCurrent_lzcount (s : State) : (s.freshCurrent).lzcount = s.lzcount := rfl
@[simp] theorem State.freshCurrent_cur (s : State) : (s.freshCurrent).cur = s.cur := rfl
@[simp] theorem State.freshCurrent_prev (s : State) : (s.freshCurrent).prev = s.prev := rfl
@[simp] theorem State.freshCurrent_size (s : State) : (s.freshCurrent).size = s.size := rfl

/-! ### `headerLoad` -/

@[simp] theorem State.headerLoad_cfg (s : State) : (s.headerLoad).cfg = s.cfg := rfl
@[simp] theorem State.headerLoad_seq_phase (s : State) : (s.headerLoad).seq.phase = .osd := rfl
@[simp] theorem State.headerLoad_seq_unitDone (s : State) : (s.headerLoad).seq.unitDone = false := rfl
@[simp] theorem State.headerLoad_seq_huf (s : State) : (s.headerLoad).seq.huf = BitVec.ofNat 16 (s.hdrField 0) := rfl
@[simp] theorem State.headerLoad_seq_sizoff (s : State) :
    (s.headerLoad).seq.sizoff = BitVec.ofNat 16 (s.hdrField 1) := rfl
@[simp] theorem State.headerLoad_seq_vecoff (s : State) :
    (s.headerLoad).seq.vecoff = BitVec.ofNat 16 (s.hdrField 2) := rfl
@[simp] theorem State.headerLoad_seq_imgoff (s : State) :
    (s.headerLoad).seq.imgoff = BitVec.ofNat 16 (s.hdrField 3) := rfl
@[simp] theorem State.headerLoad_seq_litmode (s : State) : (s.headerLoad).seq.litmode = s.seq.litmode := rfl
@[simp] theorem State.headerLoad_seq_litbase (s : State) : (s.headerLoad).seq.litbase = s.seq.litbase := rfl
@[simp] theorem State.headerLoad_seq_litlen (s : State) : (s.headerLoad).seq.litlen = s.seq.litlen := rfl
@[simp] theorem State.headerLoad_osd (s : State) : (s.headerLoad).osd = s.osd := rfl
@[simp] theorem State.headerLoad_lzu (s : State) : (s.headerLoad).lzu = s.lzu := rfl
@[simp] theorem State.headerLoad_frp (s : State) : (s.headerLoad).frp = s.frp := rfl
@[simp] theorem State.headerLoad_st (s : State) : (s.headerLoad).st = s.st := rfl
@[simp] theorem State.headerLoad_csr (s : State) : (s.headerLoad).csr = s.csr := rfl
@[simp] theorem State.headerLoad_mem (s : State) : (s.headerLoad).mem = s.mem := rfl
@[simp] theorem State.headerLoad_inputs (s : State) : (s.headerLoad).inputs = s.inputs := rfl
@[simp] theorem State.headerLoad_readback (s : State) : (s.headerLoad).readback = s.readback := rfl
@[simp] theorem State.headerLoad_draws (s : State) : (s.headerLoad).draws = s.draws := rfl
@[simp] theorem State.headerLoad_w (s : State) : (s.headerLoad).w = s.w := rfl
@[simp] theorem State.headerLoad_h (s : State) : (s.headerLoad).h = s.h := rfl
@[simp] theorem State.headerLoad_stride (s : State) : (s.headerLoad).stride = s.stride := rfl
@[simp] theorem State.headerLoad_plen (s : State) : (s.headerLoad).plen = s.plen := rfl
@[simp] theorem State.headerLoad_npix (s : State) : (s.headerLoad).npix = s.npix := rfl
@[simp] theorem State.headerLoad_opcount (s : State) : (s.headerLoad).opcount = s.opcount := rfl
@[simp] theorem State.headerLoad_lzcount (s : State) : (s.headerLoad).lzcount = s.lzcount := rfl
@[simp] theorem State.headerLoad_cur (s : State) : (s.headerLoad).cur = s.cur := rfl
@[simp] theorem State.headerLoad_prev (s : State) : (s.headerLoad).prev = s.prev := rfl
@[simp] theorem State.headerLoad_memAt (s : State) : (s.headerLoad).memAt = s.memAt := rfl
@[simp] theorem State.headerLoad_byte (s : State) : (s.headerLoad).byte = s.byte := rfl
@[simp] theorem State.headerLoad_size (s : State) : (s.headerLoad).size = s.size := rfl

/-! ### `endUnit` -/

@[simp] theorem State.endUnit_cfg (s : State) : (s.endUnit).cfg = s.cfg := rfl
@[simp] theorem State.endUnit_seq_phase (s : State) : (s.endUnit).seq.phase = s.seq.phase := rfl
@[simp] theorem State.endUnit_seq_unitDone (s : State) : (s.endUnit).seq.unitDone = true := rfl
@[simp] theorem State.endUnit_seq_huf (s : State) : (s.endUnit).seq.huf = s.seq.huf := rfl
@[simp] theorem State.endUnit_seq_sizoff (s : State) : (s.endUnit).seq.sizoff = s.seq.sizoff := rfl
@[simp] theorem State.endUnit_seq_vecoff (s : State) : (s.endUnit).seq.vecoff = s.seq.vecoff := rfl
@[simp] theorem State.endUnit_seq_imgoff (s : State) : (s.endUnit).seq.imgoff = s.seq.imgoff := rfl
@[simp] theorem State.endUnit_seq_litmode (s : State) : (s.endUnit).seq.litmode = s.seq.litmode := rfl
@[simp] theorem State.endUnit_seq_litbase (s : State) : (s.endUnit).seq.litbase = s.seq.litbase := rfl
@[simp] theorem State.endUnit_seq_litlen (s : State) : (s.endUnit).seq.litlen = s.seq.litlen := rfl
@[simp] theorem State.endUnit_osd (s : State) : (s.endUnit).osd = s.osd := rfl
@[simp] theorem State.endUnit_lzu (s : State) : (s.endUnit).lzu = s.lzu := rfl
@[simp] theorem State.endUnit_frp (s : State) : (s.endUnit).frp = s.frp := rfl
@[simp] theorem State.endUnit_st (s : State) : (s.endUnit).st = s.st := rfl
@[simp] theorem State.endUnit_csr (s : State) : (s.endUnit).csr = s.csr := rfl
@[simp] theorem State.endUnit_mem (s : State) : (s.endUnit).mem = s.mem := rfl
@[simp] theorem State.endUnit_inputs (s : State) : (s.endUnit).inputs = s.inputs := rfl
@[simp] theorem State.endUnit_readback (s : State) : (s.endUnit).readback = s.readback := rfl
@[simp] theorem State.endUnit_draws (s : State) : (s.endUnit).draws = s.draws := rfl
@[simp] theorem State.endUnit_w (s : State) : (s.endUnit).w = s.w := rfl
@[simp] theorem State.endUnit_h (s : State) : (s.endUnit).h = s.h := rfl
@[simp] theorem State.endUnit_stride (s : State) : (s.endUnit).stride = s.stride := rfl
@[simp] theorem State.endUnit_plen (s : State) : (s.endUnit).plen = s.plen := rfl
@[simp] theorem State.endUnit_npix (s : State) : (s.endUnit).npix = s.npix := rfl
@[simp] theorem State.endUnit_opcount (s : State) : (s.endUnit).opcount = s.opcount := rfl
@[simp] theorem State.endUnit_lzcount (s : State) : (s.endUnit).lzcount = s.lzcount := rfl
@[simp] theorem State.endUnit_cur (s : State) : (s.endUnit).cur = s.cur := rfl
@[simp] theorem State.endUnit_prev (s : State) : (s.endUnit).prev = s.prev := rfl
@[simp] theorem State.endUnit_memAt (s : State) : (s.endUnit).memAt = s.memAt := rfl
@[simp] theorem State.endUnit_byte (s : State) : (s.endUnit).byte = s.byte := rfl
@[simp] theorem State.endUnit_size (s : State) : (s.endUnit).size = s.size := rfl

/-! ### `osdEndByMark` -/

@[simp] theorem State.osdEndByMark_cfg (s : State) : (s.osdEndByMark).cfg = s.cfg := rfl
@[simp] theorem State.osdEndByMark_seq_phase (s : State) : (s.osdEndByMark).seq.phase = s.seq.phase := rfl
@[simp] theorem State.osdEndByMark_seq_unitDone (s : State) : (s.osdEndByMark).seq.unitDone = true := rfl
@[simp] theorem State.osdEndByMark_seq_huf (s : State) : (s.osdEndByMark).seq.huf = s.seq.huf := rfl
@[simp] theorem State.osdEndByMark_seq_sizoff (s : State) : (s.osdEndByMark).seq.sizoff = s.seq.sizoff := rfl
@[simp] theorem State.osdEndByMark_seq_vecoff (s : State) : (s.osdEndByMark).seq.vecoff = s.seq.vecoff := rfl
@[simp] theorem State.osdEndByMark_seq_imgoff (s : State) : (s.osdEndByMark).seq.imgoff = s.seq.imgoff := rfl
@[simp] theorem State.osdEndByMark_seq_litmode (s : State) : (s.osdEndByMark).seq.litmode = s.seq.litmode := rfl
@[simp] theorem State.osdEndByMark_seq_litbase (s : State) : (s.osdEndByMark).seq.litbase = s.seq.litbase := rfl
@[simp] theorem State.osdEndByMark_seq_litlen (s : State) : (s.osdEndByMark).seq.litlen = s.seq.litlen := rfl
@[simp] theorem State.osdEndByMark_osd (s : State) : (s.osdEndByMark).osd = s.osd := rfl
@[simp] theorem State.osdEndByMark_lzu (s : State) : (s.osdEndByMark).lzu = s.lzu := rfl
@[simp] theorem State.osdEndByMark_frp (s : State) : (s.osdEndByMark).frp = s.frp := rfl
@[simp] theorem State.osdEndByMark_st_done (s : State) : (s.osdEndByMark).st.done = s.st.done := rfl
@[simp] theorem State.osdEndByMark_st_fault (s : State) : (s.osdEndByMark).st.fault = s.st.fault := rfl
@[simp] theorem State.osdEndByMark_st_prevValid (s : State) : (s.osdEndByMark).st.prevValid = s.st.prevValid := rfl
@[simp] theorem State.osdEndByMark_st_cursel (s : State) : (s.osdEndByMark).st.cursel = s.st.cursel := rfl
@[simp] theorem State.osdEndByMark_st_osdEnd (s : State) : (s.osdEndByMark).st.osdEnd = true := rfl
@[simp] theorem State.osdEndByMark_st_osdCap (s : State) : (s.osdEndByMark).st.osdCap = s.st.osdCap := rfl
@[simp] theorem State.osdEndByMark_st_lzUsed (s : State) : (s.osdEndByMark).st.lzUsed = s.st.lzUsed := rfl
@[simp] theorem State.osdEndByMark_st_lzTerm (s : State) : (s.osdEndByMark).st.lzTerm = s.st.lzTerm := rfl
@[simp] theorem State.osdEndByMark_st_lzFull (s : State) : (s.osdEndByMark).st.lzFull = s.st.lzFull := rfl
@[simp] theorem State.osdEndByMark_st_lzTrunc (s : State) : (s.osdEndByMark).st.lzTrunc = s.st.lzTrunc := rfl
@[simp] theorem State.osdEndByMark_st_cause (s : State) : (s.osdEndByMark).st.cause = s.st.cause := rfl
@[simp] theorem State.osdEndByMark_csr (s : State) : (s.osdEndByMark).csr = s.csr := rfl
@[simp] theorem State.osdEndByMark_mem (s : State) : (s.osdEndByMark).mem = s.mem := rfl
@[simp] theorem State.osdEndByMark_inputs (s : State) : (s.osdEndByMark).inputs = s.inputs := rfl
@[simp] theorem State.osdEndByMark_readback (s : State) : (s.osdEndByMark).readback = s.readback := rfl
@[simp] theorem State.osdEndByMark_draws (s : State) : (s.osdEndByMark).draws = s.draws := rfl
@[simp] theorem State.osdEndByMark_w (s : State) : (s.osdEndByMark).w = s.w := rfl
@[simp] theorem State.osdEndByMark_h (s : State) : (s.osdEndByMark).h = s.h := rfl
@[simp] theorem State.osdEndByMark_stride (s : State) : (s.osdEndByMark).stride = s.stride := rfl
@[simp] theorem State.osdEndByMark_plen (s : State) : (s.osdEndByMark).plen = s.plen := rfl
@[simp] theorem State.osdEndByMark_npix (s : State) : (s.osdEndByMark).npix = s.npix := rfl
@[simp] theorem State.osdEndByMark_opcount (s : State) : (s.osdEndByMark).opcount = s.opcount := rfl
@[simp] theorem State.osdEndByMark_lzcount (s : State) : (s.osdEndByMark).lzcount = s.lzcount := rfl
@[simp] theorem State.osdEndByMark_cur (s : State) : (s.osdEndByMark).cur = s.cur := rfl
@[simp] theorem State.osdEndByMark_prev (s : State) : (s.osdEndByMark).prev = s.prev := rfl
@[simp] theorem State.osdEndByMark_memAt (s : State) : (s.osdEndByMark).memAt = s.memAt := rfl
@[simp] theorem State.osdEndByMark_byte (s : State) : (s.osdEndByMark).byte = s.byte := rfl
@[simp] theorem State.osdEndByMark_size (s : State) : (s.osdEndByMark).size = s.size := rfl

/-! ### `osdEndByCap` -/

@[simp] theorem State.osdEndByCap_cfg (s : State) : (s.osdEndByCap).cfg = s.cfg := rfl
@[simp] theorem State.osdEndByCap_seq_phase (s : State) : (s.osdEndByCap).seq.phase = s.seq.phase := rfl
@[simp] theorem State.osdEndByCap_seq_unitDone (s : State) : (s.osdEndByCap).seq.unitDone = true := rfl
@[simp] theorem State.osdEndByCap_seq_huf (s : State) : (s.osdEndByCap).seq.huf = s.seq.huf := rfl
@[simp] theorem State.osdEndByCap_seq_sizoff (s : State) : (s.osdEndByCap).seq.sizoff = s.seq.sizoff := rfl
@[simp] theorem State.osdEndByCap_seq_vecoff (s : State) : (s.osdEndByCap).seq.vecoff = s.seq.vecoff := rfl
@[simp] theorem State.osdEndByCap_seq_imgoff (s : State) : (s.osdEndByCap).seq.imgoff = s.seq.imgoff := rfl
@[simp] theorem State.osdEndByCap_seq_litmode (s : State) : (s.osdEndByCap).seq.litmode = s.seq.litmode := rfl
@[simp] theorem State.osdEndByCap_seq_litbase (s : State) : (s.osdEndByCap).seq.litbase = s.seq.litbase := rfl
@[simp] theorem State.osdEndByCap_seq_litlen (s : State) : (s.osdEndByCap).seq.litlen = s.seq.litlen := rfl
@[simp] theorem State.osdEndByCap_osd (s : State) : (s.osdEndByCap).osd = s.osd := rfl
@[simp] theorem State.osdEndByCap_lzu (s : State) : (s.osdEndByCap).lzu = s.lzu := rfl
@[simp] theorem State.osdEndByCap_frp (s : State) : (s.osdEndByCap).frp = s.frp := rfl
@[simp] theorem State.osdEndByCap_st_done (s : State) : (s.osdEndByCap).st.done = s.st.done := rfl
@[simp] theorem State.osdEndByCap_st_fault (s : State) : (s.osdEndByCap).st.fault = s.st.fault := rfl
@[simp] theorem State.osdEndByCap_st_prevValid (s : State) : (s.osdEndByCap).st.prevValid = s.st.prevValid := rfl
@[simp] theorem State.osdEndByCap_st_cursel (s : State) : (s.osdEndByCap).st.cursel = s.st.cursel := rfl
@[simp] theorem State.osdEndByCap_st_osdEnd (s : State) : (s.osdEndByCap).st.osdEnd = s.st.osdEnd := rfl
@[simp] theorem State.osdEndByCap_st_osdCap (s : State) : (s.osdEndByCap).st.osdCap = true := rfl
@[simp] theorem State.osdEndByCap_st_lzUsed (s : State) : (s.osdEndByCap).st.lzUsed = s.st.lzUsed := rfl
@[simp] theorem State.osdEndByCap_st_lzTerm (s : State) : (s.osdEndByCap).st.lzTerm = s.st.lzTerm := rfl
@[simp] theorem State.osdEndByCap_st_lzFull (s : State) : (s.osdEndByCap).st.lzFull = s.st.lzFull := rfl
@[simp] theorem State.osdEndByCap_st_lzTrunc (s : State) : (s.osdEndByCap).st.lzTrunc = s.st.lzTrunc := rfl
@[simp] theorem State.osdEndByCap_st_cause (s : State) : (s.osdEndByCap).st.cause = s.st.cause := rfl
@[simp] theorem State.osdEndByCap_csr (s : State) : (s.osdEndByCap).csr = s.csr := rfl
@[simp] theorem State.osdEndByCap_mem (s : State) : (s.osdEndByCap).mem = s.mem := rfl
@[simp] theorem State.osdEndByCap_inputs (s : State) : (s.osdEndByCap).inputs = s.inputs := rfl
@[simp] theorem State.osdEndByCap_readback (s : State) : (s.osdEndByCap).readback = s.readback := rfl
@[simp] theorem State.osdEndByCap_draws (s : State) : (s.osdEndByCap).draws = s.draws := rfl
@[simp] theorem State.osdEndByCap_w (s : State) : (s.osdEndByCap).w = s.w := rfl
@[simp] theorem State.osdEndByCap_h (s : State) : (s.osdEndByCap).h = s.h := rfl
@[simp] theorem State.osdEndByCap_stride (s : State) : (s.osdEndByCap).stride = s.stride := rfl
@[simp] theorem State.osdEndByCap_plen (s : State) : (s.osdEndByCap).plen = s.plen := rfl
@[simp] theorem State.osdEndByCap_npix (s : State) : (s.osdEndByCap).npix = s.npix := rfl
@[simp] theorem State.osdEndByCap_opcount (s : State) : (s.osdEndByCap).opcount = s.opcount := rfl
@[simp] theorem State.osdEndByCap_lzcount (s : State) : (s.osdEndByCap).lzcount = s.lzcount := rfl
@[simp] theorem State.osdEndByCap_cur (s : State) : (s.osdEndByCap).cur = s.cur := rfl
@[simp] theorem State.osdEndByCap_prev (s : State) : (s.osdEndByCap).prev = s.prev := rfl
@[simp] theorem State.osdEndByCap_memAt (s : State) : (s.osdEndByCap).memAt = s.memAt := rfl
@[simp] theorem State.osdEndByCap_byte (s : State) : (s.osdEndByCap).byte = s.byte := rfl
@[simp] theorem State.osdEndByCap_size (s : State) : (s.osdEndByCap).size = s.size := rfl

/-! ### `lzEndFull` -/

@[simp] theorem State.lzEndFull_cfg (s : State) : (s.lzEndFull).cfg = s.cfg := rfl
@[simp] theorem State.lzEndFull_seq_phase (s : State) : (s.lzEndFull).seq.phase = s.seq.phase := rfl
@[simp] theorem State.lzEndFull_seq_unitDone (s : State) : (s.lzEndFull).seq.unitDone = true := rfl
@[simp] theorem State.lzEndFull_seq_huf (s : State) : (s.lzEndFull).seq.huf = s.seq.huf := rfl
@[simp] theorem State.lzEndFull_seq_sizoff (s : State) : (s.lzEndFull).seq.sizoff = s.seq.sizoff := rfl
@[simp] theorem State.lzEndFull_seq_vecoff (s : State) : (s.lzEndFull).seq.vecoff = s.seq.vecoff := rfl
@[simp] theorem State.lzEndFull_seq_imgoff (s : State) : (s.lzEndFull).seq.imgoff = s.seq.imgoff := rfl
@[simp] theorem State.lzEndFull_seq_litmode (s : State) : (s.lzEndFull).seq.litmode = s.seq.litmode := rfl
@[simp] theorem State.lzEndFull_seq_litbase (s : State) : (s.lzEndFull).seq.litbase = s.seq.litbase := rfl
@[simp] theorem State.lzEndFull_seq_litlen (s : State) : (s.lzEndFull).seq.litlen = s.seq.litlen := rfl
@[simp] theorem State.lzEndFull_osd (s : State) : (s.lzEndFull).osd = s.osd := rfl
@[simp] theorem State.lzEndFull_lzu (s : State) : (s.lzEndFull).lzu = s.lzu := rfl
@[simp] theorem State.lzEndFull_frp (s : State) : (s.lzEndFull).frp = s.frp := rfl
@[simp] theorem State.lzEndFull_st_done (s : State) : (s.lzEndFull).st.done = s.st.done := rfl
@[simp] theorem State.lzEndFull_st_fault (s : State) : (s.lzEndFull).st.fault = s.st.fault := rfl
@[simp] theorem State.lzEndFull_st_prevValid (s : State) : (s.lzEndFull).st.prevValid = s.st.prevValid := rfl
@[simp] theorem State.lzEndFull_st_cursel (s : State) : (s.lzEndFull).st.cursel = s.st.cursel := rfl
@[simp] theorem State.lzEndFull_st_osdEnd (s : State) : (s.lzEndFull).st.osdEnd = s.st.osdEnd := rfl
@[simp] theorem State.lzEndFull_st_osdCap (s : State) : (s.lzEndFull).st.osdCap = s.st.osdCap := rfl
@[simp] theorem State.lzEndFull_st_lzUsed (s : State) : (s.lzEndFull).st.lzUsed = s.st.lzUsed := rfl
@[simp] theorem State.lzEndFull_st_lzTerm (s : State) : (s.lzEndFull).st.lzTerm = s.st.lzTerm := rfl
@[simp] theorem State.lzEndFull_st_lzFull (s : State) : (s.lzEndFull).st.lzFull = true := rfl
@[simp] theorem State.lzEndFull_st_lzTrunc (s : State) : (s.lzEndFull).st.lzTrunc = s.st.lzTrunc := rfl
@[simp] theorem State.lzEndFull_st_cause (s : State) : (s.lzEndFull).st.cause = s.st.cause := rfl
@[simp] theorem State.lzEndFull_csr (s : State) : (s.lzEndFull).csr = s.csr := rfl
@[simp] theorem State.lzEndFull_mem (s : State) : (s.lzEndFull).mem = s.mem := rfl
@[simp] theorem State.lzEndFull_inputs (s : State) : (s.lzEndFull).inputs = s.inputs := rfl
@[simp] theorem State.lzEndFull_readback (s : State) : (s.lzEndFull).readback = s.readback := rfl
@[simp] theorem State.lzEndFull_draws (s : State) : (s.lzEndFull).draws = s.draws := rfl
@[simp] theorem State.lzEndFull_w (s : State) : (s.lzEndFull).w = s.w := rfl
@[simp] theorem State.lzEndFull_h (s : State) : (s.lzEndFull).h = s.h := rfl
@[simp] theorem State.lzEndFull_stride (s : State) : (s.lzEndFull).stride = s.stride := rfl
@[simp] theorem State.lzEndFull_plen (s : State) : (s.lzEndFull).plen = s.plen := rfl
@[simp] theorem State.lzEndFull_npix (s : State) : (s.lzEndFull).npix = s.npix := rfl
@[simp] theorem State.lzEndFull_opcount (s : State) : (s.lzEndFull).opcount = s.opcount := rfl
@[simp] theorem State.lzEndFull_lzcount (s : State) : (s.lzEndFull).lzcount = s.lzcount := rfl
@[simp] theorem State.lzEndFull_cur (s : State) : (s.lzEndFull).cur = s.cur := rfl
@[simp] theorem State.lzEndFull_prev (s : State) : (s.lzEndFull).prev = s.prev := rfl
@[simp] theorem State.lzEndFull_memAt (s : State) : (s.lzEndFull).memAt = s.memAt := rfl
@[simp] theorem State.lzEndFull_byte (s : State) : (s.lzEndFull).byte = s.byte := rfl
@[simp] theorem State.lzEndFull_size (s : State) : (s.lzEndFull).size = s.size := rfl

/-! ### `lzEndTerm` -/

@[simp] theorem State.lzEndTerm_cfg (s : State) : (s.lzEndTerm).cfg = s.cfg := rfl
@[simp] theorem State.lzEndTerm_seq_phase (s : State) : (s.lzEndTerm).seq.phase = s.seq.phase := rfl
@[simp] theorem State.lzEndTerm_seq_unitDone (s : State) : (s.lzEndTerm).seq.unitDone = true := rfl
@[simp] theorem State.lzEndTerm_seq_huf (s : State) : (s.lzEndTerm).seq.huf = s.seq.huf := rfl
@[simp] theorem State.lzEndTerm_seq_sizoff (s : State) : (s.lzEndTerm).seq.sizoff = s.seq.sizoff := rfl
@[simp] theorem State.lzEndTerm_seq_vecoff (s : State) : (s.lzEndTerm).seq.vecoff = s.seq.vecoff := rfl
@[simp] theorem State.lzEndTerm_seq_imgoff (s : State) : (s.lzEndTerm).seq.imgoff = s.seq.imgoff := rfl
@[simp] theorem State.lzEndTerm_seq_litmode (s : State) : (s.lzEndTerm).seq.litmode = s.seq.litmode := rfl
@[simp] theorem State.lzEndTerm_seq_litbase (s : State) : (s.lzEndTerm).seq.litbase = s.seq.litbase := rfl
@[simp] theorem State.lzEndTerm_seq_litlen (s : State) : (s.lzEndTerm).seq.litlen = s.seq.litlen := rfl
@[simp] theorem State.lzEndTerm_osd (s : State) : (s.lzEndTerm).osd = s.osd := rfl
@[simp] theorem State.lzEndTerm_lzu (s : State) : (s.lzEndTerm).lzu = s.lzu := rfl
@[simp] theorem State.lzEndTerm_frp (s : State) : (s.lzEndTerm).frp = s.frp := rfl
@[simp] theorem State.lzEndTerm_st_done (s : State) : (s.lzEndTerm).st.done = s.st.done := rfl
@[simp] theorem State.lzEndTerm_st_fault (s : State) : (s.lzEndTerm).st.fault = s.st.fault := rfl
@[simp] theorem State.lzEndTerm_st_prevValid (s : State) : (s.lzEndTerm).st.prevValid = s.st.prevValid := rfl
@[simp] theorem State.lzEndTerm_st_cursel (s : State) : (s.lzEndTerm).st.cursel = s.st.cursel := rfl
@[simp] theorem State.lzEndTerm_st_osdEnd (s : State) : (s.lzEndTerm).st.osdEnd = s.st.osdEnd := rfl
@[simp] theorem State.lzEndTerm_st_osdCap (s : State) : (s.lzEndTerm).st.osdCap = s.st.osdCap := rfl
@[simp] theorem State.lzEndTerm_st_lzUsed (s : State) : (s.lzEndTerm).st.lzUsed = s.st.lzUsed := rfl
@[simp] theorem State.lzEndTerm_st_lzTerm (s : State) : (s.lzEndTerm).st.lzTerm = true := rfl
@[simp] theorem State.lzEndTerm_st_lzFull (s : State) : (s.lzEndTerm).st.lzFull = s.st.lzFull := rfl
@[simp] theorem State.lzEndTerm_st_lzTrunc (s : State) : (s.lzEndTerm).st.lzTrunc = s.st.lzTrunc := rfl
@[simp] theorem State.lzEndTerm_st_cause (s : State) : (s.lzEndTerm).st.cause = s.st.cause := rfl
@[simp] theorem State.lzEndTerm_csr (s : State) : (s.lzEndTerm).csr = s.csr := rfl
@[simp] theorem State.lzEndTerm_mem (s : State) : (s.lzEndTerm).mem = s.mem := rfl
@[simp] theorem State.lzEndTerm_inputs (s : State) : (s.lzEndTerm).inputs = s.inputs := rfl
@[simp] theorem State.lzEndTerm_readback (s : State) : (s.lzEndTerm).readback = s.readback := rfl
@[simp] theorem State.lzEndTerm_draws (s : State) : (s.lzEndTerm).draws = s.draws := rfl
@[simp] theorem State.lzEndTerm_w (s : State) : (s.lzEndTerm).w = s.w := rfl
@[simp] theorem State.lzEndTerm_h (s : State) : (s.lzEndTerm).h = s.h := rfl
@[simp] theorem State.lzEndTerm_stride (s : State) : (s.lzEndTerm).stride = s.stride := rfl
@[simp] theorem State.lzEndTerm_plen (s : State) : (s.lzEndTerm).plen = s.plen := rfl
@[simp] theorem State.lzEndTerm_npix (s : State) : (s.lzEndTerm).npix = s.npix := rfl
@[simp] theorem State.lzEndTerm_opcount (s : State) : (s.lzEndTerm).opcount = s.opcount := rfl
@[simp] theorem State.lzEndTerm_lzcount (s : State) : (s.lzEndTerm).lzcount = s.lzcount := rfl
@[simp] theorem State.lzEndTerm_cur (s : State) : (s.lzEndTerm).cur = s.cur := rfl
@[simp] theorem State.lzEndTerm_prev (s : State) : (s.lzEndTerm).prev = s.prev := rfl
@[simp] theorem State.lzEndTerm_memAt (s : State) : (s.lzEndTerm).memAt = s.memAt := rfl
@[simp] theorem State.lzEndTerm_byte (s : State) : (s.lzEndTerm).byte = s.byte := rfl
@[simp] theorem State.lzEndTerm_size (s : State) : (s.lzEndTerm).size = s.size := rfl

/-! ### `lzEndTrunc` -/

@[simp] theorem State.lzEndTrunc_cfg (s : State) : (s.lzEndTrunc).cfg = s.cfg := rfl
@[simp] theorem State.lzEndTrunc_seq_phase (s : State) : (s.lzEndTrunc).seq.phase = s.seq.phase := rfl
@[simp] theorem State.lzEndTrunc_seq_unitDone (s : State) : (s.lzEndTrunc).seq.unitDone = true := rfl
@[simp] theorem State.lzEndTrunc_seq_huf (s : State) : (s.lzEndTrunc).seq.huf = s.seq.huf := rfl
@[simp] theorem State.lzEndTrunc_seq_sizoff (s : State) : (s.lzEndTrunc).seq.sizoff = s.seq.sizoff := rfl
@[simp] theorem State.lzEndTrunc_seq_vecoff (s : State) : (s.lzEndTrunc).seq.vecoff = s.seq.vecoff := rfl
@[simp] theorem State.lzEndTrunc_seq_imgoff (s : State) : (s.lzEndTrunc).seq.imgoff = s.seq.imgoff := rfl
@[simp] theorem State.lzEndTrunc_seq_litmode (s : State) : (s.lzEndTrunc).seq.litmode = s.seq.litmode := rfl
@[simp] theorem State.lzEndTrunc_seq_litbase (s : State) : (s.lzEndTrunc).seq.litbase = s.seq.litbase := rfl
@[simp] theorem State.lzEndTrunc_seq_litlen (s : State) : (s.lzEndTrunc).seq.litlen = s.seq.litlen := rfl
@[simp] theorem State.lzEndTrunc_osd (s : State) : (s.lzEndTrunc).osd = s.osd := rfl
@[simp] theorem State.lzEndTrunc_lzu (s : State) : (s.lzEndTrunc).lzu = s.lzu := rfl
@[simp] theorem State.lzEndTrunc_frp (s : State) : (s.lzEndTrunc).frp = s.frp := rfl
@[simp] theorem State.lzEndTrunc_st_done (s : State) : (s.lzEndTrunc).st.done = s.st.done := rfl
@[simp] theorem State.lzEndTrunc_st_fault (s : State) : (s.lzEndTrunc).st.fault = s.st.fault := rfl
@[simp] theorem State.lzEndTrunc_st_prevValid (s : State) : (s.lzEndTrunc).st.prevValid = s.st.prevValid := rfl
@[simp] theorem State.lzEndTrunc_st_cursel (s : State) : (s.lzEndTrunc).st.cursel = s.st.cursel := rfl
@[simp] theorem State.lzEndTrunc_st_osdEnd (s : State) : (s.lzEndTrunc).st.osdEnd = s.st.osdEnd := rfl
@[simp] theorem State.lzEndTrunc_st_osdCap (s : State) : (s.lzEndTrunc).st.osdCap = s.st.osdCap := rfl
@[simp] theorem State.lzEndTrunc_st_lzUsed (s : State) : (s.lzEndTrunc).st.lzUsed = s.st.lzUsed := rfl
@[simp] theorem State.lzEndTrunc_st_lzTerm (s : State) : (s.lzEndTrunc).st.lzTerm = s.st.lzTerm := rfl
@[simp] theorem State.lzEndTrunc_st_lzFull (s : State) : (s.lzEndTrunc).st.lzFull = s.st.lzFull := rfl
@[simp] theorem State.lzEndTrunc_st_lzTrunc (s : State) : (s.lzEndTrunc).st.lzTrunc = true := rfl
@[simp] theorem State.lzEndTrunc_st_cause (s : State) : (s.lzEndTrunc).st.cause = s.st.cause := rfl
@[simp] theorem State.lzEndTrunc_csr (s : State) : (s.lzEndTrunc).csr = s.csr := rfl
@[simp] theorem State.lzEndTrunc_mem (s : State) : (s.lzEndTrunc).mem = s.mem := rfl
@[simp] theorem State.lzEndTrunc_inputs (s : State) : (s.lzEndTrunc).inputs = s.inputs := rfl
@[simp] theorem State.lzEndTrunc_readback (s : State) : (s.lzEndTrunc).readback = s.readback := rfl
@[simp] theorem State.lzEndTrunc_draws (s : State) : (s.lzEndTrunc).draws = s.draws := rfl
@[simp] theorem State.lzEndTrunc_w (s : State) : (s.lzEndTrunc).w = s.w := rfl
@[simp] theorem State.lzEndTrunc_h (s : State) : (s.lzEndTrunc).h = s.h := rfl
@[simp] theorem State.lzEndTrunc_stride (s : State) : (s.lzEndTrunc).stride = s.stride := rfl
@[simp] theorem State.lzEndTrunc_plen (s : State) : (s.lzEndTrunc).plen = s.plen := rfl
@[simp] theorem State.lzEndTrunc_npix (s : State) : (s.lzEndTrunc).npix = s.npix := rfl
@[simp] theorem State.lzEndTrunc_opcount (s : State) : (s.lzEndTrunc).opcount = s.opcount := rfl
@[simp] theorem State.lzEndTrunc_lzcount (s : State) : (s.lzEndTrunc).lzcount = s.lzcount := rfl
@[simp] theorem State.lzEndTrunc_cur (s : State) : (s.lzEndTrunc).cur = s.cur := rfl
@[simp] theorem State.lzEndTrunc_prev (s : State) : (s.lzEndTrunc).prev = s.prev := rfl
@[simp] theorem State.lzEndTrunc_memAt (s : State) : (s.lzEndTrunc).memAt = s.memAt := rfl
@[simp] theorem State.lzEndTrunc_byte (s : State) : (s.lzEndTrunc).byte = s.byte := rfl
@[simp] theorem State.lzEndTrunc_size (s : State) : (s.lzEndTrunc).size = s.size := rfl

/-! ### `literalSource` -/

@[simp] theorem State.literalSource_cfg (s : State) : (s.literalSource).cfg = s.cfg := rfl
@[simp] theorem State.literalSource_seq_phase (s : State) : (s.literalSource).seq.phase = .frp := rfl
@[simp] theorem State.literalSource_seq_unitDone (s : State) : (s.literalSource).seq.unitDone = false := rfl
@[simp] theorem State.literalSource_seq_huf (s : State) : (s.literalSource).seq.huf = s.seq.huf := rfl
@[simp] theorem State.literalSource_seq_sizoff (s : State) : (s.literalSource).seq.sizoff = s.seq.sizoff := rfl
@[simp] theorem State.literalSource_seq_vecoff (s : State) : (s.literalSource).seq.vecoff = s.seq.vecoff := rfl
@[simp] theorem State.literalSource_seq_imgoff (s : State) : (s.literalSource).seq.imgoff = s.seq.imgoff := rfl
@[simp] theorem State.literalSource_seq_litmode (s : State) : (s.literalSource).seq.litmode = s.seq.litmode := rfl
@[simp] theorem State.literalSource_seq_litbase (s : State) :
    (s.literalSource).seq.litbase = (if s.seq.litmode then 0 else BitVec.ofNat 32 (s.seq.imgoff.toNat + 1)) := rfl
@[simp] theorem State.literalSource_seq_litlen (s : State) :
    (s.literalSource).seq.litlen = (if s.seq.litmode then s.csr.lzcount else BitVec.ofNat 32 (s.plen - s.seq.imgoff.toNat - 1)) := rfl
@[simp] theorem State.literalSource_osd (s : State) : (s.literalSource).osd = s.osd := rfl
@[simp] theorem State.literalSource_lzu (s : State) : (s.literalSource).lzu = s.lzu := rfl
@[simp] theorem State.literalSource_frp_x (s : State) : (s.literalSource).frp.x = 0 := rfl
@[simp] theorem State.literalSource_frp_y (s : State) : (s.literalSource).frp.y = 0 := rfl
@[simp] theorem State.literalSource_frp_rem (s : State) : (s.literalSource).frp.rem = BitVec.ofNat 32 s.npix := rfl
@[simp] theorem State.literalSource_frp_flag (s : State) : (s.literalSource).frp.flag = false := rfl
@[simp] theorem State.literalSource_frp_opc (s : State) : (s.literalSource).frp.opc = 0 := rfl
@[simp] theorem State.literalSource_frp_siz (s : State) : (s.literalSource).frp.siz = s.seq.sizoff.setWidth 32 := rfl
@[simp] theorem State.literalSource_frp_vec (s : State) : (s.literalSource).frp.vec = s.seq.vecoff.setWidth 32 := rfl
@[simp] theorem State.literalSource_frp_lit (s : State) : (s.literalSource).frp.lit = 0 := rfl
@[simp] theorem State.literalSource_st (s : State) : (s.literalSource).st = s.st := rfl
@[simp] theorem State.literalSource_csr (s : State) : (s.literalSource).csr = s.csr := rfl
@[simp] theorem State.literalSource_mem (s : State) : (s.literalSource).mem = s.mem := rfl
@[simp] theorem State.literalSource_inputs (s : State) : (s.literalSource).inputs = s.inputs := rfl
@[simp] theorem State.literalSource_readback (s : State) : (s.literalSource).readback = s.readback := rfl
@[simp] theorem State.literalSource_draws (s : State) : (s.literalSource).draws = s.draws := rfl
@[simp] theorem State.literalSource_w (s : State) : (s.literalSource).w = s.w := rfl
@[simp] theorem State.literalSource_h (s : State) : (s.literalSource).h = s.h := rfl
@[simp] theorem State.literalSource_stride (s : State) : (s.literalSource).stride = s.stride := rfl
@[simp] theorem State.literalSource_plen (s : State) : (s.literalSource).plen = s.plen := rfl
@[simp] theorem State.literalSource_npix (s : State) : (s.literalSource).npix = s.npix := rfl
@[simp] theorem State.literalSource_opcount (s : State) : (s.literalSource).opcount = s.opcount := rfl
@[simp] theorem State.literalSource_lzcount (s : State) : (s.literalSource).lzcount = s.lzcount := rfl
@[simp] theorem State.literalSource_cur (s : State) : (s.literalSource).cur = s.cur := rfl
@[simp] theorem State.literalSource_prev (s : State) : (s.literalSource).prev = s.prev := rfl
@[simp] theorem State.literalSource_memAt (s : State) : (s.literalSource).memAt = s.memAt := rfl
@[simp] theorem State.literalSource_byte (s : State) : (s.literalSource).byte = s.byte := rfl
@[simp] theorem State.literalSource_size (s : State) : (s.literalSource).size = s.size := rfl

/-! ### `complete` -/

@[simp] theorem State.complete_cfg (s : State) : (s.complete).cfg = s.cfg := rfl
@[simp] theorem State.complete_seq_phase (s : State) : (s.complete).seq.phase = .idle := rfl
@[simp] theorem State.complete_seq_unitDone (s : State) : (s.complete).seq.unitDone = s.seq.unitDone := rfl
@[simp] theorem State.complete_seq_huf (s : State) : (s.complete).seq.huf = s.seq.huf := rfl
@[simp] theorem State.complete_seq_sizoff (s : State) : (s.complete).seq.sizoff = s.seq.sizoff := rfl
@[simp] theorem State.complete_seq_vecoff (s : State) : (s.complete).seq.vecoff = s.seq.vecoff := rfl
@[simp] theorem State.complete_seq_imgoff (s : State) : (s.complete).seq.imgoff = s.seq.imgoff := rfl
@[simp] theorem State.complete_seq_litmode (s : State) : (s.complete).seq.litmode = s.seq.litmode := rfl
@[simp] theorem State.complete_seq_litbase (s : State) : (s.complete).seq.litbase = s.seq.litbase := rfl
@[simp] theorem State.complete_seq_litlen (s : State) : (s.complete).seq.litlen = s.seq.litlen := rfl
@[simp] theorem State.complete_osd (s : State) : (s.complete).osd = s.osd := rfl
@[simp] theorem State.complete_lzu (s : State) : (s.complete).lzu = s.lzu := rfl
@[simp] theorem State.complete_frp (s : State) : (s.complete).frp = s.frp := rfl
@[simp] theorem State.complete_st_done (s : State) : (s.complete).st.done = true := rfl
@[simp] theorem State.complete_st_fault (s : State) : (s.complete).st.fault = s.st.fault := rfl
@[simp] theorem State.complete_st_prevValid (s : State) : (s.complete).st.prevValid = true := rfl
@[simp] theorem State.complete_st_cursel (s : State) : (s.complete).st.cursel = !s.st.cursel := rfl
@[simp] theorem State.complete_st_osdEnd (s : State) : (s.complete).st.osdEnd = s.st.osdEnd := rfl
@[simp] theorem State.complete_st_osdCap (s : State) : (s.complete).st.osdCap = s.st.osdCap := rfl
@[simp] theorem State.complete_st_lzUsed (s : State) : (s.complete).st.lzUsed = s.st.lzUsed := rfl
@[simp] theorem State.complete_st_lzTerm (s : State) : (s.complete).st.lzTerm = s.st.lzTerm := rfl
@[simp] theorem State.complete_st_lzFull (s : State) : (s.complete).st.lzFull = s.st.lzFull := rfl
@[simp] theorem State.complete_st_lzTrunc (s : State) : (s.complete).st.lzTrunc = s.st.lzTrunc := rfl
@[simp] theorem State.complete_st_cause (s : State) : (s.complete).st.cause = s.st.cause := rfl
@[simp] theorem State.complete_csr (s : State) : (s.complete).csr = s.csr := rfl
@[simp] theorem State.complete_mem (s : State) : (s.complete).mem = s.mem := rfl
@[simp] theorem State.complete_inputs (s : State) : (s.complete).inputs = s.inputs := rfl
@[simp] theorem State.complete_readback (s : State) : (s.complete).readback = s.readback := rfl
@[simp] theorem State.complete_draws (s : State) : (s.complete).draws = s.draws := rfl
@[simp] theorem State.complete_w (s : State) : (s.complete).w = s.w := rfl
@[simp] theorem State.complete_h (s : State) : (s.complete).h = s.h := rfl
@[simp] theorem State.complete_stride (s : State) : (s.complete).stride = s.stride := rfl
@[simp] theorem State.complete_plen (s : State) : (s.complete).plen = s.plen := rfl
@[simp] theorem State.complete_npix (s : State) : (s.complete).npix = s.npix := rfl
@[simp] theorem State.complete_opcount (s : State) : (s.complete).opcount = s.opcount := rfl
@[simp] theorem State.complete_lzcount (s : State) : (s.complete).lzcount = s.lzcount := rfl
@[simp] theorem State.complete_memAt (s : State) : (s.complete).memAt = s.memAt := rfl
@[simp] theorem State.complete_byte (s : State) : (s.complete).byte = s.byte := rfl
@[simp] theorem State.complete_size (s : State) : (s.complete).size = s.size := rfl

/-! ### `paint` -/

@[simp] theorem State.paint_cfg (s : State) (sp : Space) (src : List Nat) (n : Nat) :
    (s.paint sp src n).cfg = s.cfg := rfl
@[simp] theorem State.paint_seq (s : State) (sp : Space) (src : List Nat) (n : Nat) :
    (s.paint sp src n).seq = s.seq := rfl
@[simp] theorem State.paint_osd (s : State) (sp : Space) (src : List Nat) (n : Nat) :
    (s.paint sp src n).osd = s.osd := rfl
@[simp] theorem State.paint_lzu (s : State) (sp : Space) (src : List Nat) (n : Nat) :
    (s.paint sp src n).lzu = s.lzu := rfl
@[simp] theorem State.paint_frp (s : State) (sp : Space) (src : List Nat) (n : Nat) :
    (s.paint sp src n).frp = s.frp := rfl
@[simp] theorem State.paint_st (s : State) (sp : Space) (src : List Nat) (n : Nat) :
    (s.paint sp src n).st = s.st := rfl
@[simp] theorem State.paint_csr (s : State) (sp : Space) (src : List Nat) (n : Nat) :
    (s.paint sp src n).csr = s.csr := rfl
@[simp] theorem State.paint_mem (s : State) (sp : Space) (src : List Nat) (n : Nat) :
    (s.paint sp src n).mem = s.mem.set s.cur (Mem.writeAll ((s.runAddrs n).zip (src.map (s.byte sp))) (s.memAt s.cur)) := rfl
@[simp] theorem State.paint_inputs (s : State) (sp : Space) (src : List Nat) (n : Nat) :
    (s.paint sp src n).inputs = s.inputs := rfl
@[simp] theorem State.paint_readback (s : State) (sp : Space) (src : List Nat) (n : Nat) :
    (s.paint sp src n).readback = s.readback := rfl
@[simp] theorem State.paint_draws (s : State) (sp : Space) (src : List Nat) (n : Nat) :
    (s.paint sp src n).draws = s.draws := rfl
@[simp] theorem State.paint_w (s : State) (sp : Space) (src : List Nat) (n : Nat) : (s.paint sp src n).w = s.w := rfl
@[simp] theorem State.paint_h (s : State) (sp : Space) (src : List Nat) (n : Nat) : (s.paint sp src n).h = s.h := rfl
@[simp] theorem State.paint_stride (s : State) (sp : Space) (src : List Nat) (n : Nat) :
    (s.paint sp src n).stride = s.stride := rfl
@[simp] theorem State.paint_plen (s : State) (sp : Space) (src : List Nat) (n : Nat) :
    (s.paint sp src n).plen = s.plen := rfl
@[simp] theorem State.paint_npix (s : State) (sp : Space) (src : List Nat) (n : Nat) :
    (s.paint sp src n).npix = s.npix := rfl
@[simp] theorem State.paint_opcount (s : State) (sp : Space) (src : List Nat) (n : Nat) :
    (s.paint sp src n).opcount = s.opcount := rfl
@[simp] theorem State.paint_lzcount (s : State) (sp : Space) (src : List Nat) (n : Nat) :
    (s.paint sp src n).lzcount = s.lzcount := rfl
@[simp] theorem State.paint_cur (s : State) (sp : Space) (src : List Nat) (n : Nat) :
    (s.paint sp src n).cur = s.cur := rfl
@[simp] theorem State.paint_prev (s : State) (sp : Space) (src : List Nat) (n : Nat) :
    (s.paint sp src n).prev = s.prev := rfl
@[simp] theorem State.paint_size (s : State) (sp : Space) (src : List Nat) (n : Nat) :
    (s.paint sp src n).size = s.size := rfl

/-! ### `endRun` -/

@[simp] theorem State.endRun_cfg (s : State) (size szBytes : Nat) (flag : Bool) :
    (s.endRun size szBytes flag).cfg = s.cfg := rfl
@[simp] theorem State.endRun_seq (s : State) (size szBytes : Nat) (flag : Bool) :
    (s.endRun size szBytes flag).seq = s.seq := rfl
@[simp] theorem State.endRun_osd (s : State) (size szBytes : Nat) (flag : Bool) :
    (s.endRun size szBytes flag).osd = s.osd := rfl
@[simp] theorem State.endRun_lzu (s : State) (size szBytes : Nat) (flag : Bool) :
    (s.endRun size szBytes flag).lzu = s.lzu := rfl
@[simp] theorem State.endRun_frp_x (s : State) (size szBytes : Nat) (flag : Bool) :
    (s.endRun size szBytes flag).frp.x = BitVec.ofNat 16 ((s.frp.x.toNat + size) % s.w) := rfl
@[simp] theorem State.endRun_frp_y (s : State) (size szBytes : Nat) (flag : Bool) :
    (s.endRun size szBytes flag).frp.y = BitVec.ofNat 16 (s.frp.y.toNat + (s.frp.x.toNat + size) / s.w) := rfl
@[simp] theorem State.endRun_frp_rem (s : State) (size szBytes : Nat) (flag : Bool) :
    (s.endRun size szBytes flag).frp.rem = BitVec.ofNat 32 (s.frp.rem.toNat - size) := rfl
@[simp] theorem State.endRun_frp_flag (s : State) (size szBytes : Nat) (flag : Bool) :
    (s.endRun size szBytes flag).frp.flag = flag := rfl
@[simp] theorem State.endRun_frp_opc (s : State) (size szBytes : Nat) (flag : Bool) :
    (s.endRun size szBytes flag).frp.opc = BitVec.ofNat 32 (s.frp.opc.toNat + 1) := rfl
@[simp] theorem State.endRun_frp_siz (s : State) (size szBytes : Nat) (flag : Bool) :
    (s.endRun size szBytes flag).frp.siz = BitVec.ofNat 32 (s.frp.siz.toNat + szBytes) := rfl
@[simp] theorem State.endRun_frp_vec (s : State) (size szBytes : Nat) (flag : Bool) :
    (s.endRun size szBytes flag).frp.vec = s.frp.vec := rfl
@[simp] theorem State.endRun_frp_lit (s : State) (size szBytes : Nat) (flag : Bool) :
    (s.endRun size szBytes flag).frp.lit = s.frp.lit := rfl
@[simp] theorem State.endRun_st (s : State) (size szBytes : Nat) (flag : Bool) :
    (s.endRun size szBytes flag).st = s.st := rfl
@[simp] theorem State.endRun_csr (s : State) (size szBytes : Nat) (flag : Bool) :
    (s.endRun size szBytes flag).csr = s.csr := rfl
@[simp] theorem State.endRun_mem (s : State) (size szBytes : Nat) (flag : Bool) :
    (s.endRun size szBytes flag).mem = s.mem := rfl
@[simp] theorem State.endRun_inputs (s : State) (size szBytes : Nat) (flag : Bool) :
    (s.endRun size szBytes flag).inputs = s.inputs := rfl
@[simp] theorem State.endRun_readback (s : State) (size szBytes : Nat) (flag : Bool) :
    (s.endRun size szBytes flag).readback = s.readback := rfl
@[simp] theorem State.endRun_draws (s : State) (size szBytes : Nat) (flag : Bool) :
    (s.endRun size szBytes flag).draws = s.draws := rfl
@[simp] theorem State.endRun_w (s : State) (size szBytes : Nat) (flag : Bool) :
    (s.endRun size szBytes flag).w = s.w := rfl
@[simp] theorem State.endRun_h (s : State) (size szBytes : Nat) (flag : Bool) :
    (s.endRun size szBytes flag).h = s.h := rfl
@[simp] theorem State.endRun_stride (s : State) (size szBytes : Nat) (flag : Bool) :
    (s.endRun size szBytes flag).stride = s.stride := rfl
@[simp] theorem State.endRun_plen (s : State) (size szBytes : Nat) (flag : Bool) :
    (s.endRun size szBytes flag).plen = s.plen := rfl
@[simp] theorem State.endRun_npix (s : State) (size szBytes : Nat) (flag : Bool) :
    (s.endRun size szBytes flag).npix = s.npix := rfl
@[simp] theorem State.endRun_opcount (s : State) (size szBytes : Nat) (flag : Bool) :
    (s.endRun size szBytes flag).opcount = s.opcount := rfl
@[simp] theorem State.endRun_lzcount (s : State) (size szBytes : Nat) (flag : Bool) :
    (s.endRun size szBytes flag).lzcount = s.lzcount := rfl
@[simp] theorem State.endRun_cur (s : State) (size szBytes : Nat) (flag : Bool) :
    (s.endRun size szBytes flag).cur = s.cur := rfl
@[simp] theorem State.endRun_prev (s : State) (size szBytes : Nat) (flag : Bool) :
    (s.endRun size szBytes flag).prev = s.prev := rfl
@[simp] theorem State.endRun_memAt (s : State) (size szBytes : Nat) (flag : Bool) :
    (s.endRun size szBytes flag).memAt = s.memAt := rfl
@[simp] theorem State.endRun_byte (s : State) (size szBytes : Nat) (flag : Bool) :
    (s.endRun size szBytes flag).byte = s.byte := rfl
@[simp] theorem State.endRun_size (s : State) (size szBytes : Nat) (flag : Bool) :
    (s.endRun size szBytes flag).size = s.size := rfl

/-! ### `takeLit` -/

@[simp] theorem State.takeLit_cfg (s : State) (n : Nat) : (s.takeLit n).cfg = s.cfg := rfl
@[simp] theorem State.takeLit_seq (s : State) (n : Nat) : (s.takeLit n).seq = s.seq := rfl
@[simp] theorem State.takeLit_osd (s : State) (n : Nat) : (s.takeLit n).osd = s.osd := rfl
@[simp] theorem State.takeLit_lzu (s : State) (n : Nat) : (s.takeLit n).lzu = s.lzu := rfl
@[simp] theorem State.takeLit_frp_x (s : State) (n : Nat) : (s.takeLit n).frp.x = s.frp.x := rfl
@[simp] theorem State.takeLit_frp_y (s : State) (n : Nat) : (s.takeLit n).frp.y = s.frp.y := rfl
@[simp] theorem State.takeLit_frp_rem (s : State) (n : Nat) : (s.takeLit n).frp.rem = s.frp.rem := rfl
@[simp] theorem State.takeLit_frp_flag (s : State) (n : Nat) : (s.takeLit n).frp.flag = s.frp.flag := rfl
@[simp] theorem State.takeLit_frp_opc (s : State) (n : Nat) : (s.takeLit n).frp.opc = s.frp.opc := rfl
@[simp] theorem State.takeLit_frp_siz (s : State) (n : Nat) : (s.takeLit n).frp.siz = s.frp.siz := rfl
@[simp] theorem State.takeLit_frp_vec (s : State) (n : Nat) : (s.takeLit n).frp.vec = s.frp.vec := rfl
@[simp] theorem State.takeLit_frp_lit (s : State) (n : Nat) :
    (s.takeLit n).frp.lit = BitVec.ofNat 32 (s.frp.lit.toNat + n) := rfl
@[simp] theorem State.takeLit_st (s : State) (n : Nat) : (s.takeLit n).st = s.st := rfl
@[simp] theorem State.takeLit_csr (s : State) (n : Nat) : (s.takeLit n).csr = s.csr := rfl
@[simp] theorem State.takeLit_mem (s : State) (n : Nat) : (s.takeLit n).mem = s.mem := rfl
@[simp] theorem State.takeLit_inputs (s : State) (n : Nat) : (s.takeLit n).inputs = s.inputs := rfl
@[simp] theorem State.takeLit_readback (s : State) (n : Nat) : (s.takeLit n).readback = s.readback := rfl
@[simp] theorem State.takeLit_draws (s : State) (n : Nat) : (s.takeLit n).draws = s.draws := rfl
@[simp] theorem State.takeLit_w (s : State) (n : Nat) : (s.takeLit n).w = s.w := rfl
@[simp] theorem State.takeLit_h (s : State) (n : Nat) : (s.takeLit n).h = s.h := rfl
@[simp] theorem State.takeLit_stride (s : State) (n : Nat) : (s.takeLit n).stride = s.stride := rfl
@[simp] theorem State.takeLit_plen (s : State) (n : Nat) : (s.takeLit n).plen = s.plen := rfl
@[simp] theorem State.takeLit_npix (s : State) (n : Nat) : (s.takeLit n).npix = s.npix := rfl
@[simp] theorem State.takeLit_opcount (s : State) (n : Nat) : (s.takeLit n).opcount = s.opcount := rfl
@[simp] theorem State.takeLit_lzcount (s : State) (n : Nat) : (s.takeLit n).lzcount = s.lzcount := rfl
@[simp] theorem State.takeLit_cur (s : State) (n : Nat) : (s.takeLit n).cur = s.cur := rfl
@[simp] theorem State.takeLit_prev (s : State) (n : Nat) : (s.takeLit n).prev = s.prev := rfl
@[simp] theorem State.takeLit_memAt (s : State) (n : Nat) : (s.takeLit n).memAt = s.memAt := rfl
@[simp] theorem State.takeLit_byte (s : State) (n : Nat) : (s.takeLit n).byte = s.byte := rfl
@[simp] theorem State.takeLit_size (s : State) (n : Nat) : (s.takeLit n).size = s.size := rfl

/-! ### `takeVec` -/

@[simp] theorem State.takeVec_cfg (s : State) : (s.takeVec).cfg = s.cfg := rfl
@[simp] theorem State.takeVec_seq (s : State) : (s.takeVec).seq = s.seq := rfl
@[simp] theorem State.takeVec_osd (s : State) : (s.takeVec).osd = s.osd := rfl
@[simp] theorem State.takeVec_lzu (s : State) : (s.takeVec).lzu = s.lzu := rfl
@[simp] theorem State.takeVec_frp_x (s : State) : (s.takeVec).frp.x = s.frp.x := rfl
@[simp] theorem State.takeVec_frp_y (s : State) : (s.takeVec).frp.y = s.frp.y := rfl
@[simp] theorem State.takeVec_frp_rem (s : State) : (s.takeVec).frp.rem = s.frp.rem := rfl
@[simp] theorem State.takeVec_frp_flag (s : State) : (s.takeVec).frp.flag = s.frp.flag := rfl
@[simp] theorem State.takeVec_frp_opc (s : State) : (s.takeVec).frp.opc = s.frp.opc := rfl
@[simp] theorem State.takeVec_frp_siz (s : State) : (s.takeVec).frp.siz = s.frp.siz := rfl
@[simp] theorem State.takeVec_frp_vec (s : State) : (s.takeVec).frp.vec = BitVec.ofNat 32 (s.frp.vec.toNat + 1) := rfl
@[simp] theorem State.takeVec_frp_lit (s : State) : (s.takeVec).frp.lit = s.frp.lit := rfl
@[simp] theorem State.takeVec_st (s : State) : (s.takeVec).st = s.st := rfl
@[simp] theorem State.takeVec_csr (s : State) : (s.takeVec).csr = s.csr := rfl
@[simp] theorem State.takeVec_mem (s : State) : (s.takeVec).mem = s.mem := rfl
@[simp] theorem State.takeVec_inputs (s : State) : (s.takeVec).inputs = s.inputs := rfl
@[simp] theorem State.takeVec_readback (s : State) : (s.takeVec).readback = s.readback := rfl
@[simp] theorem State.takeVec_draws (s : State) : (s.takeVec).draws = s.draws := rfl
@[simp] theorem State.takeVec_w (s : State) : (s.takeVec).w = s.w := rfl
@[simp] theorem State.takeVec_h (s : State) : (s.takeVec).h = s.h := rfl
@[simp] theorem State.takeVec_stride (s : State) : (s.takeVec).stride = s.stride := rfl
@[simp] theorem State.takeVec_plen (s : State) : (s.takeVec).plen = s.plen := rfl
@[simp] theorem State.takeVec_npix (s : State) : (s.takeVec).npix = s.npix := rfl
@[simp] theorem State.takeVec_opcount (s : State) : (s.takeVec).opcount = s.opcount := rfl
@[simp] theorem State.takeVec_lzcount (s : State) : (s.takeVec).lzcount = s.lzcount := rfl
@[simp] theorem State.takeVec_cur (s : State) : (s.takeVec).cur = s.cur := rfl
@[simp] theorem State.takeVec_prev (s : State) : (s.takeVec).prev = s.prev := rfl
@[simp] theorem State.takeVec_memAt (s : State) : (s.takeVec).memAt = s.memAt := rfl
@[simp] theorem State.takeVec_byte (s : State) : (s.takeVec).byte = s.byte := rfl
@[simp] theorem State.takeVec_size (s : State) : (s.takeVec).size = s.size := rfl

/-! ### `takeBit` -/

@[simp] theorem State.takeBit_cfg (s : State) : (s.takeBit).cfg = s.cfg := rfl
@[simp] theorem State.takeBit_seq (s : State) : (s.takeBit).seq = s.seq := rfl
@[simp] theorem State.takeBit_osd_n (s : State) : (s.takeBit).osd.n = s.osd.n := rfl
@[simp] theorem State.takeBit_osd_sent (s : State) : (s.takeBit).osd.sent = s.osd.sent := rfl
@[simp] theorem State.takeBit_osd_node (s : State) : (s.takeBit).osd.node = s.osd.node := rfl
@[simp] theorem State.takeBit_osd_bitpos (s : State) :
    (s.takeBit).osd.bitpos = BitVec.ofNat 35 (s.osd.bitpos.toNat + 1) := rfl
@[simp] theorem State.takeBit_lzu (s : State) : (s.takeBit).lzu = s.lzu := rfl
@[simp] theorem State.takeBit_frp (s : State) : (s.takeBit).frp = s.frp := rfl
@[simp] theorem State.takeBit_st (s : State) : (s.takeBit).st = s.st := rfl
@[simp] theorem State.takeBit_csr (s : State) : (s.takeBit).csr = s.csr := rfl
@[simp] theorem State.takeBit_mem (s : State) : (s.takeBit).mem = s.mem := rfl
@[simp] theorem State.takeBit_inputs (s : State) : (s.takeBit).inputs = s.inputs := rfl
@[simp] theorem State.takeBit_readback (s : State) : (s.takeBit).readback = s.readback := rfl
@[simp] theorem State.takeBit_draws (s : State) : (s.takeBit).draws = s.draws := rfl
@[simp] theorem State.takeBit_w (s : State) : (s.takeBit).w = s.w := rfl
@[simp] theorem State.takeBit_h (s : State) : (s.takeBit).h = s.h := rfl
@[simp] theorem State.takeBit_stride (s : State) : (s.takeBit).stride = s.stride := rfl
@[simp] theorem State.takeBit_plen (s : State) : (s.takeBit).plen = s.plen := rfl
@[simp] theorem State.takeBit_npix (s : State) : (s.takeBit).npix = s.npix := rfl
@[simp] theorem State.takeBit_opcount (s : State) : (s.takeBit).opcount = s.opcount := rfl
@[simp] theorem State.takeBit_lzcount (s : State) : (s.takeBit).lzcount = s.lzcount := rfl
@[simp] theorem State.takeBit_cur (s : State) : (s.takeBit).cur = s.cur := rfl
@[simp] theorem State.takeBit_prev (s : State) : (s.takeBit).prev = s.prev := rfl
@[simp] theorem State.takeBit_memAt (s : State) : (s.takeBit).memAt = s.memAt := rfl
@[simp] theorem State.takeBit_byte (s : State) : (s.takeBit).byte = s.byte := rfl
@[simp] theorem State.takeBit_size (s : State) : (s.takeBit).size = s.size := rfl

/-! ### `walkTo` -/

@[simp] theorem State.walkTo_cfg (s : State) (v : BitVec 9) : (s.walkTo v).cfg = s.cfg := rfl
@[simp] theorem State.walkTo_seq (s : State) (v : BitVec 9) : (s.walkTo v).seq = s.seq := rfl
@[simp] theorem State.walkTo_osd_n (s : State) (v : BitVec 9) : (s.walkTo v).osd.n = s.osd.n := rfl
@[simp] theorem State.walkTo_osd_sent (s : State) (v : BitVec 9) : (s.walkTo v).osd.sent = s.osd.sent := rfl
@[simp] theorem State.walkTo_osd_node (s : State) (v : BitVec 9) : (s.walkTo v).osd.node = v := rfl
@[simp] theorem State.walkTo_osd_bitpos (s : State) (v : BitVec 9) : (s.walkTo v).osd.bitpos = s.osd.bitpos := rfl
@[simp] theorem State.walkTo_lzu (s : State) (v : BitVec 9) : (s.walkTo v).lzu = s.lzu := rfl
@[simp] theorem State.walkTo_frp (s : State) (v : BitVec 9) : (s.walkTo v).frp = s.frp := rfl
@[simp] theorem State.walkTo_st (s : State) (v : BitVec 9) : (s.walkTo v).st = s.st := rfl
@[simp] theorem State.walkTo_csr (s : State) (v : BitVec 9) : (s.walkTo v).csr = s.csr := rfl
@[simp] theorem State.walkTo_mem (s : State) (v : BitVec 9) : (s.walkTo v).mem = s.mem := rfl
@[simp] theorem State.walkTo_inputs (s : State) (v : BitVec 9) : (s.walkTo v).inputs = s.inputs := rfl
@[simp] theorem State.walkTo_readback (s : State) (v : BitVec 9) : (s.walkTo v).readback = s.readback := rfl
@[simp] theorem State.walkTo_draws (s : State) (v : BitVec 9) : (s.walkTo v).draws = s.draws := rfl
@[simp] theorem State.walkTo_w (s : State) (v : BitVec 9) : (s.walkTo v).w = s.w := rfl
@[simp] theorem State.walkTo_h (s : State) (v : BitVec 9) : (s.walkTo v).h = s.h := rfl
@[simp] theorem State.walkTo_stride (s : State) (v : BitVec 9) : (s.walkTo v).stride = s.stride := rfl
@[simp] theorem State.walkTo_plen (s : State) (v : BitVec 9) : (s.walkTo v).plen = s.plen := rfl
@[simp] theorem State.walkTo_npix (s : State) (v : BitVec 9) : (s.walkTo v).npix = s.npix := rfl
@[simp] theorem State.walkTo_opcount (s : State) (v : BitVec 9) : (s.walkTo v).opcount = s.opcount := rfl
@[simp] theorem State.walkTo_lzcount (s : State) (v : BitVec 9) : (s.walkTo v).lzcount = s.lzcount := rfl
@[simp] theorem State.walkTo_cur (s : State) (v : BitVec 9) : (s.walkTo v).cur = s.cur := rfl
@[simp] theorem State.walkTo_prev (s : State) (v : BitVec 9) : (s.walkTo v).prev = s.prev := rfl
@[simp] theorem State.walkTo_memAt (s : State) (v : BitVec 9) : (s.walkTo v).memAt = s.memAt := rfl
@[simp] theorem State.walkTo_byte (s : State) (v : BitVec 9) : (s.walkTo v).byte = s.byte := rfl
@[simp] theorem State.walkTo_size (s : State) (v : BitVec 9) : (s.walkTo v).size = s.size := rfl

/-! ### `chooseRaw` -/

@[simp] theorem State.chooseRaw_cfg (s : State) : (s.chooseRaw).cfg = s.cfg := rfl
@[simp] theorem State.chooseRaw_seq_phase (s : State) : (s.chooseRaw).seq.phase = s.seq.phase := rfl
@[simp] theorem State.chooseRaw_seq_unitDone (s : State) : (s.chooseRaw).seq.unitDone = s.seq.unitDone := rfl
@[simp] theorem State.chooseRaw_seq_huf (s : State) : (s.chooseRaw).seq.huf = s.seq.huf := rfl
@[simp] theorem State.chooseRaw_seq_sizoff (s : State) : (s.chooseRaw).seq.sizoff = s.seq.sizoff := rfl
@[simp] theorem State.chooseRaw_seq_vecoff (s : State) : (s.chooseRaw).seq.vecoff = s.seq.vecoff := rfl
@[simp] theorem State.chooseRaw_seq_imgoff (s : State) : (s.chooseRaw).seq.imgoff = s.seq.imgoff := rfl
@[simp] theorem State.chooseRaw_seq_litmode (s : State) : (s.chooseRaw).seq.litmode = false := rfl
@[simp] theorem State.chooseRaw_seq_litbase (s : State) : (s.chooseRaw).seq.litbase = s.seq.litbase := rfl
@[simp] theorem State.chooseRaw_seq_litlen (s : State) : (s.chooseRaw).seq.litlen = s.seq.litlen := rfl
@[simp] theorem State.chooseRaw_osd (s : State) : (s.chooseRaw).osd = s.osd := rfl
@[simp] theorem State.chooseRaw_lzu (s : State) : (s.chooseRaw).lzu = s.lzu := rfl
@[simp] theorem State.chooseRaw_frp (s : State) : (s.chooseRaw).frp = s.frp := rfl
@[simp] theorem State.chooseRaw_st (s : State) : (s.chooseRaw).st = s.st := rfl
@[simp] theorem State.chooseRaw_csr (s : State) : (s.chooseRaw).csr = s.csr := rfl
@[simp] theorem State.chooseRaw_mem (s : State) : (s.chooseRaw).mem = s.mem := rfl
@[simp] theorem State.chooseRaw_inputs (s : State) : (s.chooseRaw).inputs = s.inputs := rfl
@[simp] theorem State.chooseRaw_readback (s : State) : (s.chooseRaw).readback = s.readback := rfl
@[simp] theorem State.chooseRaw_draws (s : State) : (s.chooseRaw).draws = s.draws := rfl
@[simp] theorem State.chooseRaw_w (s : State) : (s.chooseRaw).w = s.w := rfl
@[simp] theorem State.chooseRaw_h (s : State) : (s.chooseRaw).h = s.h := rfl
@[simp] theorem State.chooseRaw_stride (s : State) : (s.chooseRaw).stride = s.stride := rfl
@[simp] theorem State.chooseRaw_plen (s : State) : (s.chooseRaw).plen = s.plen := rfl
@[simp] theorem State.chooseRaw_npix (s : State) : (s.chooseRaw).npix = s.npix := rfl
@[simp] theorem State.chooseRaw_opcount (s : State) : (s.chooseRaw).opcount = s.opcount := rfl
@[simp] theorem State.chooseRaw_lzcount (s : State) : (s.chooseRaw).lzcount = s.lzcount := rfl
@[simp] theorem State.chooseRaw_cur (s : State) : (s.chooseRaw).cur = s.cur := rfl
@[simp] theorem State.chooseRaw_prev (s : State) : (s.chooseRaw).prev = s.prev := rfl
@[simp] theorem State.chooseRaw_memAt (s : State) : (s.chooseRaw).memAt = s.memAt := rfl
@[simp] theorem State.chooseRaw_byte (s : State) : (s.chooseRaw).byte = s.byte := rfl
@[simp] theorem State.chooseRaw_size (s : State) : (s.chooseRaw).size = s.size := rfl

/-! ### `chooseLz` -/

@[simp] theorem State.chooseLz_cfg (s : State) : (s.chooseLz).cfg = s.cfg := rfl
@[simp] theorem State.chooseLz_seq_phase (s : State) : (s.chooseLz).seq.phase = .lzu := rfl
@[simp] theorem State.chooseLz_seq_unitDone (s : State) : (s.chooseLz).seq.unitDone = false := rfl
@[simp] theorem State.chooseLz_seq_huf (s : State) : (s.chooseLz).seq.huf = s.seq.huf := rfl
@[simp] theorem State.chooseLz_seq_sizoff (s : State) : (s.chooseLz).seq.sizoff = s.seq.sizoff := rfl
@[simp] theorem State.chooseLz_seq_vecoff (s : State) : (s.chooseLz).seq.vecoff = s.seq.vecoff := rfl
@[simp] theorem State.chooseLz_seq_imgoff (s : State) : (s.chooseLz).seq.imgoff = s.seq.imgoff := rfl
@[simp] theorem State.chooseLz_seq_litmode (s : State) : (s.chooseLz).seq.litmode = true := rfl
@[simp] theorem State.chooseLz_seq_litbase (s : State) : (s.chooseLz).seq.litbase = s.seq.litbase := rfl
@[simp] theorem State.chooseLz_seq_litlen (s : State) : (s.chooseLz).seq.litlen = s.seq.litlen := rfl
@[simp] theorem State.chooseLz_osd (s : State) : (s.chooseLz).osd = s.osd := rfl
@[simp] theorem State.chooseLz_lzu (s : State) : (s.chooseLz).lzu = s.lzu := rfl
@[simp] theorem State.chooseLz_frp (s : State) : (s.chooseLz).frp = s.frp := rfl
@[simp] theorem State.chooseLz_st_done (s : State) : (s.chooseLz).st.done = s.st.done := rfl
@[simp] theorem State.chooseLz_st_fault (s : State) : (s.chooseLz).st.fault = s.st.fault := rfl
@[simp] theorem State.chooseLz_st_prevValid (s : State) : (s.chooseLz).st.prevValid = s.st.prevValid := rfl
@[simp] theorem State.chooseLz_st_cursel (s : State) : (s.chooseLz).st.cursel = s.st.cursel := rfl
@[simp] theorem State.chooseLz_st_osdEnd (s : State) : (s.chooseLz).st.osdEnd = s.st.osdEnd := rfl
@[simp] theorem State.chooseLz_st_osdCap (s : State) : (s.chooseLz).st.osdCap = s.st.osdCap := rfl
@[simp] theorem State.chooseLz_st_lzUsed (s : State) : (s.chooseLz).st.lzUsed = true := rfl
@[simp] theorem State.chooseLz_st_lzTerm (s : State) : (s.chooseLz).st.lzTerm = s.st.lzTerm := rfl
@[simp] theorem State.chooseLz_st_lzFull (s : State) : (s.chooseLz).st.lzFull = s.st.lzFull := rfl
@[simp] theorem State.chooseLz_st_lzTrunc (s : State) : (s.chooseLz).st.lzTrunc = s.st.lzTrunc := rfl
@[simp] theorem State.chooseLz_st_cause (s : State) : (s.chooseLz).st.cause = s.st.cause := rfl
@[simp] theorem State.chooseLz_csr (s : State) : (s.chooseLz).csr = s.csr := rfl
@[simp] theorem State.chooseLz_mem (s : State) : (s.chooseLz).mem = s.mem := rfl
@[simp] theorem State.chooseLz_inputs (s : State) : (s.chooseLz).inputs = s.inputs := rfl
@[simp] theorem State.chooseLz_readback (s : State) : (s.chooseLz).readback = s.readback := rfl
@[simp] theorem State.chooseLz_draws (s : State) : (s.chooseLz).draws = s.draws := rfl
@[simp] theorem State.chooseLz_w (s : State) : (s.chooseLz).w = s.w := rfl
@[simp] theorem State.chooseLz_h (s : State) : (s.chooseLz).h = s.h := rfl
@[simp] theorem State.chooseLz_stride (s : State) : (s.chooseLz).stride = s.stride := rfl
@[simp] theorem State.chooseLz_plen (s : State) : (s.chooseLz).plen = s.plen := rfl
@[simp] theorem State.chooseLz_npix (s : State) : (s.chooseLz).npix = s.npix := rfl
@[simp] theorem State.chooseLz_opcount (s : State) : (s.chooseLz).opcount = s.opcount := rfl
@[simp] theorem State.chooseLz_lzcount (s : State) : (s.chooseLz).lzcount = s.lzcount := rfl
@[simp] theorem State.chooseLz_cur (s : State) : (s.chooseLz).cur = s.cur := rfl
@[simp] theorem State.chooseLz_prev (s : State) : (s.chooseLz).prev = s.prev := rfl
@[simp] theorem State.chooseLz_memAt (s : State) : (s.chooseLz).memAt = s.memAt := rfl
@[simp] theorem State.chooseLz_byte (s : State) : (s.chooseLz).byte = s.byte := rfl
@[simp] theorem State.chooseLz_size (s : State) : (s.chooseLz).size = s.size := rfl

/-! ### `emit` -/

@[simp] theorem State.emit_cfg (s : State) (v : Byte) : (s.emit v).cfg = s.cfg := rfl
@[simp] theorem State.emit_seq (s : State) (v : Byte) : (s.emit v).seq = s.seq := rfl
@[simp] theorem State.emit_osd_n (s : State) (v : Byte) : (s.emit v).osd.n = s.osd.n := rfl
@[simp] theorem State.emit_osd_sent (s : State) (v : Byte) : (s.emit v).osd.sent = s.osd.sent := rfl
@[simp] theorem State.emit_osd_node (s : State) (v : Byte) : (s.emit v).osd.node = s.osd.sent := rfl
@[simp] theorem State.emit_osd_bitpos (s : State) (v : Byte) : (s.emit v).osd.bitpos = s.osd.bitpos := rfl
@[simp] theorem State.emit_lzu (s : State) (v : Byte) : (s.emit v).lzu = s.lzu := rfl
@[simp] theorem State.emit_frp (s : State) (v : Byte) : (s.emit v).frp = s.frp := rfl
@[simp] theorem State.emit_st (s : State) (v : Byte) : (s.emit v).st = s.st := rfl
@[simp] theorem State.emit_csr_width (s : State) (v : Byte) : (s.emit v).csr.width = s.csr.width := rfl
@[simp] theorem State.emit_csr_height (s : State) (v : Byte) : (s.emit v).csr.height = s.csr.height := rfl
@[simp] theorem State.emit_csr_stride (s : State) (v : Byte) : (s.emit v).csr.stride = s.csr.stride := rfl
@[simp] theorem State.emit_csr_plen (s : State) (v : Byte) : (s.emit v).csr.plen = s.csr.plen := rfl
@[simp] theorem State.emit_csr_faultinfo (s : State) (v : Byte) : (s.emit v).csr.faultinfo = s.csr.faultinfo := rfl
@[simp] theorem State.emit_csr_opcount (s : State) (v : Byte) :
    (s.emit v).csr.opcount = BitVec.ofNat 32 (s.opcount + 1) := rfl
@[simp] theorem State.emit_csr_lzcount (s : State) (v : Byte) : (s.emit v).csr.lzcount = s.csr.lzcount := rfl
@[simp] theorem State.emit_mem_pmem (s : State) (v : Byte) : (s.emit v).mem.pmem = s.mem.pmem := rfl
@[simp] theorem State.emit_mem_opbuf (s : State) (v : Byte) :
    (s.emit v).mem.opbuf = s.mem.opbuf.write s.opcount v := rfl
@[simp] theorem State.emit_mem_lzbuf (s : State) (v : Byte) : (s.emit v).mem.lzbuf = s.mem.lzbuf := rfl
@[simp] theorem State.emit_mem_fb0 (s : State) (v : Byte) : (s.emit v).mem.fb0 = s.mem.fb0 := rfl
@[simp] theorem State.emit_mem_fb1 (s : State) (v : Byte) : (s.emit v).mem.fb1 = s.mem.fb1 := rfl
@[simp] theorem State.emit_inputs (s : State) (v : Byte) : (s.emit v).inputs = s.inputs := rfl
@[simp] theorem State.emit_readback (s : State) (v : Byte) : (s.emit v).readback = s.readback := rfl
@[simp] theorem State.emit_draws (s : State) (v : Byte) : (s.emit v).draws = s.draws := rfl
@[simp] theorem State.emit_w (s : State) (v : Byte) : (s.emit v).w = s.w := rfl
@[simp] theorem State.emit_h (s : State) (v : Byte) : (s.emit v).h = s.h := rfl
@[simp] theorem State.emit_stride (s : State) (v : Byte) : (s.emit v).stride = s.stride := rfl
@[simp] theorem State.emit_plen (s : State) (v : Byte) : (s.emit v).plen = s.plen := rfl
@[simp] theorem State.emit_npix (s : State) (v : Byte) : (s.emit v).npix = s.npix := rfl
@[simp] theorem State.emit_lzcount (s : State) (v : Byte) : (s.emit v).lzcount = s.lzcount := rfl
@[simp] theorem State.emit_cur (s : State) (v : Byte) : (s.emit v).cur = s.cur := rfl
@[simp] theorem State.emit_prev (s : State) (v : Byte) : (s.emit v).prev = s.prev := rfl
@[simp] theorem State.emit_size (s : State) (v : Byte) : (s.emit v).size = s.size := rfl

/-! ### `lzAdvance` -/

@[simp] theorem State.lzAdvance_cfg (s : State) (k lit : Nat) : (s.lzAdvance k lit).cfg = s.cfg := rfl
@[simp] theorem State.lzAdvance_seq (s : State) (k lit : Nat) : (s.lzAdvance k lit).seq = s.seq := rfl
@[simp] theorem State.lzAdvance_osd (s : State) (k lit : Nat) : (s.lzAdvance k lit).osd = s.osd := rfl
@[simp] theorem State.lzAdvance_lzu_src (s : State) (k lit : Nat) :
    (s.lzAdvance k lit).lzu.src = BitVec.ofNat 32 (s.lzu.src.toNat + 1 + k + lit) := rfl
@[simp] theorem State.lzAdvance_frp (s : State) (k lit : Nat) : (s.lzAdvance k lit).frp = s.frp := rfl
@[simp] theorem State.lzAdvance_st (s : State) (k lit : Nat) : (s.lzAdvance k lit).st = s.st := rfl
@[simp] theorem State.lzAdvance_csr (s : State) (k lit : Nat) : (s.lzAdvance k lit).csr = s.csr := rfl
@[simp] theorem State.lzAdvance_mem (s : State) (k lit : Nat) : (s.lzAdvance k lit).mem = s.mem := rfl
@[simp] theorem State.lzAdvance_inputs (s : State) (k lit : Nat) : (s.lzAdvance k lit).inputs = s.inputs := rfl
@[simp] theorem State.lzAdvance_readback (s : State) (k lit : Nat) : (s.lzAdvance k lit).readback = s.readback := rfl
@[simp] theorem State.lzAdvance_draws (s : State) (k lit : Nat) : (s.lzAdvance k lit).draws = s.draws := rfl
@[simp] theorem State.lzAdvance_w (s : State) (k lit : Nat) : (s.lzAdvance k lit).w = s.w := rfl
@[simp] theorem State.lzAdvance_h (s : State) (k lit : Nat) : (s.lzAdvance k lit).h = s.h := rfl
@[simp] theorem State.lzAdvance_stride (s : State) (k lit : Nat) : (s.lzAdvance k lit).stride = s.stride := rfl
@[simp] theorem State.lzAdvance_plen (s : State) (k lit : Nat) : (s.lzAdvance k lit).plen = s.plen := rfl
@[simp] theorem State.lzAdvance_npix (s : State) (k lit : Nat) : (s.lzAdvance k lit).npix = s.npix := rfl
@[simp] theorem State.lzAdvance_opcount (s : State) (k lit : Nat) : (s.lzAdvance k lit).opcount = s.opcount := rfl
@[simp] theorem State.lzAdvance_lzcount (s : State) (k lit : Nat) : (s.lzAdvance k lit).lzcount = s.lzcount := rfl
@[simp] theorem State.lzAdvance_cur (s : State) (k lit : Nat) : (s.lzAdvance k lit).cur = s.cur := rfl
@[simp] theorem State.lzAdvance_prev (s : State) (k lit : Nat) : (s.lzAdvance k lit).prev = s.prev := rfl
@[simp] theorem State.lzAdvance_memAt (s : State) (k lit : Nat) : (s.lzAdvance k lit).memAt = s.memAt := rfl
@[simp] theorem State.lzAdvance_byte (s : State) (k lit : Nat) : (s.lzAdvance k lit).byte = s.byte := rfl
@[simp] theorem State.lzAdvance_size (s : State) (k lit : Nat) : (s.lzAdvance k lit).size = s.size := rfl

/-! ### `lzCopies`, whose back-reference is optional -/

@[simp] theorem State.lzCopies_cfg (s : State) (a lit : Nat) (b : Option BackRef) :
    (s.lzCopies a lit b).cfg = s.cfg := by cases b <;> rfl
@[simp] theorem State.lzCopies_seq (s : State) (a lit : Nat) (b : Option BackRef) :
    (s.lzCopies a lit b).seq = s.seq := by cases b <;> rfl
@[simp] theorem State.lzCopies_osd (s : State) (a lit : Nat) (b : Option BackRef) :
    (s.lzCopies a lit b).osd = s.osd := by cases b <;> rfl
@[simp] theorem State.lzCopies_lzu (s : State) (a lit : Nat) (b : Option BackRef) :
    (s.lzCopies a lit b).lzu = s.lzu := by cases b <;> rfl
@[simp] theorem State.lzCopies_frp (s : State) (a lit : Nat) (b : Option BackRef) :
    (s.lzCopies a lit b).frp = s.frp := by cases b <;> rfl
@[simp] theorem State.lzCopies_st (s : State) (a lit : Nat) (b : Option BackRef) :
    (s.lzCopies a lit b).st = s.st := by cases b <;> rfl
@[simp] theorem State.lzCopies_inputs (s : State) (a lit : Nat) (b : Option BackRef) :
    (s.lzCopies a lit b).inputs = s.inputs := by cases b <;> rfl
@[simp] theorem State.lzCopies_readback (s : State) (a lit : Nat) (b : Option BackRef) :
    (s.lzCopies a lit b).readback = s.readback := by cases b <;> rfl
@[simp] theorem State.lzCopies_draws (s : State) (a lit : Nat) (b : Option BackRef) :
    (s.lzCopies a lit b).draws = s.draws := by cases b <;> rfl
@[simp] theorem State.lzCopies_w (s : State) (a lit : Nat) (b : Option BackRef) :
    (s.lzCopies a lit b).w = s.w := by cases b <;> rfl
@[simp] theorem State.lzCopies_h (s : State) (a lit : Nat) (b : Option BackRef) :
    (s.lzCopies a lit b).h = s.h := by cases b <;> rfl
@[simp] theorem State.lzCopies_stride (s : State) (a lit : Nat) (b : Option BackRef) :
    (s.lzCopies a lit b).stride = s.stride := by cases b <;> rfl
@[simp] theorem State.lzCopies_plen (s : State) (a lit : Nat) (b : Option BackRef) :
    (s.lzCopies a lit b).plen = s.plen := by cases b <;> rfl
@[simp] theorem State.lzCopies_npix (s : State) (a lit : Nat) (b : Option BackRef) :
    (s.lzCopies a lit b).npix = s.npix := by cases b <;> rfl
@[simp] theorem State.lzCopies_opcount (s : State) (a lit : Nat) (b : Option BackRef) :
    (s.lzCopies a lit b).opcount = s.opcount := by cases b <;> rfl
@[simp] theorem State.lzCopies_cur (s : State) (a lit : Nat) (b : Option BackRef) :
    (s.lzCopies a lit b).cur = s.cur := by cases b <;> rfl
@[simp] theorem State.lzCopies_prev (s : State) (a lit : Nat) (b : Option BackRef) :
    (s.lzCopies a lit b).prev = s.prev := by cases b <;> rfl
@[simp] theorem State.lzCopies_size (s : State) (a lit : Nat) (b : Option BackRef) :
    (s.lzCopies a lit b).size = s.size := by cases b <;> rfl
@[simp] theorem State.lzCopies_csr (s : State) (a lit : Nat) (b : Option BackRef) :
    (s.lzCopies a lit b).csr = { s.csr with lzcount := BitVec.ofNat 32 (s.lzcount + lit + backRun b) } := by
  cases b <;> rfl
theorem State.lzCopies_mem_none (s : State) (a lit : Nat) :
    (s.lzCopies a lit none).mem = { s.mem with lzbuf := litCopy s.mem.pmem lit a s.lzcount s.mem.lzbuf } := rfl
theorem State.lzCopies_mem_some (s : State) (a lit : Nat) (b : BackRef) :
    (s.lzCopies a lit (some b)).mem = { s.mem with
      lzbuf := backCopy b.dist b.run (s.lzcount + lit) (litCopy s.mem.pmem lit a s.lzcount s.mem.lzbuf) } := rfl

/-! ### `lzFinish` and `geometryChanged`, which act or not -/

@[simp] theorem State.lzFinish_false (s : State) : s.lzFinish false = s := rfl
@[simp] theorem State.lzFinish_true (s : State) : s.lzFinish true = s.lzEndTerm := rfl
@[simp] theorem State.geometryChanged_false (s : State) : s.geometryChanged false = s := rfl
@[simp] theorem State.geometryChanged_true (s : State) :
    s.geometryChanged true = { s with st := { s.st with prevValid := false } } := rfl

/-! ### Derived quantities, by the field they come from -/

theorem State.npix_def (s : State) : s.npix = s.w * s.h := rfl
theorem State.memAt_def (s : State) (sp : Space) : s.memAt sp = s.mem.at sp := rfl
theorem State.byte_def (s : State) (sp : Space) (a : Nat) : s.byte sp a = (s.memAt sp).byte sp a := rfl
theorem State.busy_iff (s : State) : s.busy = true ↔ s.seq.phase ≠ .idle := by simp [State.busy]
theorem State.not_busy_iff (s : State) : s.busy = false ↔ s.seq.phase = .idle := by simp [State.busy]

end Sys2Proof.Machine
end

