-- ==== Sys2Proof/Laws/Memory.lean ====
section
/-! SUPPORT. The laws of memory: a read after a write, the canonical form, and the same for lists of writes, for the two
LZU copies and for painting. -/

namespace Sys2Proof.Machine

/-! ### Cell lists -/

theorem risingFrom_mono {lo lo' : Nat} (h : lo' ≤ lo) : ∀ {l}, risingFrom lo l = true → risingFrom lo' l = true
  | [], _ => rfl
  | c :: r, hr => by
    simp only [risingFrom, Bool.and_eq_true, decide_eq_true_eq] at hr ⊢
    exact ⟨le_trans h hr.1, hr.2⟩

theorem risingFrom_insertCell {a : Nat} {b : Byte} :
    ∀ {l lo}, lo ≤ a → risingFrom lo l = true → risingFrom lo (insertCell a b l) = true
  | [], lo, ha, _ => by simpa [insertCell, risingFrom] using ha
  | c :: r, lo, ha, hr => by
    have hc := hr
    simp only [risingFrom, Bool.and_eq_true, decide_eq_true_eq] at hc
    unfold insertCell
    split
    · simp only [risingFrom, Bool.and_eq_true, decide_eq_true_eq]
      exact ⟨ha, ⟨by omega, hc.2⟩⟩
    · split
      · simp only [risingFrom, Bool.and_eq_true, decide_eq_true_eq]
        exact ⟨ha, by subst_vars; exact hc.2⟩
      · simp only [risingFrom, Bool.and_eq_true, decide_eq_true_eq]
        exact ⟨hc.1, risingFrom_insertCell (by omega) hc.2⟩

theorem lookupCell_of_risingFrom {a : Nat} : ∀ {l lo}, risingFrom lo l = true → a < lo → lookupCell a l = none
  | [], _, _, _ => rfl
  | c :: r, lo, hr, h => by
    simp only [risingFrom, Bool.and_eq_true, decide_eq_true_eq] at hr
    unfold lookupCell
    rw [if_neg (by omega)]
    exact lookupCell_of_risingFrom hr.2 (by omega)

@[simp] theorem lookupCell_insertCell_self (a : Nat) (b : Byte) : ∀ l, lookupCell a (insertCell a b l) = some b
  | [] => by simp [insertCell, lookupCell]
  | c :: r => by
    unfold insertCell
    split
    · simp [lookupCell]
    · split
      · simp [lookupCell]
      · rw [lookupCell, if_neg (by omega)]
        exact lookupCell_insertCell_self a b r

theorem lookupCell_insertCell_ne {a a' : Nat} (b : Byte) (h : a' ≠ a) :
    ∀ l, lookupCell a' (insertCell a b l) = lookupCell a' l
  | [] => by simp [insertCell, lookupCell, h.symm]
  | c :: r => by
    unfold insertCell
    split
    · simp [lookupCell, h.symm]
    · split
      · subst_vars; simp [lookupCell, h.symm]
      · simp only [lookupCell]
        split
        · rfl
        · exact lookupCell_insertCell_ne b h r

/-! ### One memory -/

@[simp] theorem Mem.write_gen (m : Mem) (a : Nat) (b : Byte) : (m.write a b).gen = m.gen := rfl
@[simp] theorem Mem.forget_cells (m : Mem) : m.forget.cells = [] := rfl
@[simp] theorem Mem.forget_get? (m : Mem) (a : Nat) : m.forget.get? a = none := rfl
@[simp] theorem Mem.empty_get? (a : Nat) : Mem.empty.get? a = none := rfl

@[simp] theorem Mem.get?_write_self (m : Mem) (a : Nat) (b : Byte) : (m.write a b).get? a = some b := by
  simp [Mem.get?, Mem.write]

theorem Mem.get?_write_ne {a a' : Nat} (m : Mem) (b : Byte) (h : a' ≠ a) : (m.write a b).get? a' = m.get? a' :=
  lookupCell_insertCell_ne b h m.cells

theorem Mem.get?_write (m : Mem) (a a' : Nat) (b : Byte) :
    (m.write a b).get? a' = if a' = a then some b else m.get? a' := by
  split
  · subst_vars; simp
  · exact Mem.get?_write_ne m b ‹_›

@[simp] theorem Mem.byte_write_self (sp : Space) (m : Mem) (a : Nat) (b : Byte) : (m.write a b).byte sp a = b := by
  simp [Mem.byte]

theorem Mem.byte_write_ne {a a' : Nat} (sp : Space) (m : Mem) (b : Byte) (h : a' ≠ a) :
    (m.write a b).byte sp a' = m.byte sp a' := by
  simp [Mem.byte, Mem.get?_write_ne m b h]

theorem Mem.byte_of_get? {sp : Space} {m : Mem} {a : Nat} {b : Byte} (h : m.get? a = some b) : m.byte sp a = b := by
  simp [Mem.byte, h]

/-- Two memories of one generation that hold the same values read the same. -/
theorem Mem.byte_congr {m m' : Mem} {a : Nat} (sp : Space) (hg : m.gen = m'.gen) (h : m.get? a = m'.get? a) :
    m.byte sp a = m'.byte sp a := by
  simp [Mem.byte, h, hg]

theorem Mem.wf_write {m : Mem} {a : Nat} {b : Byte} (h : m.wf = true) : (m.write a b).wf = true :=
  risingFrom_insertCell (Nat.zero_le a) h

theorem Mem.wf_forget (m : Mem) : m.forget.wf = true := rfl
theorem Mem.wf_empty : Mem.empty.wf = true := rfl

/-! ### Lists of writes -/

@[simp] theorem Mem.writeAll_nil (m : Mem) : Mem.writeAll [] m = m := rfl
@[simp] theorem Mem.writeAll_cons (c : Host.Cell) (l : List Host.Cell) (m : Mem) :
    Mem.writeAll (c :: l) m = Mem.writeAll l (m.write c.1 c.2) := rfl

@[simp] theorem Mem.writeAll_gen (l : List Host.Cell) (m : Mem) : (Mem.writeAll l m).gen = m.gen := by
  induction l generalizing m with
  | nil => rfl
  | cons c l ih => simp [ih]

theorem Mem.wf_writeAll {l : List Host.Cell} {m : Mem} (h : m.wf = true) : (Mem.writeAll l m).wf = true := by
  induction l generalizing m with
  | nil => exact h
  | cons c l ih => exact ih (Mem.wf_write h)

theorem Mem.get?_writeAll_notMem {l : List Host.Cell} {m : Mem} {a : Nat} (h : a ∉ l.map Prod.fst) :
    (Mem.writeAll l m).get? a = m.get? a := by
  induction l generalizing m with
  | nil => rfl
  | cons c l ih =>
    simp only [List.map_cons, List.mem_cons, not_or] at h
    rw [Mem.writeAll_cons, ih h.2, Mem.get?_write_ne m c.2 h.1]

theorem Mem.get?_writeAll_mem {l : List Host.Cell} {m : Mem} {c : Host.Cell} (hn : (l.map Prod.fst).Nodup)
    (h : c ∈ l) : (Mem.writeAll l m).get? c.1 = some c.2 := by
  induction l generalizing m with
  | nil => cases h
  | cons d l ih =>
    simp only [List.map_cons, List.nodup_cons] at hn
    rw [Mem.writeAll_cons]
    rcases List.mem_cons.1 h with rfl | h
    · rw [Mem.get?_writeAll_notMem hn.1, Mem.get?_write_self]
    · exact ih hn.2 h

theorem Mem.isSome_writeAll (l : List Host.Cell) (m : Mem) (a : Nat) :
    ((Mem.writeAll l m).get? a).isSome = true ↔ a ∈ l.map Prod.fst ∨ (m.get? a).isSome = true := by
  induction l generalizing m with
  | nil => simp
  | cons c l ih =>
    rw [Mem.writeAll_cons, ih, Mem.get?_write, List.map_cons, List.mem_cons]
    by_cases h : a = c.1 <;> simp [h]

/-! ### The five memories -/

@[simp] theorem Mems.at_set_self (m : Mems) (sp : Space) (x : Mem) : (m.set sp x).at sp = x := by cases sp <;> rfl
theorem Mems.at_set_ne (m : Mems) {sp sp' : Space} (x : Mem) (h : sp' ≠ sp) : (m.set sp x).at sp' = m.at sp' := by
  cases sp <;> cases sp' <;> first | rfl | exact absurd rfl h

theorem Mems.wf_iff (m : Mems) : m.wf = true ↔ ∀ sp, (m.at sp).wf = true := by
  constructor
  · intro h sp
    simp only [Mems.wf, Bool.and_eq_true] at h
    cases sp <;> simp [Mems.at, h]
  · intro h
    have := h .pmem; have := h .opbuf; have := h .lzbuf; have := h .fb0; have := h .fb1
    simp_all [Mems.wf, Mems.at]

theorem Mems.wf_set {m : Mems} {sp : Space} {x : Mem} (h : m.wf = true) (hx : x.wf = true) :
    (m.set sp x).wf = true := by
  rw [Mems.wf_iff] at h ⊢
  intro sp'
  by_cases e : sp' = sp
  · subst e; simpa using hx
  · rw [Mems.at_set_ne _ _ e]; exact h sp'

@[simp] theorem State.memAt_setMem_self (s : State) (sp : Space) (x : Mem) : (s.setMem sp x).memAt sp = x := by
  simp [State.memAt]
theorem State.memAt_setMem_ne (s : State) {sp sp' : Space} (x : Mem) (h : sp' ≠ sp) :
    (s.setMem sp x).memAt sp' = s.memAt sp' := Mems.at_set_ne s.mem x h

theorem State.wf_memAt {s : State} (h : s.mem.wf = true) (sp : Space) : (s.memAt sp).wf = true :=
  (Mems.wf_iff s.mem).1 h sp

theorem State.wf_setMem {s : State} {sp : Space} {x : Mem} (h : s.mem.wf = true) (hx : x.wf = true) :
    (s.setMem sp x).mem.wf = true := Mems.wf_set h hx

/-- The memories of the machine after reset are in canonical form. -/
theorem State.wf_reset : State.reset.mem.wf = true := rfl

/-! ### Banks -/

theorem State.cur_ne_prev (s : State) : s.cur ≠ s.prev := by
  unfold State.cur State.prev; cases s.st.cursel <;> simp [bankOf]
theorem State.cur_ne_pmem (s : State) : s.cur ≠ .pmem := by
  unfold State.cur; cases s.st.cursel <;> simp [bankOf]
theorem State.cur_ne_opbuf (s : State) : s.cur ≠ .opbuf := by
  unfold State.cur; cases s.st.cursel <;> simp [bankOf]
theorem State.cur_ne_lzbuf (s : State) : s.cur ≠ .lzbuf := by
  unfold State.cur; cases s.st.cursel <;> simp [bankOf]
theorem State.cur_ne_litSpace (s : State) : s.cur ≠ s.litSpace := by
  unfold State.litSpace; split
  · exact s.cur_ne_lzbuf
  · exact s.cur_ne_pmem

/-! ### The copies of LZU -/

@[simp] theorem litCopy_gen (pm : Mem) (n a p : Nat) (lz : Mem) : (litCopy pm n a p lz).gen = lz.gen := by
  induction n generalizing a p lz with
  | zero => rfl
  | succ n ih => simp [litCopy, ih]

theorem wf_litCopy {pm lz : Mem} {n a p : Nat} (h : lz.wf = true) : (litCopy pm n a p lz).wf = true := by
  induction n generalizing a p lz with
  | zero => exact h
  | succ n ih => exact ih (Mem.wf_write h)

/-- `LitCopy` writes exactly `n` bytes from `p` on, each the source's. -/
theorem get?_litCopy (pm : Mem) (n a p : Nat) (lz : Mem) (x : Nat) :
    (litCopy pm n a p lz).get? x =
      if p ≤ x ∧ x < p + n then some (pm.byte .pmem (a + (x - p))) else lz.get? x := by
  induction n generalizing a p lz with
  | zero => rw [if_neg (by omega)]; rfl
  | succ n ih =>
    rw [litCopy, ih]
    by_cases h : x = p
    · subst h
      rw [if_neg (by omega), if_pos (by omega), Mem.get?_write_self]; simp
    · rw [Mem.get?_write_ne _ _ h]
      by_cases h1 : p + 1 ≤ x ∧ x < p + 1 + n
      · rw [if_pos h1, if_pos (by omega)]
        rw [show a + 1 + (x - (p + 1)) = a + (x - p) by omega]
      · rw [if_neg h1, if_neg (by omega)]

@[simp] theorem backCopy_gen (d n p : Nat) (lz : Mem) : (backCopy d n p lz).gen = lz.gen := by
  induction n generalizing p lz with
  | zero => rfl
  | succ n ih => simp [backCopy, ih]

theorem wf_backCopy {d n p : Nat} {lz : Mem} (h : lz.wf = true) : (backCopy d n p lz).wf = true := by
  induction n generalizing p lz with
  | zero => exact h
  | succ n ih => exact ih (Mem.wf_write h)

/-- `BackCopy` leaves every byte outside its `n` bytes. -/
theorem get?_backCopy_outside (d n p : Nat) (lz : Mem) {x : Nat} (h : x < p ∨ p + n ≤ x) :
    (backCopy d n p lz).get? x = lz.get? x := by
  induction n generalizing p lz with
  | zero => rfl
  | succ n ih => rw [backCopy, ih _ _ (by omega), Mem.get?_write_ne _ _ (by omega)]

/-- `BackCopy` gives every one of its `n` bytes a value. -/
theorem isSome_backCopy (d n p : Nat) (lz : Mem) {x : Nat} (h : p ≤ x ∧ x < p + n) :
    ((backCopy d n p lz).get? x).isSome = true := by
  induction n generalizing p lz with
  | zero => omega
  | succ n ih =>
    rw [backCopy]
    by_cases e : x = p
    · subst e; rw [get?_backCopy_outside _ _ _ _ (by omega), Mem.get?_write_self]; rfl
    · exact ih _ _ (by omega)

/-! ### Painting -/

@[simp] theorem length_pixelAddrs (w stride n : Nat) (p : Nat × Nat) : (pixelAddrs w stride n p).length = n := by
  induction n generalizing p with
  | zero => rfl
  | succ n ih => simp [pixelAddrs, ih]

@[simp] theorem State.length_runAddrs (s : State) (n : Nat) : (s.runAddrs n).length = n := length_pixelAddrs ..
@[simp] theorem State.length_litAddrs (s : State) (n : Nat) : (s.litAddrs n).length = n := by simp [State.litAddrs]
@[simp] theorem State.length_prevAddrs (s : State) (n : Nat) (dx dy : Int) : (s.prevAddrs n dx dy).length = n :=
  length_pixelAddrs ..

theorem State.wf_paint {s : State} {sp : Space} {src : List Nat} {n : Nat} (h : s.mem.wf = true) :
    (s.paint sp src n).mem.wf = true := State.wf_setMem h (Mem.wf_writeAll (State.wf_memAt h _))

/-- Painting touches only `CUR`. -/
theorem State.memAt_paint_ne (s : State) (sp : Space) (src : List Nat) (n : Nat) {sp' : Space} (h : sp' ≠ s.cur) :
    (s.paint sp src n).memAt sp' = s.memAt sp' := State.memAt_setMem_ne s _ h

theorem State.memAt_paint_cur (s : State) (sp : Space) (src : List Nat) (n : Nat) :
    (s.paint sp src n).memAt s.cur = Mem.writeAll ((s.runAddrs n).zip (src.map (s.byte sp))) (s.memAt s.cur) :=
  State.memAt_setMem_self ..

/-! ### Bytes that must exist -/

theorem State.firstMissing?_eq_none {s : State} {sp : Space} {as : List Nat} :
    s.firstMissing? sp as = none ↔ ∀ a ∈ as, a < s.size sp := by
  simp [State.firstMissing?, List.find?_eq_none]

theorem State.firstMissing?_eq_some {s : State} {sp : Space} {as : List Nat} {a : Nat}
    (h : s.firstMissing? sp as = some a) : a ∈ as ∧ s.size sp ≤ a := by
  have h1 := List.mem_of_find?_eq_some h
  have h2 := List.find?_some h
  exact ⟨h1, by simpa using h2⟩

@[simp] theorem State.needBytes_nil (s : State) (sp : Space) (k : Out) : s.needBytes sp [] k = k := rfl

theorem State.needBytes_of_exist {s : State} {sp : Space} {as : List Nat} {k : Out} (h : ∀ a ∈ as, a < s.size sp) :
    s.needBytes sp as k = k := by
  simp [State.needBytes, State.firstMissing?_eq_none.2 h]

/-- `needBytes` goes on, with every address existing, or stops at a missing one. -/
theorem State.needBytes_cases (s : State) (sp : Space) (as : List Nat) (k : Out) :
    ((∀ a ∈ as, a < s.size sp) ∧ s.needBytes sp as k = k) ∨
      ∃ a ∈ as, s.size sp ≤ a ∧ s.needBytes sp as k = .fault (.noByte sp a) := by
  unfold State.needBytes
  cases h : s.firstMissing? sp as with
  | none => exact .inl ⟨State.firstMissing?_eq_none.1 h, rfl⟩
  | some a => exact .inr ⟨a, (State.firstMissing?_eq_some h).1, (State.firstMissing?_eq_some h).2, rfl⟩

theorem State.needBytes_next {s t : State} {sp : Space} {as : List Nat} {k : Out}
    (h : s.needBytes sp as k = .next t) : (∀ a ∈ as, a < s.size sp) ∧ k = .next t := by
  rcases s.needBytes_cases sp as k with ⟨he, hk⟩ | ⟨a, _, _, hk⟩
  · exact ⟨he, hk ▸ h⟩
  · rw [hk] at h; cases h

end Sys2Proof.Machine
end

