-- ==== Sys2Proof/Laws/Meanings.lean ====
section
/-! SUPPORT. For each shared operation of the meanings one lemma that says all it can do when it answers a next state, and
when it goes through. Later proofs cite these and do not unfold the operation. -/

namespace Sys2Proof.Machine

/-! ### LZU -/

/-- The state after an LZU instruction that passes its checks (R164). -/
def State.lzDone (s : State) (k lit : Nat) (back : Option BackRef) (term : Bool) : State :=
  ((s.lzCopies (s.lzu.src.toNat + 1 + k) lit back).lzAdvance k lit).lzFinish term

theorem lzBody_next {k lit : Nat} {back : Option BackRef} {term : Bool} {s t : State}
    (h : lzBody k lit back term s = .next t) :
    (s.plen < s.lzu.src.toNat + 1 + k + lit ∧ t = s.raise .lzSrcOverrun s.lzu.src.toNat) ∨
    (s.lzu.src.toNat + 1 + k + lit ≤ s.plen ∧ s.backTooFar lit back = true ∧
      t = s.raise .lzBackrefRange s.lzu.src.toNat) ∨
    (s.lzu.src.toNat + 1 + k + lit ≤ s.plen ∧ s.backTooFar lit back = false ∧ t = s.lzDone k lit back term) := by
  unfold lzBody at h
  split at h
  · cases h; exact .inl ⟨‹_›, rfl⟩
  · split at h
    · cases h; exact .inr (.inl ⟨by omega, ‹_›, rfl⟩)
    · rename_i hb
      obtain ⟨_, h⟩ := State.needBytes_next h
      obtain ⟨_, h⟩ := State.needBytes_next h
      cases h
      exact .inr (.inr ⟨by omega, by simpa using hb, rfl⟩)

theorem lzBody_done {k lit : Nat} {back : Option BackRef} {term : Bool} {s : State}
    (h1 : s.lzu.src.toNat + 1 + k + lit ≤ s.plen) (h2 : s.backTooFar lit back = false)
    (h3 : s.plen ≤ s.size .pmem) (h4 : s.lzcount + lit + backRun back ≤ s.size .lzbuf) :
    lzBody k lit back term s = .next (s.lzDone k lit back term) := by
  unfold lzBody
  rw [if_neg (by omega), if_neg (by simp [h2]), State.needBytes_of_exist, State.needBytes_of_exist]
  · rfl
  · intro a ha; rw [List.mem_range'_1] at ha; omega
  · intro a ha; rw [List.mem_range'_1] at ha; omega

theorem lzBody_total {k lit : Nat} {back : Option BackRef} {term : Bool} {s : State}
    (h3 : s.plen ≤ s.size .pmem) (h4 : s.lzcount + lit + backRun back ≤ s.size .lzbuf) :
    ∃ t, lzBody k lit back term s = .next t := by
  by_cases h1 : s.plen < s.lzu.src.toNat + 1 + k + lit
  · exact ⟨_, by unfold lzBody; rw [if_pos h1]⟩
  · by_cases h2 : s.backTooFar lit back = true
    · exact ⟨_, by unfold lzBody; rw [if_neg h1, if_pos h2]⟩
    · exact ⟨_, lzBody_done (by omega) (by simpa using h2) h3 h4⟩

theorem lzAbort_next {k lit : Nat} {s t : State} (h : lzAbort k lit s = .next t) :
    (s.cfg.lzcAbortAfterLiteral = false ∧ t = s.lzEndTrunc) ∨
    (s.cfg.lzcAbortAfterLiteral = true ∧ s.plen < s.lzu.src.toNat + 1 + k + lit ∧
      t = s.raise .lzSrcOverrun s.lzu.src.toNat) ∨
    (s.cfg.lzcAbortAfterLiteral = true ∧ s.lzu.src.toNat + 1 + k + lit ≤ s.plen ∧
      t = (s.lzCopies (s.lzu.src.toNat + 1 + k) lit none).lzEndTrunc) := by
  unfold lzAbort at h
  split at h
  · split at h
    · cases h; exact .inr (.inl ⟨‹_›, ‹_›, rfl⟩)
    · obtain ⟨_, h⟩ := State.needBytes_next h
      obtain ⟨_, h⟩ := State.needBytes_next h
      cases h
      exact .inr (.inr ⟨‹_›, by omega, rfl⟩)
  · rename_i hc; cases h; exact .inl ⟨by simpa using hc, rfl⟩

theorem lzAbort_total {k lit : Nat} {s : State} (h3 : s.plen ≤ s.size .pmem)
    (h4 : s.lzcount + lit ≤ s.size .lzbuf) : ∃ t, lzAbort k lit s = .next t := by
  unfold lzAbort
  split
  · split
    · exact ⟨_, rfl⟩
    · rw [State.needBytes_of_exist, State.needBytes_of_exist]
      · exact ⟨_, rfl⟩
      · intro a ha; rw [List.mem_range'_1] at ha; omega
      · intro a ha; rw [List.mem_range'_1] at ha; omega
  · exact ⟨_, rfl⟩

theorem State.wf_lzCopies {s : State} {a lit : Nat} {b : Option BackRef} (h : s.mem.wf = true) :
    (s.lzCopies a lit b).mem.wf = true := by
  have h1 : ((s.mem.set .lzbuf (litCopy s.mem.pmem lit a s.lzcount s.mem.lzbuf))).wf = true :=
    Mems.wf_set h (wf_litCopy (State.wf_memAt h .lzbuf))
  cases b with
  | none => exact h1
  | some b => exact Mems.wf_set (sp := .lzbuf) h (wf_backCopy (wf_litCopy (State.wf_memAt h .lzbuf)))

/-- The copies of LZU touch only LZBUF. -/
theorem State.memAt_lzCopies_ne (s : State) (a lit : Nat) (b : Option BackRef) {sp : Space} (h : sp ≠ .lzbuf) :
    (s.lzCopies a lit b).memAt sp = s.memAt sp := by
  cases b <;> cases sp <;> first | rfl | exact absurd rfl h

@[simp] theorem State.lzDone_lzcount_toNat (s : State) (k lit : Nat) (b : Option BackRef) (term : Bool) :
    (s.lzDone k lit b term).csr.lzcount = BitVec.ofNat 32 (s.lzcount + lit + backRun b) := by
  cases term <;> simp [State.lzDone]

/-! ### FRP -/

theorem withRunSize_next {z : SizeSrc} {s t : State} {k : Nat → Out} (h : withRunSize z s k = .next t) :
    (0 < z.bytes ∧ s.plen < s.frp.siz.toNat + z.bytes ∧ t = s.raise .frpSizOverrun s.frp.opc.toNat) ∨
    (¬(0 < z.bytes ∧ s.plen < s.frp.siz.toNat + z.bytes) ∧ s.frp.rem.toNat < s.runSize z ∧
      t = s.raise .frpRunOverflow s.frp.opc.toNat) ∨
    (¬(0 < z.bytes ∧ s.plen < s.frp.siz.toNat + z.bytes) ∧ s.runSize z ≤ s.frp.rem.toNat ∧ 1 ≤ s.w ∧
      k (s.runSize z) = .next t) := by
  unfold withRunSize at h
  split at h
  · rename_i hz; cases h; exact .inl ⟨hz.1, hz.2, rfl⟩
  · rename_i hz
    obtain ⟨_, h⟩ := State.needBytes_next h
    split at h
    · cases h; exact .inr (.inl ⟨hz, ‹_›, rfl⟩)
    · split at h
      · cases h
      · exact .inr (.inr ⟨hz, by omega, by omega, h⟩)

theorem withRunSize_go {z : SizeSrc} {s : State} {k : Nat → Out} (hp : s.plen ≤ s.size .pmem)
    (h1 : s.frp.siz.toNat + z.bytes ≤ s.plen) (h2 : s.runSize z ≤ s.frp.rem.toNat) (h3 : 1 ≤ s.w) :
    withRunSize z s k = k (s.runSize z) := by
  unfold withRunSize
  rw [if_neg (by omega), State.needBytes_of_exist, if_neg (by omega), if_neg (by omega)]
  intro a ha; rw [List.mem_range'_1] at ha; omega

theorem withRunSize_total {z : SizeSrc} {s : State} {k : Nat → Out} (hp : s.plen ≤ s.size .pmem) (h3 : 1 ≤ s.w)
    (hk : s.runSize z ≤ s.frp.rem.toNat → ∃ t, k (s.runSize z) = .next t) : ∃ t, withRunSize z s k = .next t := by
  unfold withRunSize
  split
  · exact ⟨_, rfl⟩
  · rename_i hz
    rw [State.needBytes_of_exist]
    · split
      · exact ⟨_, rfl⟩
      · rw [if_neg (by omega)]; exact hk (by omega)
    · intro a ha; rw [List.mem_range'_1] at ha; omega

/-- The state after a literal run of `n` pixels (R195, R199). -/
def State.litDone (s : State) (n szBytes : Nat) : State :=
  ((s.paint s.litSpace (s.litAddrs n) n).endRun n szBytes false).takeLit n

theorem altLiteral_next {n b : Nat} {s t : State} (h : altLiteral n b s = .next t) :
    (s.seq.litlen.toNat < s.frp.lit.toNat + n ∧ t = s.raise .frpLitOverrun s.frp.opc.toNat) ∨
    (s.frp.lit.toNat + n ≤ s.seq.litlen.toNat ∧ t = s.litDone n b) := by
  unfold altLiteral at h
  split at h
  · cases h; exact .inl ⟨‹_›, rfl⟩
  · obtain ⟨_, h⟩ := State.needBytes_next h
    obtain ⟨_, h⟩ := State.needBytes_next h
    cases h; exact .inr ⟨by omega, rfl⟩

theorem altLiteral_done {n b : Nat} {s : State} (h1 : s.frp.lit.toNat + n ≤ s.seq.litlen.toNat)
    (h2 : ∀ a ∈ s.litAddrs n, a < s.size s.litSpace) (h3 : ∀ a ∈ s.runAddrs n, a < s.size s.cur) :
    altLiteral n b s = .next (s.litDone n b) := by
  unfold altLiteral
  rw [if_neg (by omega), State.needBytes_of_exist h2, State.needBytes_of_exist h3]; rfl

/-- The state after a run of `n` pixels read from `PREV` at displacement `(dx, dy)` that leaves `FLAG` at `flag`. -/
def State.prevDone (s : State) (n szBytes : Nat) (dx dy : Int) (flag : Bool) : State :=
  (s.paint s.prev (s.prevAddrs n dx dy) n).endRun n szBytes flag

theorem altPrev_next {n b : Nat} {s t : State} (h : altPrev n b s = .next t) :
    (1 ≤ n ∧ s.st.prevValid = false ∧ t = s.raise .frpNoPrev s.frp.opc.toNat) ∨
    (¬(1 ≤ n ∧ s.st.prevValid = false) ∧ t = s.prevDone n b 0 0 true) := by
  unfold altPrev at h
  split at h
  · rename_i hn; cases h; exact .inl ⟨hn.1, hn.2, rfl⟩
  · obtain ⟨_, h⟩ := State.needBytes_next h
    obtain ⟨_, h⟩ := State.needBytes_next h
    cases h; exact .inr ⟨‹_›, rfl⟩

theorem altPrev_done {n b : Nat} {s : State} (h1 : 1 ≤ n → s.st.prevValid = true)
    (h2 : ∀ a ∈ s.prevAddrs n 0 0, a < s.size s.prev) (h3 : ∀ a ∈ s.runAddrs n, a < s.size s.cur) :
    altPrev n b s = .next (s.prevDone n b 0 0 true) := by
  unfold altPrev
  rw [if_neg (by rintro ⟨a, b⟩; simp [h1 a] at b), State.needBytes_of_exist h2, State.needBytes_of_exist h3]; rfl

theorem mvVector_next {n b : Nat} {v : Byte} {s t : State} (h : mvVector n b v s = .next t) :
    (1 ≤ n ∧ s.st.prevValid = false ∧ t = s.raise .frpNoPrev s.frp.opc.toNat) ∨
    (1 ≤ n ∧ s.st.prevValid = true ∧ s.motionInside n (vecDx v) (vecDy v) = false ∧
      t = s.raise .frpMotionRange s.frp.opc.toNat) ∨
    ((1 ≤ n → s.st.prevValid = true ∧ s.motionInside n (vecDx v) (vecDy v) = true) ∧
      t = (s.prevDone n b (vecDx v) (vecDy v) false).takeVec) := by
  unfold mvVector at h
  split at h
  · rename_i hn; cases h; exact .inl ⟨hn.1, hn.2, rfl⟩
  · split at h
    · rename_i hn hm; cases h
      exact .inr (.inl ⟨hm.1, by cases e : s.st.prevValid <;> simp_all, hm.2, rfl⟩)
    · rename_i hn hm
      obtain ⟨_, h⟩ := State.needBytes_next h
      obtain ⟨_, h⟩ := State.needBytes_next h
      cases h
      refine .inr (.inr ⟨fun h1 => ⟨?_, ?_⟩, rfl⟩)
      · cases e : s.st.prevValid <;> simp_all
      · cases e : s.motionInside n (vecDx v) (vecDy v) <;> simp_all

theorem mvVector_done {n b : Nat} {v : Byte} {s : State}
    (h1 : 1 ≤ n → s.st.prevValid = true ∧ s.motionInside n (vecDx v) (vecDy v) = true)
    (h2 : ∀ a ∈ s.prevAddrs n (vecDx v) (vecDy v), a < s.size s.prev) (h3 : ∀ a ∈ s.runAddrs n, a < s.size s.cur) :
    mvVector n b v s = .next (s.prevDone n b (vecDx v) (vecDy v) false).takeVec := by
  unfold mvVector
  rw [if_neg (by rintro ⟨a, b⟩; simp [(h1 a).1] at b), if_neg (by rintro ⟨a, b⟩; simp [(h1 a).2] at b),
    State.needBytes_of_exist h2, State.needBytes_of_exist h3]; rfl

/-- All that an opcode `1..11` can do. -/
theorem altStep_next {z : SizeSrc} {s t : State} (h : altStep z s = .next t) :
    (∃ c, t = s.raise c s.frp.opc.toNat ∧ (c = .frpSizOverrun ∧ 0 < z.bytes ∨ c = .frpRunOverflow ∨
      c = .frpNoPrev ∨ c = .frpLitOverrun)) ∨
    (s.runSize z ≤ s.frp.rem.toNat ∧ 1 ≤ s.w ∧ s.frp.flag = true ∧ s.frp.lit.toNat + s.runSize z ≤ s.seq.litlen.toNat ∧
      t = s.litDone (s.runSize z) z.bytes ∧ ¬(0 < z.bytes ∧ s.plen < s.frp.siz.toNat + z.bytes)) ∨
    (s.runSize z ≤ s.frp.rem.toNat ∧ 1 ≤ s.w ∧ s.frp.flag = false ∧ (1 ≤ s.runSize z → s.st.prevValid = true) ∧
      t = s.prevDone (s.runSize z) z.bytes 0 0 true ∧ ¬(0 < z.bytes ∧ s.plen < s.frp.siz.toNat + z.bytes)) := by
  rcases withRunSize_next h with ⟨hz, _, rfl⟩ | ⟨_, _, rfl⟩ | ⟨hz, hr, hw, h⟩
  · exact .inl ⟨_, rfl, .inl ⟨rfl, hz⟩⟩
  · exact .inl ⟨_, rfl, .inr (.inl rfl)⟩
  · cases hf : s.frp.flag
    · simp only [hf, toggledFlag, Bool.not_false, if_true] at h
      rcases altPrev_next h with ⟨_, _, rfl⟩ | ⟨hn, rfl⟩
      · exact .inl ⟨_, rfl, .inr (.inr (.inl rfl))⟩
      · refine .inr (.inr ⟨hr, hw, rfl, fun h1 => ?_, rfl, hz⟩)
        cases e : s.st.prevValid <;> simp_all
    · simp only [hf, toggledFlag, Bool.not_true, Bool.false_eq_true, if_false] at h
      rcases altLiteral_next h with ⟨_, rfl⟩ | ⟨hl, rfl⟩
      · exact .inl ⟨_, rfl, .inr (.inr (.inr rfl))⟩
      · exact .inr (.inl ⟨hr, hw, rfl, hl, rfl, hz⟩)

/-- All that an opcode `12..21` can do. -/
theorem mvStep_next {z : SizeSrc} {s t : State} (h : mvStep z s = .next t) :
    (∃ c, t = s.raise c s.frp.opc.toNat ∧ (c = .frpSizOverrun ∧ 0 < z.bytes ∨ c = .frpRunOverflow ∨
      c = .frpVecOverrun ∨ c = .frpNoPrev ∨ c = .frpMotionRange)) ∨
    ∃ v, v = s.byte .pmem s.frp.vec.toNat ∧ s.frp.vec.toNat < s.plen ∧
      s.runSize z ≤ s.frp.rem.toNat ∧ 1 ≤ s.w ∧
      (1 ≤ s.runSize z → s.st.prevValid = true ∧ s.motionInside (s.runSize z) (vecDx v) (vecDy v) = true) ∧
      t = (s.prevDone (s.runSize z) z.bytes (vecDx v) (vecDy v) false).takeVec ∧
      ¬(0 < z.bytes ∧ s.plen < s.frp.siz.toNat + z.bytes) := by
  rcases withRunSize_next h with ⟨hz, _, rfl⟩ | ⟨_, _, rfl⟩ | ⟨hz, hr, hw, h⟩
  · exact .inl ⟨_, rfl, .inl ⟨rfl, hz⟩⟩
  · exact .inl ⟨_, rfl, .inr (.inl rfl)⟩
  · split at h
    · cases h; exact .inl ⟨_, rfl, .inr (.inr (.inl rfl))⟩
    · obtain ⟨_, h⟩ := State.needBytes_next h
      rcases mvVector_next h with ⟨_, _, rfl⟩ | ⟨_, _, _, rfl⟩ | ⟨hv, rfl⟩
      · exact .inl ⟨_, rfl, .inr (.inr (.inr (.inl rfl)))⟩
      · exact .inl ⟨_, rfl, .inr (.inr (.inr (.inr rfl)))⟩
      · exact .inr ⟨_, rfl, by omega, hr, hw, hv, rfl, hz⟩

/-! ### The forms -/

/-- Opcodes 1 to 11 all run `altStep`. -/
theorem exec_alt {i : Instr} {z : SizeSrc} (h : (i, z) ∈ altForms) (s : State) : exec i s = altStep z s := by
  have all : ∀ p ∈ altForms, exec p.1 s = altStep p.2 s := by intro p hp; fin_cases hp <;> rfl
  exact all _ h

/-- Opcodes 12 to 21 all run `mvStep`. -/
theorem exec_mv {i : Instr} {z : SizeSrc} (h : (i, z) ∈ mvForms) (s : State) : exec i s = mvStep z s := by
  have all : ∀ p ∈ mvForms, exec p.1 s = mvStep p.2 s := by intro p hp; fin_cases hp <;> rfl
  exact all _ h

/-- Which instructions a decoded OPBUF entry can be: `FLIP`, an `ALT` form or an `MV` form. -/
theorem decodeOp_forms {b : Byte} {i : Instr} (h : decodeOp b = some i) :
    i = .flip ∨ (∃ z, (i, z) ∈ altForms) ∨ ∃ z, (i, z) ∈ mvForms := by
  unfold decodeOp at h
  split at h <;> cases h <;>
    first
    | exact .inl rfl
    | exact .inr (.inl ⟨_, by simp only [altForms, List.mem_cons, Prod.mk.injEq, reduceCtorEq, true_and, false_and,
        false_or, or_false, List.not_mem_nil]; rfl⟩)
    | exact .inr (.inr ⟨_, by simp only [mvForms, List.mem_cons, Prod.mk.injEq, reduceCtorEq, true_and, false_and,
        false_or, or_false, List.not_mem_nil]; rfl⟩)

end Sys2Proof.Machine
end

