-- ==== Sys2Proof/Laws/PerInstr.lean ====
section
/-! SUPPORT. The family of statements made per instruction: a well-formed instruction's first byte lies in the byte range of
its row of the opcode table, and as many bytes follow it as the row has operand bytes (R111). -/

namespace Sys2Proof.Laws.EncodedInRow

/-- `value_min` and `value_max` of the instruction's row. -/
def rowRange : Instr → Nat × Nat
  | .imgRaw _ => (0, 255)
  | .imgLz => (2, 2)
  | .leaf _ => (0, 21)
  | .endMark => (22, 22)
  | .node _ => (23, 255)
  | .lza _ _ _ _ => (0, 127)
  | .lzb _ _ _ => (128, 191)
  | .lzc _ _ _ _ _ _ => (192, 223)
  | .lzlit _ => (224, 251)
  | .lzend _ => (252, 255)
  | .flip => (0, 0)
  | .alt1 => (1, 1)
  | .alt2 => (2, 2)
  | .alt3 => (3, 3)
  | .alt4 => (4, 4)
  | .alt5 => (5, 5)
  | .alt6 => (6, 6)
  | .alt7 => (7, 7)
  | .alt8 => (8, 8)
  | .altB => (9, 9)
  | .altH => (10, 10)
  | .altT => (11, 11)
  | .mv2 => (12, 12)
  | .mv3 => (13, 13)
  | .mv4 => (14, 14)
  | .mv5 => (15, 15)
  | .mv6 => (16, 16)
  | .mv7 => (17, 17)
  | .mv8 => (18, 18)
  | .mvB => (19, 19)
  | .mvH => (20, 20)
  | .mvT => (21, 21)

/-- `operand_bytes` of the instruction's row. -/
def operandBytes : Instr → Nat
  | .imgRaw _ => 0
  | .imgLz => 0
  | .leaf _ => 0
  | .endMark => 0
  | .node _ => 0
  | .lza _ _ _ _ => 1
  | .lzb _ _ _ => 2
  | .lzc _ _ _ _ _ _ => 3
  | .lzlit _ => 0
  | .lzend _ => 0
  | .flip => 0
  | .alt1 => 0
  | .alt2 => 0
  | .alt3 => 0
  | .alt4 => 0
  | .alt5 => 0
  | .alt6 => 0
  | .alt7 => 0
  | .alt8 => 0
  | .altB => 0
  | .altH => 0
  | .altT => 0
  | .mv2 => 0
  | .mv3 => 0
  | .mv4 => 0
  | .mv5 => 0
  | .mv6 => 0
  | .mv7 => 0
  | .mv8 => 0
  | .mvB => 0
  | .mvH => 0
  | .mvT => 0

/-- The statement of the family. -/
def Statement (i : Instr) : Prop :=
  i.wf = true → ∃ c rest, encode i = c :: rest ∧ (rowRange i).1 ≤ c.toNat ∧ c.toNat ≤ (rowRange i).2 ∧
    rest.length = operandBytes i

theorem imgRaw (m : Byte) : Statement (.imgRaw m) :=
  fun _ => ⟨m, [], rfl, Nat.zero_le _, by have := m.isLt; simp only [rowRange]; omega, rfl⟩

theorem imgLz : Statement .imgLz := fun _ => ⟨_, _, rfl, by decide, by decide, rfl⟩

theorem leaf (s : Byte) : Statement (.leaf s) :=
  fun h => ⟨s, [], rfl, Nat.zero_le _, by simp only [Instr.wf, decide_eq_true_eq] at h; simp only [rowRange]; omega, rfl⟩

theorem endMark : Statement .endMark := fun _ => ⟨_, _, rfl, by decide, by decide, rfl⟩

theorem node (v : Byte) : Statement (.node v) :=
  fun h => ⟨v, [], rfl, by simpa [Instr.wf, rowRange] using h, by have := v.isLt; simp only [rowRange]; omega, rfl⟩

theorem lza (d : BitVec 2) (r : BitVec 3) (l : BitVec 2) (o1 : Byte) : Statement (.lza d r l o1) :=
  fun _ =>
  have h : ∀ (d : BitVec 2) (r : BitVec 3) (l : BitVec 2), (0b0#1 ++ d ++ r ++ l).toNat ≤ 127 := by decide
  ⟨_, _, rfl, Nat.zero_le _, h d r l, rfl⟩

theorem lzb (r : BitVec 6) (o1 o2 : Byte) : Statement (.lzb r o1 o2) :=
  fun _ =>
  have h : ∀ r : BitVec 6, 128 ≤ (0b10#2 ++ r).toNat ∧ (0b10#2 ++ r).toNat ≤ 191 := by decide
  ⟨_, _, rfl, (h r).1, (h r).2, rfl⟩

theorem lzc (d : BitVec 1) (r l : BitVec 2) (o1 o2 o3 : Byte) : Statement (.lzc d r l o1 o2 o3) :=
  fun _ =>
  have h : ∀ (d : BitVec 1) (r l : BitVec 2),
      192 ≤ (0b110#3 ++ d ++ r ++ l).toNat ∧ (0b110#3 ++ d ++ r ++ l).toNat ≤ 223 := by decide
  ⟨_, _, rfl, (h d r l).1, (h d r l).2, rfl⟩

theorem lzlit (n : BitVec 5) : Statement (.lzlit n) :=
  by
  revert n; unfold Statement; intro n h
  exact ⟨_, _, rfl, by revert n; decide, by revert n; decide, rfl⟩

theorem lzend (l : BitVec 2) : Statement (.lzend l) :=
  fun _ =>
  ⟨_, _, rfl, by revert l; decide, by revert l; decide, rfl⟩

theorem flip : Statement .flip := fun _ => ⟨_, _, rfl, by decide, by decide, rfl⟩

theorem alt1 : Statement .alt1 := fun _ => ⟨_, _, rfl, by decide, by decide, rfl⟩

theorem alt2 : Statement .alt2 := fun _ => ⟨_, _, rfl, by decide, by decide, rfl⟩

theorem alt3 : Statement .alt3 := fun _ => ⟨_, _, rfl, by decide, by decide, rfl⟩

theorem alt4 : Statement .alt4 := fun _ => ⟨_, _, rfl, by decide, by decide, rfl⟩

theorem alt5 : Statement .alt5 := fun _ => ⟨_, _, rfl, by decide, by decide, rfl⟩

theorem alt6 : Statement .alt6 := fun _ => ⟨_, _, rfl, by decide, by decide, rfl⟩

theorem alt7 : Statement .alt7 := fun _ => ⟨_, _, rfl, by decide, by decide, rfl⟩

theorem alt8 : Statement .alt8 := fun _ => ⟨_, _, rfl, by decide, by decide, rfl⟩

theorem altB : Statement .altB := fun _ => ⟨_, _, rfl, by decide, by decide, rfl⟩

theorem altH : Statement .altH := fun _ => ⟨_, _, rfl, by decide, by decide, rfl⟩

theorem altT : Statement .altT := fun _ => ⟨_, _, rfl, by decide, by decide, rfl⟩

theorem mv2 : Statement .mv2 := fun _ => ⟨_, _, rfl, by decide, by decide, rfl⟩

theorem mv3 : Statement .mv3 := fun _ => ⟨_, _, rfl, by decide, by decide, rfl⟩

theorem mv4 : Statement .mv4 := fun _ => ⟨_, _, rfl, by decide, by decide, rfl⟩

theorem mv5 : Statement .mv5 := fun _ => ⟨_, _, rfl, by decide, by decide, rfl⟩

theorem mv6 : Statement .mv6 := fun _ => ⟨_, _, rfl, by decide, by decide, rfl⟩

theorem mv7 : Statement .mv7 := fun _ => ⟨_, _, rfl, by decide, by decide, rfl⟩

theorem mv8 : Statement .mv8 := fun _ => ⟨_, _, rfl, by decide, by decide, rfl⟩

theorem mvB : Statement .mvB := fun _ => ⟨_, _, rfl, by decide, by decide, rfl⟩

theorem mvH : Statement .mvH := fun _ => ⟨_, _, rfl, by decide, by decide, rfl⟩

theorem mvT : Statement .mvT := fun _ => ⟨_, _, rfl, by decide, by decide, rfl⟩

end Sys2Proof.Laws.EncodedInRow
end

