-- ==== Sys2Proof/Laws/Place.lean ====
section
/-! SUPPORT. Placing an instruction's bytes in a memory: the canonical form is kept and the bytes are read back. -/

namespace Sys2Proof.Machine

theorem risingFrom_iff {l : List Host.Cell} :
    ∀ {lo}, risingFrom lo l = true ↔ (∀ c ∈ l, lo ≤ c.1) ∧ l.Pairwise (fun c d => c.1 < d.1) := by
  induction l with
  | nil => simp [risingFrom]
  | cons c l ih =>
    intro lo
    simp only [risingFrom, Bool.and_eq_true, decide_eq_true_eq, ih, List.forall_mem_cons, List.pairwise_cons]
    constructor
    · rintro ⟨h1, h2, h3⟩
      exact ⟨⟨h1, fun d hd => by have := h2 d hd; omega⟩, fun d hd => h2 d hd, h3⟩
    · rintro ⟨⟨h1, _⟩, h3, h4⟩
      exact ⟨h1, fun d hd => h3 d hd, h4⟩

theorem mem_cellsFrom {bs : List Byte} : ∀ {a : Nat} {c : Host.Cell}, c ∈ cellsFrom a bs → a ≤ c.1 ∧ c.1 < a + bs.length := by
  induction bs with
  | nil => intro a c h; cases h
  | cons b r ih =>
    intro a c h
    simp only [cellsFrom, List.mem_cons, List.length_cons] at h ⊢
    rcases h with rfl | h
    · exact ⟨le_refl _, by omega⟩
    · have := ih h; omega

theorem pairwise_cellsFrom (bs : List Byte) : ∀ a : Nat, (cellsFrom a bs).Pairwise (fun c d => c.1 < d.1) := by
  induction bs with
  | nil => intro a; exact List.Pairwise.nil
  | cons b r ih =>
    intro a
    exact List.Pairwise.cons (fun c hc => by have := mem_cellsFrom hc; simp only; omega) (ih (a + 1))

theorem Mem.wf_place {m : Mem} {a : Nat} {bs : List Byte} (h : m.wf = true) : (m.place a bs).wf = true := by
  have hp := (risingFrom_iff.1 h).2
  refine risingFrom_iff.2 ⟨fun c _ => Nat.zero_le _, ?_⟩
  refine List.pairwise_append.2 ⟨hp.filter _, List.pairwise_append.2 ⟨pairwise_cellsFrom bs a, hp.filter _, ?_⟩, ?_⟩
  · intro c hc d hd
    have h1 := mem_cellsFrom hc
    have h2 := of_decide_eq_true (List.mem_filter.1 hd).2
    omega
  · intro c hc d hd
    have h1 := of_decide_eq_true (List.mem_filter.1 hc).2
    rcases List.mem_append.1 hd with hd | hd
    · have := mem_cellsFrom hd; omega
    · have := of_decide_eq_true (List.mem_filter.1 hd).2; omega

theorem lookupCell_append {a : Nat} {l r : List Host.Cell} (h : ∀ c ∈ l, c.1 ≠ a) :
    lookupCell a (l ++ r) = lookupCell a r := by
  induction l with
  | nil => rfl
  | cons c l ih =>
    rw [List.cons_append, lookupCell, if_neg (h c (List.mem_cons_self ..))]
    exact ih fun d hd => h d (List.mem_cons_of_mem _ hd)

theorem lookupCell_cellsFrom {r : List Host.Cell} {bs : List Byte} : ∀ {a j : Nat} (hj : j < bs.length),
    lookupCell (a + j) (cellsFrom a bs ++ r) = some bs[j] := by
  induction bs with
  | nil => intro a j hj; cases hj
  | cons b bs ih =>
    intro a j hj
    cases j with
    | zero => simp [cellsFrom, lookupCell]
    | succ j =>
      rw [cellsFrom, List.cons_append, lookupCell, if_neg (by simp only; omega), show a + (j + 1) = a + 1 + j by omega]
      exact ih (by simpa using hj)

/-- Bytes placed are the bytes read back. -/
theorem Mem.get?_place {m : Mem} {a j : Nat} {bs : List Byte} (hj : j < bs.length) :
    (m.place a bs).get? (a + j) = some bs[j] := by
  refine (lookupCell_append ?_).trans (lookupCell_cellsFrom hj)
  intro c hc
  have := of_decide_eq_true (List.mem_filter.1 hc).2
  omega

end Sys2Proof.Machine
end

