-- ==== Sys2Proof/Laws/Step.lean ====
section
/-! SUPPORT. What a step of each unit can find, and what a step can be: the inversion lemmas of `fetch` and `step`. -/

namespace Sys2Proof.Machine

theorem State.fetchBytes_run {s : State} {sp : Space} {as : List Nat} {k : Fetched} {i : Instr}
    (h : s.fetchBytes sp as k = .run i) : (∀ a ∈ as, a < s.size sp) ∧ k = .run i := by
  unfold State.fetchBytes at h
  split at h
  · cases h
  · exact ⟨State.firstMissing?_eq_none.1 ‹_›, h⟩

theorem State.fetchBytes_next {s t : State} {sp : Space} {as : List Nat} {k : Fetched}
    (h : s.fetchBytes sp as k = .other (.next t)) : (∀ a ∈ as, a < s.size sp) ∧ k = .other (.next t) := by
  unfold State.fetchBytes at h
  split at h
  · cases h
  · exact ⟨State.firstMissing?_eq_none.1 ‹_›, h⟩

theorem State.fetchBytes_of_exist {s : State} {sp : Space} {as : List Nat} {k : Fetched}
    (h : ∀ a ∈ as, a < s.size sp) : s.fetchBytes sp as k = k := by
  simp [State.fetchBytes, State.firstMissing?_eq_none.2 h]

theorem fetchMarker_run {s : State} {i : Instr} (h : fetchMarker s = .run i) :
    s.seq.imgoff.toNat < s.size .pmem ∧ i = decodeMarker (s.byte .pmem s.seq.imgoff.toNat) := by
  obtain ⟨h1, h2⟩ := State.fetchBytes_run h
  cases h2; exact ⟨h1 _ (List.mem_singleton_self _), rfl⟩

theorem fetchMarker_next {s t : State} : fetchMarker s ≠ .other (.next t) := by
  intro h; cases (State.fetchBytes_next h).2

theorem fetchEntry_run {s : State} {i : Instr} (h : fetchEntry s = .run i) :
    nodeBias ≤ s.osd.node.toNat ∧ s.tableIndex < 2 * s.osd.n.toNat ∧ s.tableAddr < s.plen ∧
      i = decodeTrie (s.byte .pmem s.tableAddr) := by
  unfold fetchEntry at h
  split at h
  · cases h
  · split at h
    · cases h
    · split at h
      · cases h
      · obtain ⟨_, h2⟩ := State.fetchBytes_run h
        cases h2; exact ⟨by omega, by omega, by omega, rfl⟩

theorem fetchEntry_next {s t : State} (h : fetchEntry s = .other (.next t)) :
    nodeBias ≤ s.osd.node.toNat ∧ ((2 * s.osd.n.toNat ≤ s.tableIndex ∧ t = s.raise .osdTableRange s.tableIndex) ∨
      (s.tableIndex < 2 * s.osd.n.toNat ∧ s.plen ≤ s.tableAddr ∧ t = s.raise .osdSrcOverrun s.tableAddr)) := by
  unfold fetchEntry at h
  split at h
  · cases h
  · split at h
    · cases h; exact ⟨by omega, .inl ⟨‹_›, rfl⟩⟩
    · split at h
      · cases h; exact ⟨by omega, .inr ⟨by omega, ‹_›, rfl⟩⟩
      · cases (State.fetchBytes_next h).2

/-- An OSD step that reaches a table entry (R142). -/
theorem fetchOsd_run {s : State} {i : Instr} (h : fetchOsd s = .run i) :
    s.osd.node.toNat ≠ sentBias ∧ s.osd.bitpos.toNat / 8 < s.plen ∧ nodeBias ≤ s.osd.node.toNat ∧
      s.tableIndex < 2 * s.osd.n.toNat ∧ s.tableAddr < s.plen ∧ i = decodeTrie (s.byte .pmem s.tableAddr) := by
  unfold fetchOsd at h
  split at h
  · cases h
  · split at h
    · cases h
    · exact ⟨‹_›, by omega, fetchEntry_run (State.fetchBytes_run h).2⟩

/-- An OSD step that reaches none (R142, R155). -/
theorem fetchOsd_next {s t : State} (h : fetchOsd s = .other (.next t)) :
    (s.osd.node.toNat = sentBias ∧ t = s.osdEndByMark) ∨
    (s.osd.node.toNat ≠ sentBias ∧ ∃ c info, (c = .osdSrcOverrun ∨ c = .osdTableRange) ∧ t = s.raise c info) := by
  unfold fetchOsd at h
  split at h
  · cases h; exact .inl ⟨‹_›, rfl⟩
  · split at h
    · cases h; exact .inr ⟨‹_›, _, _, .inl rfl, rfl⟩
    · rcases (fetchEntry_next (State.fetchBytes_next h).2).2 with ⟨_, rfl⟩ | ⟨_, _, rfl⟩
      · exact .inr ⟨‹_›, _, _, .inr rfl, rfl⟩
      · exact .inr ⟨‹_›, _, _, .inl rfl, rfl⟩

/-- An LZU step that executes an instruction (R162, R163). -/
theorem fetchLzu_run {s : State} {i : Instr} (h : fetchLzu s = .run i) :
    s.lzcount < s.npix ∧ s.lzu.src.toNat + 1 + lzOperandBytes (lzForm s.ctrlByte) ≤ s.plen ∧ i = s.lzInstr := by
  unfold fetchLzu at h
  split at h
  · cases h
  · split at h
    · cases h
    · have h := (State.fetchBytes_run h).2
      split at h
      · cases h
      · have h := (State.fetchBytes_run h).2
        cases h; exact ⟨by omega, by omega, rfl⟩

theorem fetchLzu_next {s t : State} (h : fetchLzu s = .other (.next t)) :
    (s.npix ≤ s.lzcount ∧ t = s.lzEndFull) ∨
    (s.lzcount < s.npix ∧ t = s.raise .lzSrcOverrun s.lzu.src.toNat) := by
  unfold fetchLzu at h
  split at h
  · cases h; exact .inl ⟨‹_›, rfl⟩
  · split at h
    · cases h; exact .inr ⟨by omega, rfl⟩
    · have h := (State.fetchBytes_next h).2
      split at h
      · cases h; exact .inr ⟨by omega, rfl⟩
      · cases (State.fetchBytes_next h).2

/-- An FRP step that executes an opcode (R191). -/
theorem fetchFrp_run {s : State} {i : Instr} (h : fetchFrp s = .run i) :
    s.frp.rem.toNat ≠ 0 ∧ s.frp.opc.toNat < s.opcount ∧ decodeOp (s.byte .opbuf s.frp.opc.toNat) = some i := by
  unfold fetchFrp at h
  split at h
  · cases h
  · split at h
    · cases h
    · have h := (State.fetchBytes_run h).2
      split at h
      · rename_i hd; cases h; exact ⟨‹_›, by omega, hd⟩
      · cases h

theorem fetchFrp_next {s t : State} (h : fetchFrp s = .other (.next t)) :
    (s.frp.rem.toNat = 0 ∧ t = s.complete) ∨
    (s.frp.rem.toNat ≠ 0 ∧ s.opcount ≤ s.frp.opc.toNat ∧ t = s.raise .frpOpcUnderrun s.frp.opc.toNat) ∨
    (s.frp.rem.toNat ≠ 0 ∧ decodeOp (s.byte .opbuf s.frp.opc.toNat) = none ∧
      t = s.raise .frpBadOpcode s.frp.opc.toNat) := by
  unfold fetchFrp at h
  split at h
  · cases h; exact .inl ⟨‹_›, rfl⟩
  · split at h
    · cases h; exact .inr (.inl ⟨‹_›, ‹_›, rfl⟩)
    · have h := (State.fetchBytes_next h).2
      split at h
      · cases h
      · cases h; exact .inr (.inr ⟨‹_›, ‹_›, rfl⟩)

/-- Which instruction a step executes, by the active unit (R125). -/
theorem fetch_run {s : State} {i : Instr} (h : fetch s = .run i) :
    (s.seq.phase = .osd ∧ s.seq.unitDone = true ∧ fetchMarker s = .run i) ∨
    (s.seq.phase = .osd ∧ s.seq.unitDone = false ∧ fetchOsd s = .run i) ∨
    (s.seq.phase = .lzu ∧ s.seq.unitDone = false ∧ fetchLzu s = .run i) ∨
    (s.seq.phase = .frp ∧ fetchFrp s = .run i) := by
  unfold fetch at h
  split at h
  · cases h
  · split at h
    · exact .inl ⟨‹_›, ‹_›, h⟩
    · exact .inr (.inl ⟨‹_›, by simp_all, h⟩)
  · split at h
    · cases h
    · exact .inr (.inr (.inl ⟨‹_›, by simp_all, h⟩))
  · exact .inr (.inr (.inr ⟨‹_›, h⟩))

/-- What a step is that executes no instruction, by the active unit (R125, R275). -/
theorem fetch_next {s t : State} (h : fetch s = .other (.next t)) :
    (s.seq.phase = .idle ∧ t = s) ∨
    (s.seq.phase = .osd ∧ s.seq.unitDone = false ∧ fetchOsd s = .other (.next t)) ∨
    (s.seq.phase = .lzu ∧ s.seq.unitDone = true ∧ t = s.literalSource) ∨
    (s.seq.phase = .lzu ∧ s.seq.unitDone = false ∧ fetchLzu s = .other (.next t)) ∨
    (s.seq.phase = .frp ∧ fetchFrp s = .other (.next t)) := by
  unfold fetch at h
  split at h
  · cases h; exact .inl ⟨‹_›, rfl⟩
  · split at h
    · exact absurd h fetchMarker_next
    · exact .inr (.inl ⟨‹_›, by simp_all, h⟩)
  · split at h
    · cases h; exact .inr (.inr (.inl ⟨‹_›, ‹_›, rfl⟩))
    · exact .inr (.inr (.inr (.inl ⟨‹_›, by simp_all, h⟩)))
  · exact .inr (.inr (.inr (.inr ⟨‹_›, h⟩)))

/-- A step of FDB executes the fetched instruction or is the step that executes none. -/
theorem fdbStep_cases {s : State} {o : Out} (h : fdbStep s = o) :
    (∃ i, fetch s = .run i ∧ exec i s = o) ∨ fetch s = .other o := by
  unfold fdbStep at h
  split at h
  · exact .inl ⟨_, ‹_›, h⟩
  · subst h; exact .inr ‹_›

theorem step_of_no_inputs {s : State} (h : s.inputs = []) : step s = fdbStep s := by
  unfold step; rw [h]

/-- A step is FDB's own, on the state with the host's schedule moved on, or a move of the host. -/
theorem step_cases (s : State) :
    (s.inputs = [] ∧ step s = fdbStep s) ∨
    (∃ rest, s.inputs = none :: rest ∧ step s = fdbStep { s with inputs := rest }) ∨
    (∃ m rest, s.inputs = some m :: rest ∧ step s = hostMove m { s with inputs := rest }) := by
  unfold step
  split
  · exact .inl ⟨‹_›, rfl⟩
  · exact .inr (.inl ⟨_, ‹_›, rfl⟩)
  · exact .inr (.inr ⟨_, _, ‹_›, rfl⟩)

/-- What holds at a state and is kept by every step of FDB that goes on with the decode holds at every boundary. -/
theorem State.runBusy_induction {P : State → Prop} (keep : ∀ s t, P s → fdbStep s = .next t → t.busy = true → P t) :
    ∀ (k : Nat) (s : State), P s → P (s.runBusy k)
  | 0, _, h => h
  | k + 1, s, h => by
    unfold State.runBusy
    split
    · split
      · exact State.runBusy_induction keep k _ (keep _ _ h ‹_› ‹_›)
      · exact h
    · exact h
    · exact h

/-- Every boundary of a decode has `BUSY = 1` (R35). -/
theorem State.runBusy_busy (k : Nat) {s : State} (h : s.busy = true) : (s.runBusy k).busy = true :=
  State.runBusy_induction (P := fun u => u.busy = true) (fun _ _ _ _ hb => hb) k s h

/-! ### Host moves -/

/-- All that a host read of a CSR does (R43, R67). -/
theorem State.csrRead_cases (s : State) (n : Nat) :
    (s.busy = false ∧ s.csrRead n = { s with readback := s.csrValue n }) ∨
    (s.busy = true ∧ s.csrRead n =
      { s with readback := s.csrValueBusy n (Config.busyPick s.draws), draws := s.draws + 1 }) := by
  unfold State.csrRead
  cases s.busy
  · exact .inl ⟨rfl, rfl⟩
  · exact .inr ⟨rfl, rfl⟩

theorem State.hostWriteByte_next {s t : State} {m : HostMove} {a : Nat} {b : Byte}
    (h : s.hostWriteByte m a b = .next t) :
    s.busy = false ∧ a < s.size .pmem ∧ t = s.setMem .pmem ((s.memAt .pmem).write a b) := by
  unfold State.hostWriteByte at h
  split at h
  · cases h
  · rename_i hb
    obtain ⟨h1, h2⟩ := State.needBytes_next h
    cases h2; exact ⟨by simpa using hb, h1 a (List.mem_singleton_self _), rfl⟩

theorem State.hostReadByte_next {s t : State} {m : HostMove} {sp : Space} {a : Nat}
    (h : s.hostReadByte m sp a = .next t) :
    s.busy = false ∧ a < s.size sp ∧ t = { s with readback := (s.byte sp a).setWidth 32 } := by
  unfold State.hostReadByte at h
  split at h
  · cases h
  · rename_i hb
    obtain ⟨h1, h2⟩ := State.needBytes_next h
    cases h2; exact ⟨by simpa using hb, h1 a (List.mem_singleton_self _), rfl⟩

/-- START ends in a recorded configuration fault, a recorded header fault, or the OSD phase (R122 to R124). -/
theorem State.start_cases (s : State) :
    (∃ k, s.startClear.freshCurrent.configError? = some k ∧
      s.start = s.startClear.freshCurrent.raise .cfgInvalid k) ∨
    (∃ k, s.startClear.freshCurrent.configError? = none ∧ s.startClear.freshCurrent.headerError? = some k ∧
      s.start = s.startClear.freshCurrent.raise .hdrRange k) ∨
    (s.startClear.freshCurrent.configError? = none ∧ s.startClear.freshCurrent.headerError? = none ∧
      s.start = s.startClear.freshCurrent.headerLoad.osdInit) := by
  unfold State.start
  dsimp only
  split
  · exact .inl ⟨_, ‹_›, rfl⟩
  · split
    · exact .inr (.inl ⟨_, ‹_›, ‹_›, rfl⟩)
    · exact .inr (.inr ⟨‹_›, ‹_›, rfl⟩)

/-- The configuration check passes exactly under the six conditions of R122. -/
theorem State.configError?_eq_none {s : State} :
    s.configError? = none ↔ 1 ≤ s.w ∧ 1 ≤ s.h ∧ s.w ≤ s.stride ∧ s.w * s.h ≤ s.cfg.maxPix ∧
      s.stride * s.h ≤ s.cfg.maxFb ∧ s.plen ≤ s.cfg.pmemBytes := by
  unfold State.configError?
  split_ifs <;> simp <;> omega

/-- The header check passes exactly when the payload holds the header and every offset is below `PLEN` (R123). -/
theorem State.headerError?_eq_none {s : State} :
    s.headerError? = none ↔ hdrBytes ≤ s.plen ∧ s.hdrField 0 < s.plen ∧ s.hdrField 1 < s.plen ∧
      s.hdrField 2 < s.plen ∧ s.hdrField 3 < s.plen := by
  unfold State.headerError?
  split_ifs <;> simp <;> omega

/-- What a host write to a CSR can do (R34 to R40). -/
theorem State.csrWrite_cases (s : State) (n : Nat) (v : Word) :
    s.csrWrite n v = s ∨
    (s.busy = false ∧ n = 0 ∧ v.getLsbD 0 = true ∧ s.csrWrite n v = s.start) ∨
    (s.busy = false ∧ ∃ c, c.plen = s.csr.plen ∧ c.faultinfo = s.csr.faultinfo ∧ c.opcount = s.csr.opcount ∧
      c.lzcount = s.csr.lzcount ∧ s.csrWrite n v = ({ s with csr := c }).geometryChanged (s.csr != c)) ∨
    (s.busy = false ∧ n = 5 ∧ s.csrWrite n v = { s with csr := { s.csr with plen := v } }) := by
  unfold State.csrWrite
  split
  · exact .inl rfl
  · rename_i hb
    have hb : s.busy = false := by simpa using hb
    split
    · split
      · exact .inr (.inl ⟨hb, rfl, ‹_›, rfl⟩)
      · exact .inl rfl
    · refine .inr (.inr (.inl ⟨hb, { s.csr with width := geometryValue v }, rfl, rfl, rfl, rfl, ?_⟩))
      congr 1
      cases hc : s.csr
      simp [bne, BEq.beq]
    · refine .inr (.inr (.inl ⟨hb, { s.csr with height := geometryValue v }, rfl, rfl, rfl, rfl, ?_⟩))
      congr 1
      cases hc : s.csr
      simp [bne, BEq.beq]
    · refine .inr (.inr (.inl ⟨hb, { s.csr with stride := geometryValue v }, rfl, rfl, rfl, rfl, ?_⟩))
      congr 1
      cases hc : s.csr
      simp [bne, BEq.beq]
    · exact .inr (.inr (.inr ⟨hb, rfl, rfl⟩))
    · exact .inl rfl

end Sys2Proof.Machine
end

