-- ==== Sys2Proof/Tests/Slice0.lean ====
section
/-! SUPPORT. The model's own tests: ill-formed instructions refused, every constructor decoded from a word written out from
the spec's encoding, one-step tests whose expected values are the spec's examples and vectors (named in each comment, or
worked by hand from the rules), and for each obligation with hypotheses a concrete state and operands that meet them. -/

namespace Sys2Proof.Machine

/-! ### Ill-formed instructions -/

theorem test_wf_refuses_imgRaw_2 : (Instr.imgRaw 2).wf = false := by decide
theorem test_wf_refuses_leaf_22 : (Instr.leaf 0x16).wf = false := by decide
theorem test_wf_refuses_node_22 : (Instr.node 0x16).wf = false := by decide
theorem test_wf_refuses_lzlit_28 : (Instr.lzlit 28).wf = false := by decide

/-! ### Decoding of words written out bit by bit (R93, R96, R100, R103, R105, V17) -/

/-- The instruction that begins a byte list, if there is one. -/
def decoded (f : Format) (bs : List Byte) : Option Instr :=
  match decode f bs with
  | .ok (i, _) => some i
  | .error _ => none

theorem test_decode_markers :
    [0x00, 0x01, 0x02, 0x03, 0xFF].map (fun b => decoded .imgm [b]) =
      [some (.imgRaw 0), some (.imgRaw 1), some .imgLz, some (.imgRaw 3), some (.imgRaw 0xFF)] := by decide

theorem test_decode_trie :
    [0x00, 0x15, 0x16, 0x17, 0xFF].map (fun b => decoded .trie [b]) =
      [some (.leaf 0), some (.leaf 0x15), some .endMark, some (.node 0x17), some (.node 0xFF)] := by decide

theorem test_decode_lza : decoded .lz [0b01101001, 0xAA] = some (.lza 0b11 0b010 0b01 0xAA) := by decide
theorem test_decode_lza_last : decoded .lz [0b01111111, 0xFF] = some (.lza 3 7 3 0xFF) := by decide
theorem test_decode_lzb : decoded .lz [0b10000101, 0x40, 0x04] = some (.lzb 5 0x40 0x04) := by decide
theorem test_decode_lzb_last : decoded .lz [0b10111111, 0xFF, 0xFE] = some (.lzb 63 0xFF 0xFE) := by decide
theorem test_decode_lzc : decoded .lz [0b11011001, 1, 2, 3] = some (.lzc 1 0b10 0b01 1 2 3) := by decide
theorem test_decode_lzc_first : decoded .lz [0b11000000, 0, 0, 9] = some (.lzc 0 0 0 0 0 9) := by decide
theorem test_decode_lzlit : [0b11100000, 0b11111011].map (fun b => decoded .lz [b]) =
    [some (.lzlit 0), some (.lzlit 27)] := by decide
theorem test_decode_lzend : [0b11111100, 0b11111111].map (fun b => decoded .lz [b]) =
    [some (.lzend 0), some (.lzend 3)] := by decide
theorem test_decode_lz_operands_missing :
    [[0x00], [0x80, 0x00], [0xC0, 0x00, 0x00]].map (decoded .lz) = [none, none, none] := by decide

theorem test_decode_ops :
    [0, 1, 2, 3, 4, 5, 6, 7, 8, 9, 10, 11, 12, 13, 14, 15, 16, 17, 18, 19, 20, 21, 22, 255].map
      (fun b => decoded .op [b]) =
    [some .flip, some .alt1, some .alt2, some .alt3, some .alt4, some .alt5, some .alt6, some .alt7, some .alt8,
     some .altB, some .altH, some .altT, some .mv2, some .mv3, some .mv4, some .mv5, some .mv6, some .mv7, some .mv8,
     some .mvB, some .mvH, some .mvT, none, none] := by decide

/-- V17: the field extremes of the back-references, as (literals, distance, run). -/
theorem test_lz_field_extremes :
    (lzaLit 3, (lzaBack 3 7 0xFF).dist, (lzaBack 3 7 0xFF).run) = (3, 1024, 10) ∧
    (lzbLit 0xFF, (lzbBack 63 0xFF 0xFF).dist, (lzbBack 63 0xFF 0xFF).run) = (3, 16384, 67) ∧
    (lzcLit 3, (lzcBack 1 3 0xFF 0xFF 0xFF).dist, (lzcBack 1 3 0xFF 0xFF 0xFF).run) = (3, 131072, 1028) ∧
    (lzlitLit 0, lzlitLit 27, lzendLit 3) = (4, 112, 3) := by decide

/-! ### Small states -/

/-- A memory that holds the bytes of a list from index 0 on. -/
def memOf (l : List Byte) : Mem := { cells := (List.range l.length).zip l, gen := 0 }

/-- Idle, with a geometry and a payload, and small memories. -/
def idleState (w h stride : Half) (pm : List Byte) : State :=
  { State.reset with
    cfg := { maxPix := 64, maxFb := 128, pmemBytes := 64, lzcAbortAfterLiteral := false }
    csr := { State.reset.csr with width := w, height := h, stride := stride, plen := BitVec.ofNat 32 pm.length }
    mem := { State.reset.mem with pmem := memOf pm } }

/-- The payload of P3: a trie of one row `LEAF 8, LEAF 4`, and four literal bytes. -/
def payload3 : List Byte := [8, 0, 12, 0, 12, 0, 12, 0, 1, 8, 4, 0x40, 1, 0xC1, 0xC2, 0xC3, 0xC4]

/-- OSD at a node and a bit position, the table segment standing at PMEM 8. -/
def osdState (w : Half) (n : Byte) (sent node : BitVec 9) (bitpos : BitVec 35) (seg : List Byte) : State :=
  let s := idleState w 1 w ([8, 0, 0, 0, 0, 0, 0, 0] ++ seg)
  { s with seq := { s.seq with phase := .osd, huf := 8 }, osd := { n := n, sent := sent, node := node, bitpos := bitpos } }

/-- LZU at the first byte of a stream, which stands at PMEM 9 behind the marker, with some bytes already written. -/
def lzState (w : Half) (lz stream : List Byte) : State :=
  let s := idleState w 1 w ([0, 0, 0, 0, 0, 0, 0, 0, 2] ++ stream)
  { s with
    seq := { s.seq with phase := .lzu, litmode := true, imgoff := 8 }
    lzu := { src := 9 }
    st := { s.st with lzUsed := true, osdEnd := true }
    csr := { s.csr with lzcount := BitVec.ofNat 32 lz.length }
    mem := { s.mem with lzbuf := memOf lz } }

/-- FRP at its first opcode, with the given `FLAG`, a previous frame (none when the list is empty), a size stream, a vector
stream and literal bytes in the payload. -/
def frpState (w h : Half) (flag : Bool) (ops prev sizes vecs lits : List Byte) : State :=
  let s := idleState w h w ([0, 0, 0, 0, 0, 0, 0, 0] ++ sizes ++ vecs ++ [0] ++ lits)
  let v := 8 + sizes.length
  let m := v + vecs.length
  { s with
    seq := { s.seq with
      phase := .frp, sizoff := 8, vecoff := BitVec.ofNat 16 v, imgoff := BitVec.ofNat 16 m
      litbase := BitVec.ofNat 32 (m + 1), litlen := BitVec.ofNat 32 lits.length }
    frp := { x := 0, y := 0, rem := BitVec.ofNat 32 (w.toNat * h.toNat), flag := flag, opc := 0, siz := 8,
             vec := BitVec.ofNat 32 v, lit := 0 }
    st := { s.st with osdEnd := true, prevValid := !prev.isEmpty }
    csr := { s.csr with opcount := BitVec.ofNat 32 ops.length }
    mem := { s.mem with opbuf := memOf ops, fb1 := memOf prev } }

/-- FRP as in `frpState` with `LITMODE = 1`: the given bytes are LZU's output, other bytes stand in the payload. -/
def lzFrpState (w h : Half) (ops lits : List Byte) : State :=
  let s := frpState w h true ops [] [] [] [0xEE, 0xEE, 0xEE, 0xEE]
  { s with
    seq := { s.seq with litmode := true, litbase := 0, litlen := BitVec.ofNat 32 lits.length }
    st := { s.st with lzUsed := true, lzTerm := true }
    csr := { s.csr with lzcount := BitVec.ofNat 32 lits.length }
    mem := { s.mem with lzbuf := memOf lits } }

/-- The state after, if there is one. -/
def after (o : Out) : Option State :=
  match o with
  | .next t => some t
  | _ => none

/-- Cause code and info of the fault recorded. -/
def faultOf (o : Out) : Option (Nat × Nat) := (after o).map fun t => (t.st.cause.toNat, t.csr.faultinfo.toNat)

/-- The bytes written to `CUR`, in address order. -/
def painted (o : Out) : Option (List Nat) := (after o).map fun t => (t.memAt t.cur).cells.map fun c => c.2.toNat

/-- LZBUF's bytes, `LZCOUNT`, and how far `SRC` has moved. -/
def unpacked (o : Out) : Option (List Nat × Nat × Nat) :=
  (after o).map fun t => (t.mem.lzbuf.cells.map fun c => c.2.toNat, t.lzcount, t.lzu.src.toNat - 9)

/-! ### SEQ and OSD -/

/-- V1d: the configuration checks in their order. -/
theorem test_start_config :
    [idleState 0 3 4 payload3, idleState 4 0 4 payload3, idleState 4 3 3 payload3, idleState 10 7 10 payload3,
     idleState 4 3 64 payload3, { idleState 4 3 4 payload3 with csr := { (idleState 4 3 4 []).csr with plen := 65 } },
     idleState 0 3 4 []].map (fun s => faultOf (hostMove (.writeCsr 0 1) s)) =
    [some (1, 1), some (1, 2), some (1, 3), some (1, 4), some (1, 5), some (1, 6), some (1, 1)] := by decide

/-- V1, V1a, V1b, V1c: the header checks in their order, and a header that passes. -/
theorem test_start_header :
    [idleState 4 3 4 (payload3.take 7), idleState 4 3 4 (17 :: payload3.tail), idleState 4 3 4 (payload3.take 12),
     idleState 4 3 4 (payload3.set 4 17), idleState 4 3 4 (payload3.set 6 17), idleState 4 3 4 payload3].map
      (fun s => faultOf (hostMove (.writeCsr 0 1) s)) =
    [some (2, 4), some (2, 0), some (2, 1), some (2, 2), some (2, 3), some (0, 0)] := by decide

/-- V1 and P3: after START the offsets, and OSD's registers. -/
theorem test_start_osd : (after (hostMove (.writeCsr 0 1) (idleState 4 3 4 payload3))).map
      (fun t => (t.seq.huf.toNat, t.seq.imgoff.toNat, t.osd.n.toNat, t.osd.node.toNat, t.osd.bitpos.toNat)) =
    some (8, 12, 1, 0x17, 88) := by decide

/-- V1e: marker 0 at PMEM 12 of a 17-byte payload leaves `LITBASE = 13`, `LITLEN = 4`, `REM = NPIX`. -/
theorem test_imgRaw : (after (exec (.imgRaw 0) { idleState 4 1 4 payload3 with
      seq := { State.reset.seq with phase := .osd, unitDone := true, imgoff := 12 } })).map
      (fun t => (t.seq.litbase.toNat, t.seq.litlen.toNat, t.frp.rem.toNat, t.st.lzUsed)) = some (13, 4, 4, false) := by
  decide

/-- R126, R161: marker 2 starts LZU behind the marker. -/
theorem test_imgLz : (after (exec .imgLz { idleState 4 1 4 payload3 with
      seq := { State.reset.seq with phase := .osd, unitDone := true, imgoff := 12 } })).map
      (fun t => (t.lzu.src.toNat, t.st.lzUsed, t.seq.litmode)) = some (13, true, true) := by decide

/-- V2: the first bit of `40` is 0 and decodes `LEAF 3`. -/
theorem test_leaf : (after (step (osdState 3 1 0x17 0x17 88 [1, 3, 12, 0x40]))).map
      (fun t => (t.mem.opbuf.cells.map (fun c => c.2.toNat), t.opcount, t.osd.bitpos.toNat, t.st.osdCap)) =
    some ([3], 1, 89, false) := by decide

/-- V2: at one pixel the first opcode is the last, by the cap. -/
theorem test_leaf_cap : (after (step (osdState 1 1 0x17 0x17 89 [1, 3, 12, 0x40]))).map
      (fun t => (t.mem.opbuf.cells.map (fun c => c.2.toNat), t.opcount, t.osd.bitpos.toNat, t.st.osdCap)) =
    some ([12], 1, 90, true) := by decide

/-- R151, R143: `END` is reached by consuming its bit; the step after it ends OSD. -/
theorem test_endMark : (after (step (osdState 4 1 0x17 0x17 88 [1, 0x16, 4, 0x40]))).map
      (fun t => (t.osd.node.toNat, t.osd.bitpos.toNat, t.st.osdEnd)) = some (0x16, 89, false) := by decide

/-- V6: `NODE 0x19` is taken; from it bit 0 finds index 2 outside the two-byte table. -/
theorem test_node : (after (step (osdState 4 1 0x17 0x17 88 [1, 0x19, 0x19, 0]))).map
      (fun t => (t.osd.node.toNat, t.osd.bitpos.toNat)) = some (0x19, 89) ∧
    faultOf (step (osdState 4 1 0x17 0x19 89 [1, 0x19, 0x19, 0])) = some (4, 2) := by decide

/-- V5: no bit left. -/
theorem test_osd_overrun : faultOf (step (osdState 4 1 0x17 0x17 88 [1, 3, 12])) = some (3, 11) := by decide

/-! ### LZU -/

/-- V10: the overlapping copy of distance 1. -/
theorem test_lza : unpacked (step (lzState 6 [] [0x09, 0x00, 0xAA])) =
    some ([0xAA, 0xAA, 0xAA, 0xAA, 0xAA, 0xAA], 6, 3) := by decide

/-- V14: distance 2 with one literal and nothing before it. -/
theorem test_lza_range : faultOf (step (lzState 8 [] [0x01, 0x01, 0x55])) = some (6, 9) := by decide

/-- R170's example. -/
theorem test_lzb : unpacked (step (lzState 64 [0x10, 0x11, 0x10, 0x11, 0x10] [0x80, 0x40, 0x04, 0x12])) =
    some ([0x10, 0x11, 0x10, 0x11, 0x10, 0x12, 0x11, 0x10, 0x11, 0x10], 10, 4) := by decide

/-- V15: an operand byte is missing. -/
theorem test_lzb_source : faultOf (step (lzState 8 [] [0x80, 0x00])) = some (5, 9) := by decide

/-- V13: the exact fit is no abort. -/
theorem test_lzc : unpacked (step (lzState 10 [0x10, 0x11, 0x10, 0x11, 0x10] [0xC0, 0, 0, 0])) =
    some ([0x10, 0x11, 0x10, 0x11, 0x10, 0x10, 0x10, 0x10, 0x10, 0x10], 10, 4) := by decide

/-- V12: the abort with the parameter false and true, and true without the literal byte. -/
theorem test_lzc_abort :
    let s := lzState 8 [0x10, 0x11, 0x10, 0x11, 0x10] [0xC1, 0, 0, 0, 0x77]
    let u := lzState 8 [0x10, 0x11, 0x10, 0x11, 0x10] [0xC1, 0, 0, 0]
    unpacked (step s) = some ([0x10, 0x11, 0x10, 0x11, 0x10], 5, 0) ∧
    unpacked (step { s with cfg := { s.cfg with lzcAbortAfterLiteral := true } }) =
      some ([0x10, 0x11, 0x10, 0x11, 0x10, 0x77], 6, 0) ∧
    faultOf (step { u with cfg := { u.cfg with lzcAbortAfterLiteral := true } }) = some (5, 9) := by decide

/-- R174's example. -/
theorem test_lzlit : unpacked (step (lzState 64 [] [0xE0, 0x20, 0x21, 0x22, 0x23])) =
    some ([0x20, 0x21, 0x22, 0x23], 4, 5) := by decide

/-- V15: a literal byte is missing. -/
theorem test_lzlit_source : faultOf (step (lzState 8 [] [0xE0, 1, 2, 3])) = some (5, 9) := by decide

/-- R176's example: the literal is copied and LZU ends. -/
theorem test_lzend : unpacked (step (lzState 64 [] [0xFD, 0x30])) = some ([0x30], 1, 2) ∧
    (after (step (lzState 64 [] [0xFD, 0x30]))).map (fun t => (t.st.lzTerm, t.seq.unitDone)) = some (true, true) := by
  decide

/-- R162: a full destination ends LZU before any fetch. -/
theorem test_lz_full : (after (step (lzState 2 [1, 2] []))).map (fun t => (t.st.lzFull, t.seq.unitDone)) =
    some (true, true) := by decide

/-! ### FRP -/

/-- R201. -/
theorem test_flip : (after (step (frpState 5 1 false [0, 3] [] [] [] []))).map
      (fun t => (t.frp.flag, t.frp.opc.toNat, t.frp.rem.toNat)) = some (true, 1, 5) := by decide

/-- R202 to R209 with the new flag 0: the first `n` literal bytes. -/
theorem test_alt_literal :
    [1, 2, 3, 4, 5, 6, 7, 8].map
      (fun op => painted (step (frpState 8 1 true [op] [] [] [] [1, 2, 3, 4, 5, 6, 7, 8]))) =
    [some [1], some [1, 2], some [1, 2, 3], some [1, 2, 3, 4], some [1, 2, 3, 4, 5], some [1, 2, 3, 4, 5, 6],
     some [1, 2, 3, 4, 5, 6, 7], some [1, 2, 3, 4, 5, 6, 7, 8]] := by decide

/-- R127: with `LITMODE = 1` literal byte `LIT + k` is `LZBUF[LIT + k]`; with `LITMODE = 0` it is `PMEM[LITBASE + LIT + k]`. -/
theorem test_alt_literal_source :
    painted (step (lzFrpState 3 1 [3] [5, 6, 7])) = some [5, 6, 7] ∧
    (let s := lzFrpState 3 1 [2] [5, 6, 7]
     painted (step { s with frp := { s.frp with lit := 1 } }) = some [6, 7]) ∧
    (let s := frpState 3 1 true [2] [] [] [] [8, 9, 10]
     painted (step { s with frp := { s.frp with lit := 1 } }) = some [9, 10]) := by decide

/-- R202 to R209 with the new flag 1: the first `n` pixels of the previous frame. -/
theorem test_alt_previous :
    [1, 2, 3, 4, 5, 6, 7, 8].map
      (fun op => painted (step (frpState 8 1 false [op] [8, 7, 6, 5, 4, 3, 2, 1] [] [] []))) =
    [some [8], some [8, 7], some [8, 7, 6], some [8, 7, 6, 5], some [8, 7, 6, 5, 4], some [8, 7, 6, 5, 4, 3],
     some [8, 7, 6, 5, 4, 3, 2], some [8, 7, 6, 5, 4, 3, 2, 1]] := by decide

/-- S4b, its second step: `ALT3` from `(0,0)` in a row of five. -/
theorem test_alt3_cursor : (after (step (frpState 5 1 true [3] [] [] [] [1, 2, 3]))).map
      (fun t => (t.frp.flag, t.frp.x.toNat, t.frp.y.toNat, t.frp.rem.toNat, t.frp.lit.toNat)) =
    some (false, 3, 0, 2, 3) := by decide

/-- R210 to R212 and V26: the size bytes, most significant first. -/
theorem test_alt_sizes :
    [frpState 3 2 true [9] [] [5] [] [1, 2, 3, 4, 5, 6], frpState 3 2 true [10] [] [0, 4] [] [1, 2, 3, 4, 5, 6],
     frpState 3 2 true [11] [] [0, 0, 6] [] [1, 2, 3, 4, 5, 6]].map
      (fun s => (painted (step s), (after (step s)).map (fun t => t.frp.siz.toNat))) =
    [(some [1, 2, 3, 4, 5], some 9), (some [1, 2, 3, 4], some 10), (some [1, 2, 3, 4, 5, 6], some 11)] := by decide

/-- V26, V28: `ALT.H 256` overflows; `ALT.B` and `ALT.H` without all their size bytes. -/
theorem test_alt_size_faults :
    [frpState 4 1 true [10] [] [1, 0] [] [], { frpState 4 1 true [9] [] [] [] [] with
        csr := { (frpState 4 1 true [9] [] [] [] []).csr with plen := 8 } },
     { frpState 4 1 true [10] [] [0] [] [] with
        csr := { (frpState 4 1 true [10] [] [] [] []).csr with plen := 9 } }].map (fun s => faultOf (step s)) =
    [some (11, 0), some (8, 0), some (8, 0)] := by decide

/-- V28: no previous frame; too few literal bytes; a run longer than what remains. -/
theorem test_alt_faults :
    [frpState 4 1 false [1] [] [] [] [], frpState 4 1 true [4] [] [] [] [1, 2, 3],
     frpState 4 1 true [5] [] [] [] [1, 2, 3, 4, 5, 6, 7, 8]].map (fun s => faultOf (step s)) =
    [some (13, 0), some (10, 0), some (11, 0)] := by decide

/-- R213 to R219 with a vector one pixel to the right: pixels 1 and on of the previous frame. -/
theorem test_mv :
    [12, 13, 14, 15, 16, 17, 18].map
      (fun op => painted (step (frpState 9 1 true [op] [1, 2, 3, 4, 5, 6, 7, 8, 9] [] [0x10] []))) =
    [some [2, 3], some [2, 3, 4], some [2, 3, 4, 5], some [2, 3, 4, 5, 6], some [2, 3, 4, 5, 6, 7],
     some [2, 3, 4, 5, 6, 7, 8], some [2, 3, 4, 5, 6, 7, 8, 9]] := by decide

/-- V25: a displaced run whose read and write cursors wrap independently, from column 2 with vector `E1`. -/
theorem test_mv_wrap :
    let s := frpState 4 2 true [14] [1, 2, 3, 4, 5, 6, 7, 8] [] [0xE1] []
    (after (step { s with frp := { s.frp with x := 2, rem := 6 } })).map
      (fun t => (t.mem.fb0.cells.map (fun c => (c.1, c.2.toNat)), t.frp.flag, t.frp.x.toNat, t.frp.y.toNat)) =
    some ([(2, 5), (3, 6), (4, 7), (5, 8)], false, 2, 1) := by decide

/-- R220 to R222 and V26: the size bytes, then the vector byte. -/
theorem test_mv_sizes :
    [frpState 3 2 true [19] [1, 2, 3, 4, 5, 6] [4] [0] [], frpState 3 2 true [20] [1, 2, 3, 4, 5, 6] [0, 5] [0] [],
     frpState 3 2 true [21] [1, 2, 3, 4, 5, 6] [0, 0, 6] [0] []].map
      (fun s => (painted (step s), (after (step s)).map (fun t => (t.frp.siz.toNat, t.frp.vec.toNat)))) =
    [(some [1, 2, 3, 4], some (9, 10)), (some [1, 2, 3, 4, 5], some (10, 11)),
     (some [1, 2, 3, 4, 5, 6], some (11, 12))] := by decide

/-- V24, V27, V28: ranges, a zero size, no vector byte, no previous frame. -/
theorem test_mv_faults :
    [frpState 4 1 true [13] [1, 2, 3, 4] [] [0x20] [], frpState 4 1 true [12] [1, 2, 3, 4] [] [0xF0] [],
     frpState 4 1 true [12] [1, 2, 3, 4] [] [0x08] [], frpState 4 1 true [19] [] [0] [0x77] [],
     { frpState 4 1 true [14] [1, 2, 3, 4] [] [] [] with
        csr := { (frpState 4 1 true [14] [] [] [] []).csr with plen := 8 } },
     frpState 4 1 true [12] [] [] [0] []].map (fun s => faultOf (step s)) =
    [some (12, 0), some (12, 0), some (12, 0), some (0, 0), some (9, 0), some (13, 0)] := by decide

/-- V28, V29: no opcode left; a reserved opcode; at `REM = 0` the decode completes and fetches nothing. -/
theorem test_frp_loop :
    faultOf (step (frpState 4 1 true [] [] [] [] [])) = some (7, 0) ∧
    faultOf (step (frpState 4 1 true [22] [] [] [] [])) = some (14, 0) ∧
    (after (step { frpState 4 1 true [9] [] [] [] [] with
      frp := { (frpState 4 1 true [9] [] [] [] []).frp with rem := 0 } })).map
      (fun t => (t.st.done, t.st.prevValid, t.st.cursel, t.busy)) = some (true, true, true, false) := by decide

/-! ### The host -/

/-- P1's end state has `STATUS = 0x3A` (R35). -/
theorem test_status : (State.statusWord { State.reset with
    st := { State.reset.st with done := true, prevValid := true, cursel := true, osdEnd := true } }).toNat = 0x3A := by
  decide

/-- The payload of a decode whose boundaries are, from the start step on: `LEAF 4`, `END`, end of OSD, `IMG.LZ`, `LZLIT`
of four bytes, end of LZU by a full destination, the literal-source step; then FRP has no previous frame. -/
def payloadLz : List Byte := [8, 0, 12, 0, 12, 0, 12, 0, 1, 4, 0x16, 0x40, 2, 0xE0, 1, 2, 3, 4]

/-- R43: what each boundary of that decode shows in LZCOUNT, OPCOUNT and STATUS to a read made at its first and at its
sixth boundary; a decode with a raw literal source never shows an LZCOUNT but 0. -/
theorem test_busy_reads :
    let t := (idleState 4 1 4 payloadLz).start
    (∀ u ∈ [t, t.runBusy 5],
      (List.range 9).map (fun k => (u.csrValueBusy 8 k).toNat) = [0, 0, 0, 0, 0, 4, 4, 4, 4] ∧
      (List.range 9).map (fun k => (u.csrValueBusy 7 k).toNat) = [0, 1, 1, 1, 1, 1, 1, 1, 1] ∧
      (List.range 9).map (fun k => (u.csrValueBusy 1 k).toNat) =
        [0x1, 0x1, 0x1, 0x21, 0xA1, 0xA1, 0x2A1, 0x2A1, 0x2A1]) ∧
    (List.range 40).all (fun k => ((idleState 4 3 4 payload3).start.csrValueBusy 8 k).toNat = 0) = true := by decide

/-- R36: only a write that changes the geometry clears `PREV_VALID`, and only bits 15:0 are stored. -/
theorem test_stride_write :
    let s := { idleState 4 3 4 [] with st := { State.reset.st with prevValid := true } }
    (after (hostMove (.writeCsr 4 0x00050004) s)).map (fun t => (t.stride, t.st.prevValid)) = some (4, true) ∧
    (after (hostMove (.writeCsr 4 6) s)).map (fun t => (t.stride, t.st.prevValid)) = some (6, false) := by decide

/-- A table word decodes, and the first step after reset runs it: `LZC`, control byte `C4` (its operand bytes 0). -/
theorem test_first_step_lz : decodeTableWord 8 0xC4 = some (.lzc 0 1 0 0 0 0) ∧
    step (State.reset.withFetchWord 8 0xC4) = exec (.lzc 0 1 0 0 0 0) (State.reset.withFetchWord 8 0xC4) := ⟨rfl, rfl⟩

/-- The same of an opcode and of a trie entry. -/
theorem test_first_step_op : decodeTableWord 8 0x15 = some .mvT ∧ decodeTableWord 8 0x17 = some (.node 0x17) ∧
    step (State.reset.withFetchWord 8 0x15) = exec .mvT (State.reset.withFetchWord 8 0x15) ∧
    step (State.reset.withFetchWord 8 0x17) = exec (.node 0x17) (State.reset.withFetchWord 8 0x17) :=
  ⟨rfl, rfl, rfl, rfl⟩

/-! ### Witnesses: for each obligation with hypotheses, a concrete state and operands that meet them -/

/-- OSD at the root of V2's table, nothing emitted yet. -/
def osdWitness : State := osdState 4 1 0x17 0x17 88 [1, 3, 12, 0x40]

/-- LZU at V10's instruction. -/
def lzWitness : State := lzState 6 [] [0x09, 0x00, 0xAA]

/-- FRP at `MV2`, with a previous frame, a literal byte and `FLAG = 1`. -/
def frpWitness : State := frpState 4 1 true [12, 1] [1, 2, 3, 4] [] [0x10] [0x0A]

/-- FRP with its one pixel painted. -/
def doneWitness : State :=
  let s := frpState 1 1 false [1] [5] [] [] [7]
  { s with
    frp := { s.frp with x := 0, y := 1, rem := 0, opc := 1, flag := true }
    mem := { s.mem with fb0 := memOf [5] } }

/-- `osdWitness` with END reached (R151), and one step from the cap. -/
def osdEndWitness : State := osdState 4 1 0x17 0x16 89 [1, 0x16, 12, 0x40]

theorem inv_osdWitness : osdWitness.Inv := by
  refine ⟨by decide, by constructor <;> decide, by constructor <;> decide,
    fun _ => ⟨by constructor <;> decide, by constructor <;> decide⟩,
    fun _ => by constructor <;> first | decide | rfl, fun h => absurd h (by decide), fun h => absurd h (by decide)⟩

theorem inv_lzWitness : lzWitness.Inv := by
  refine ⟨by decide, by constructor <;> decide, by constructor <;> decide,
    fun _ => ⟨by constructor <;> decide, by constructor <;> decide⟩, fun h => absurd h (by decide),
    fun _ => by constructor <;> first | decide | rfl, fun h => absurd h (by decide)⟩

theorem inv_frpWitness : frpWitness.Inv := by
  refine ⟨by decide, by constructor <;> decide, by constructor <;> decide,
    fun _ => ⟨by constructor <;> decide, by constructor <;> decide⟩, fun h => absurd h (by decide),
    fun h => absurd h (by decide), fun _ => ⟨by decide, by decide, by decide, by decide, by decide, by decide, by decide,
      by decide, by decide, by decide, by decide, by decide, by decide, fun a => ⟨fun h => ?_, fun h => ?_⟩⟩⟩
  · exact nomatch (show false = true from h)
  · obtain ⟨k, hk, _⟩ := h
    exact absurd hk (Nat.not_lt_zero k)

theorem inv_doneWitness : doneWitness.Inv := by
  refine ⟨by decide, by constructor <;> decide, by constructor <;> decide,
    fun _ => ⟨by constructor <;> decide, by constructor <;> decide⟩, fun h => absurd h (by decide),
    fun h => absurd h (by decide), fun _ => ⟨by decide, by decide, by decide, by decide, by decide, by decide, by decide,
      by decide, by decide, by decide, by decide, by decide, by decide, fun a => ⟨fun h => ?_, fun h => ?_⟩⟩⟩
  · refine ⟨0, by decide, ?_⟩
    by_contra hne
    have : (lookupCell a [((0 : Nat), (5 : Byte))]).isSome = true := h
    simp only [lookupCell] at this
    rw [if_neg (fun e => hne e.symm)] at this
    exact nomatch this
  · obtain ⟨k, hk, rfl⟩ := h
    have : k = 0 := Nat.lt_one_iff.1 hk
    subst this
    decide

theorem witness_DecodeOfEncode : (Instr.lzlit 27).wf = true ∧ (Instr.node 0x17).wf = true ∧ Instr.mvT.wf = true := by
  decide
theorem witness_EncodeOfDecode : decode .lz [0x7F, 0xFF, 1] = .ok (.lza 3 7 3 0xFF, [1]) := rfl
theorem witness_FormsCoverBytes :
    [0x7F, 0x80, 0xBF, 0xC0, 0xDF, 0xE0, 0xFB, 0xFC].map lzForm = [.a, .b, .b, .c, .c, .lit, .lit, .term] ∧
    (decodeOp 21).isSome = true ∧ decodeOp 22 = none := by decide
theorem witness_LzFields :
    [0x00, 0x80, 0xC0, 0xE0, 0xFF].map lzForm = [.a, .b, .c, .lit, .term] := by decide

/-- One state for each of the four formats. -/
theorem witness_StepRunsDecoded :
    (∃ s : State, s.inputs = [] ∧ s.seq.phase = .osd ∧ s.seq.unitDone = true ∧ s.seq.imgoff.toNat < s.size .pmem ∧
      decode .imgm [s.byte .pmem s.seq.imgoff.toNat] = .ok (.imgRaw 1, [])) ∧
    (∃ s : State, s.inputs = [] ∧ s.seq.phase = .osd ∧ s.seq.unitDone = false ∧ s.plen ≤ s.size .pmem ∧
      nodeBias ≤ s.osd.node.toNat ∧ s.osd.bitpos.toNat / 8 < s.plen ∧ s.tableIndex < 2 * s.osd.n.toNat ∧
      s.tableAddr < s.plen ∧ decode .trie [s.byte .pmem s.tableAddr] = .ok (.leaf 3, [])) ∧
    (∃ s : State, s.inputs = [] ∧ s.seq.phase = .lzu ∧ s.seq.unitDone = false ∧ s.plen ≤ s.size .pmem ∧
      s.lzcount < s.npix ∧ s.lzu.src.toNat + 2 ≤ s.plen ∧
      decode .lz ((List.range' s.lzu.src.toNat 2).map (s.byte .pmem)) = .ok (.lza 0 2 1 0, [])) ∧
    (∃ s : State, s.inputs = [] ∧ s.seq.phase = .frp ∧ s.frp.rem.toNat ≠ 0 ∧ s.frp.opc.toNat < s.opcount ∧
      s.frp.opc.toNat < s.size .opbuf ∧ decode .op [s.byte .opbuf s.frp.opc.toNat] = .ok (.mv2, [])) := by
  refine ⟨⟨{ idleState 4 1 4 payload3 with seq := { State.reset.seq with phase := .osd, unitDone := true, imgoff := 12 } },
    rfl, rfl, rfl, by decide, rfl⟩, ⟨osdWitness, rfl, rfl, rfl, by decide, by decide, by decide, by decide, by decide, rfl⟩,
    ⟨lzWitness, rfl, rfl, rfl, by decide, by decide, by decide, rfl⟩,
    ⟨frpWitness, rfl, rfl, by decide, by decide, by decide, rfl⟩⟩

theorem witness_PlacedInstructionRuns : (Instr.lzc 1 3 3 0xFF 0xFF 0xFF).wf = true ∧ (Instr.leaf 0x15).wf = true := by
  decide

/-- A START that goes on to OSD and one that faults at once (`test_start_config` and `test_start_header` have one state
for each clause of the two checks). -/
theorem witness_StartClears :
    (∃ t, (idleState 4 3 4 payload3).busy = false ∧ (1 : Word).getLsbD 0 = true ∧
      hostMove (.writeCsr 0 1) (idleState 4 3 4 payload3) = .next t ∧ t.seq.phase = .osd) ∧
    (∃ t, (idleState 0 3 4 payload3).busy = false ∧
      hostMove (.writeCsr 0 1) (idleState 0 3 4 payload3) = .next t ∧ t.st.fault = true) :=
  ⟨⟨_, by decide, by decide, rfl, by decide⟩, ⟨_, by decide, rfl, by decide⟩⟩

theorem witness_StartConfigCheck :
    (∃ t, (idleState 4 3 4 payload3).busy = false ∧ (1 : Word).getLsbD 0 = true ∧
      hostMove (.writeCsr 0 1) (idleState 4 3 4 payload3) = .next t) ∧
    ((idleState 0 3 4 []).w < 1 ∧ (idleState 4 0 4 []).h < 1 ∧ (idleState 4 3 3 []).stride < 4 ∧
      (idleState 13 5 13 []).cfg.maxPix + 1 = 13 * 5 ∧ (idleState 1 2 64 []).cfg.maxFb = 64 * 2 ∧
      (idleState 1 3 43 []).cfg.maxFb + 1 = 43 * 3) := by
  refine ⟨⟨_, by decide, by decide, rfl⟩, by decide⟩

theorem witness_StartHeaderParse : ∃ t, (idleState 4 3 4 payload3).busy = false ∧
    (idleState 4 3 4 payload3).configError? = none ∧
    hostMove (.writeCsr 0 1) (idleState 4 3 4 payload3) = .next t ∧ t.st.fault = false :=
  ⟨_, by decide, by decide, rfl, by decide⟩

theorem witness_OsdInitialStep : ∃ t, (idleState 4 3 4 payload3).busy = false ∧
    hostMove (.writeCsr 0 1) (idleState 4 3 4 payload3) = .next t ∧ t.seq.phase = .osd := ⟨_, by decide, rfl, by decide⟩

theorem witness_ImgRawEffect : (idleState 4 1 4 payload3).seq.imgoff.toNat < (idleState 4 1 4 payload3).plen := by decide

theorem witness_LiteralSourceAfterLzu :
    let s := { lzWitness with seq := { lzWitness.seq with unitDone := true } }
    s.inputs = [] ∧ s.seq.phase = .lzu ∧ s.seq.unitDone = true ∧ s.seq.litmode = true := by decide

theorem witness_CompletionStep : doneWitness.inputs = [] ∧ doneWitness.seq.phase = .frp ∧ doneWitness.frp.rem.toNat = 0 := by
  decide

/-- The last leaf before the cap, and one that is not the last. -/
theorem witness_LeafEffect :
    (osdWitness.opcount < osdWitness.size .opbuf ∧ osdWitness.opcount + 1 < 2 ^ 32 ∧
      osdWitness.osd.bitpos.toNat + 1 < 2 ^ 35 ∧ osdWitness.opcount + 1 ≠ osdWitness.npix) ∧
    (osdState 1 1 0x17 0x17 88 [1, 3, 12, 0x40]).opcount + 1 = (osdState 1 1 0x17 0x17 88 [1, 3, 12, 0x40]).npix := by
  decide

theorem witness_EndMarkEffect : osdWitness.osd.bitpos.toNat + 1 < 2 ^ 35 ∧ osdWitness.inputs = [] ∧
    osdWitness.seq.phase = .osd ∧ osdWitness.seq.unitDone = false := by decide
theorem witness_NodeEffect : osdWitness.osd.bitpos.toNat + 1 < 2 ^ 35 := by decide

/-- At the end mark, and at a node. -/
theorem witness_OsdStepOrder :
    (∀ s ∈ [osdWitness, osdEndWitness], s.inputs = [] ∧ s.seq.phase = .osd ∧ s.seq.unitDone = false ∧
      s.plen ≤ s.size .pmem ∧ 0x16 ≤ s.osd.node.toNat) ∧ osdEndWitness.osd.node.toNat = 0x16 := by decide

theorem witness_LzFetchOrder : lzWitness.inputs = [] ∧ lzWitness.seq.phase = .lzu ∧ lzWitness.seq.unitDone = false ∧
    lzWitness.plen ≤ lzWitness.size .pmem := by decide

/-- `LZA`, `LZB` and an `LZC` that exactly fits. -/
theorem witness_LzBackReferenceEffect :
    (LzBackForm (.lza 0 2 1 0) 1 1 (lzaBack 0 2 0) ∧ lzWitness.Geometry ∧ lzWitness.lzcount < lzWitness.npix ∧
      lzWitness.lzu.src.toNat + 1 + 1 + 1 ≤ lzWitness.plen ∧ (lzaBack 0 2 0).dist ≤ lzWitness.lzcount + 1) ∧
    (let s := lzState 64 [0x10, 0x11, 0x10, 0x11, 0x10] [0x80, 0x40, 0x04, 0x12]
     LzBackForm (.lzb 0 0x40 0x04) 2 1 (lzbBack 0 0x40 0x04) ∧ s.lzcount < s.npix ∧
      s.lzu.src.toNat + 1 + 2 + 1 ≤ s.plen ∧ (lzbBack 0 0x40 0x04).dist ≤ s.lzcount + 1) ∧
    (let s := lzState 10 [0x10, 0x11, 0x10, 0x11, 0x10] [0xC0, 0, 0, 0]
     LzBackForm (.lzc 0 0 0 0 0 0) 3 0 (lzcBack 0 0 0 0 0) ∧ s.lzcount < s.npix ∧
      s.lzu.src.toNat + 1 + 3 + 0 ≤ s.plen ∧ (lzcBack 0 0 0 0 0).dist ≤ s.lzcount + 0 ∧
      s.lzcount + 0 + (lzcBack 0 0 0 0 0).run = s.npix) := by
  refine ⟨⟨.a 0 2 1 0, by constructor <;> decide, by decide, by decide, by decide⟩,
    ⟨.b 0 0x40 0x04, by decide, by decide, by decide⟩, ⟨.c 0 0 0 0 0 0, by decide, by decide, by decide, by decide⟩⟩

/-- The distance equal to the position, and inside and outside bytes of a run of five. -/
theorem witness_BackCopyPeriodic : (1 : Nat) ≤ 1 ∧ (1 : Nat) ≤ 1 ∧ (4 : Nat) < 5 ∧ ((0 : Nat) < 1 ∨ 1 + 5 ≤ 0) ∧
    ((6 : Nat) < 1 ∨ 1 + 5 ≤ 6) := by decide

theorem witness_LzLiteralEffect :
    let s := lzState 64 [] [0xE0, 0x20, 0x21, 0x22, 0x23]
    s.Geometry ∧ s.lzcount < s.npix ∧ (0 : BitVec 5).toNat ≤ 27 ∧ (27 : BitVec 5).toNat ≤ 27 ∧
      s.lzu.src.toNat + 1 + (4 * (0 : BitVec 5).toNat + 4) ≤ s.plen ∧ s.lzu.src.toNat + 1 + (3 : BitVec 2).toNat ≤ s.plen :=
  ⟨by constructor <;> decide, by decide⟩

/-- V12: both values of the parameter, with and without the literal byte. -/
theorem witness_LzcAbort :
    let s := lzState 8 [0x10, 0x11, 0x10, 0x11, 0x10] [0xC1, 0, 0, 0, 0x77]
    let u := lzState 8 [0x10, 0x11, 0x10, 0x11, 0x10] [0xC1, 0, 0, 0]
    let on := fun (x : State) => { x with cfg := { x.cfg with lzcAbortAfterLiteral := true } }
    s.Geometry ∧ (on s).Geometry ∧ (on u).Geometry ∧ s.lzcount < s.npix ∧
      s.npix < s.lzcount + lzcLit 1 + (lzcBack 0 0 0 0 0).run ∧ s.cfg.lzcAbortAfterLiteral = false ∧
      (on s).lzu.src.toNat + 4 + lzcLit 1 ≤ (on s).plen ∧ (on u).plen < (on u).lzu.src.toNat + 4 + lzcLit 1 :=
  ⟨by constructor <;> decide, by constructor <;> decide, by constructor <;> decide, by decide⟩

/-- V15 and V14: a missing literal byte, and a distance one too far. -/
theorem witness_LzFaultOrder :
    (LzBackForm (.lza 0 0 1 1) 1 1 (lzaBack 0 0 1) ∧
      (lzState 8 [] [0x01, 0x01]).plen < (lzState 8 [] [0x01, 0x01]).lzu.src.toNat + 1 + 1 + 1 ∧
      (lzState 8 [] [0x01, 0x01, 0x55]).lzu.src.toNat + 1 + 1 + 1 ≤ (lzState 8 [] [0x01, 0x01, 0x55]).plen ∧
      (lzState 8 [] [0x01, 0x01, 0x55]).lzcount + 1 < (lzaBack 0 0 1).dist) ∧
    (lzState 8 [] [0xE0, 1, 2, 3]).plen < (lzState 8 [] [0xE0, 1, 2, 3]).lzu.src.toNat + 1 + (4 * (0 : BitVec 5).toNat + 4) ∧
    (lzState 8 [] [0xFF, 1, 2]).plen < (lzState 8 [] [0xFF, 1, 2]).lzu.src.toNat + 1 + (3 : BitVec 2).toNat :=
  ⟨⟨.a 0 0 1 1, by decide, by decide, by decide⟩, by decide, by decide⟩

/-- An instruction of family A, and one of family C. -/
theorem witness_LzOvershoot :
    (∃ t, lzWitness.Geometry ∧ lzWitness.inputs = [] ∧ lzWitness.seq.phase = .lzu ∧ lzWitness.seq.unitDone = false ∧
      lzWitness.lzcount < lzWitness.npix ∧ step lzWitness = .next t) ∧
    (let s := lzState 10 [0x10, 0x11, 0x10, 0x11, 0x10] [0xC0, 0, 0, 0]
     ∃ t, s.Geometry ∧ s.lzcount < s.npix ∧ step s = .next t ∧ s.cfg.lzcAbortAfterLiteral = false ∧
      lzForm (s.byte .pmem s.lzu.src.toNat) = .c) :=
  ⟨⟨_, by constructor <;> decide, by decide, by decide, by decide, by decide, rfl⟩,
   ⟨_, by constructor <;> decide, by decide, rfl, by decide, by decide⟩⟩

theorem witness_FlipEffect : frpWitness.frp.opc.toNat < frpWitness.opcount := by decide

/-- One state for each of the four clauses, the opcodes 21 and 22 among them. -/
theorem witness_FrpFetchOrder :
    (∀ s ∈ [doneWitness, frpState 4 1 true [] [] [] [] [], frpState 4 1 true [22] [] [] [] [],
        frpState 4 1 true [21] [] [] [] []],
      s.inputs = [] ∧ s.seq.phase = .frp ∧ s.opcount ≤ s.size .opbuf) ∧
    doneWitness.frp.rem.toNat = 0 ∧
    ((frpState 4 1 true [] [] [] [] []).frp.rem.toNat ≠ 0 ∧
      (frpState 4 1 true [] [] [] [] []).opcount ≤ (frpState 4 1 true [] [] [] [] []).frp.opc.toNat) ∧
    22 ≤ ((frpState 4 1 true [22] [] [] [] []).byte .opbuf 0).toNat ∧
    ((frpState 4 1 true [21] [] [] [] []).byte .opbuf 0).toNat < 22 := by decide

/-- The first and the last opcode of each range of the size rule. -/
theorem witness_RunSizes :
    [1, 8, 9, 10, 11, 12, 18, 19, 20, 21].map decodeOp =
      [some .alt1, some .alt8, some .altB, some .altH, some .altT, some .mv2, some .mv8, some .mvB, some .mvH, some .mvT] ∧
    ∀ p ∈ [(Instr.alt1, SizeSrc.imm 1), (.alt8, .imm 8), (.altB, .size8), (.altH, .size16), (.altT, .size24),
        (.mv2, .imm 2), (.mv8, .imm 8), (.mvB, .size8), (.mvH, .size16), (.mvT, .size24)],
      p ∈ altForms ++ mvForms := by decide

/-- A literal run that takes all of a row, one of three size bytes, and one from LZBUF. -/
theorem witness_AltLiteralEffect :
    ∀ p ∈ [(Instr.alt3, SizeSrc.imm 3, frpState 3 2 true [3] [] [] [] [1, 2, 3]),
           (.altT, .size24, frpState 3 2 true [11] [] [0, 0, 6] [] [1, 2, 3, 4, 5, 6]),
           (.alt3, .imm 3, lzFrpState 3 1 [3] [5, 6, 7])],
      (p.1, p.2.1) ∈ altForms ∧ p.2.2.frp.opc.toNat < p.2.2.opcount ∧ p.2.2.frp.flag = true ∧
      p.2.2.frp.siz.toNat + p.2.1.bytes ≤ p.2.2.plen ∧ p.2.2.runSize p.2.1 ≤ p.2.2.frp.rem.toNat ∧
      p.2.2.frp.lit.toNat + p.2.2.runSize p.2.1 ≤ p.2.2.seq.litlen.toNat := by decide

theorem frpReady_literal : (frpState 3 2 true [11] [] [0, 0, 6] [] [1, 2, 3, 4, 5, 6]).FrpReady ∧
    (frpState 3 2 true [11] [] [0, 0, 6] [] [1, 2, 3, 4, 5, 6]).seq.litmode = false ∧
    (lzFrpState 3 1 [3] [5, 6, 7]).FrpReady ∧ (lzFrpState 3 1 [3] [5, 6, 7]).seq.litmode = true :=
  ⟨⟨by constructor <;> decide, by decide, by decide, by decide, by decide⟩, by decide,
   ⟨by constructor <;> decide, by decide, by decide, by decide, by decide⟩, by decide⟩

theorem witness_AltPreviousEffect :
    let s := frpState 4 1 false [4] [1, 2, 3, 4] [] [] []
    s.FrpReady ∧ (Instr.alt4, SizeSrc.imm 4) ∈ altForms ∧ s.frp.opc.toNat < s.opcount ∧ s.frp.flag = false ∧
      s.frp.siz.toNat + (SizeSrc.imm 4).bytes ≤ s.plen ∧ s.runSize (.imm 4) ≤ s.frp.rem.toNat ∧ s.st.prevValid = true :=
  ⟨⟨by constructor <;> decide, by decide, by decide, by decide, by decide⟩, by decide⟩

/-- A run of three pixels whose displaced read ends at the last pixel of the frame. -/
theorem witness_MvEffect :
    let s := frpState 4 1 true [13] [1, 2, 3, 4] [] [0x10] []
    let v := s.byte .pmem s.frp.vec.toNat
    s.FrpReady ∧ (Instr.mv3, SizeSrc.imm 3) ∈ mvForms ∧ s.frp.opc.toNat < s.opcount ∧
      s.frp.siz.toNat + (SizeSrc.imm 3).bytes ≤ s.plen ∧ s.runSize (.imm 3) ≤ s.frp.rem.toNat ∧
      s.frp.vec.toNat < s.plen ∧ s.st.prevValid = true ∧ vecDx v = 1 ∧ vecDy v = 0 ∧
      (0 : Int) * s.w + 1 + s.runSize (.imm 3) = s.w * s.h :=
  ⟨⟨by constructor <;> decide, by decide, by decide, by decide, by decide⟩, by decide⟩

/-- V27: `MV.B 0` and `ALT.B 0`. -/
theorem witness_ZeroSizeRuns :
    let s := frpState 4 1 true [19] [] [0] [0x77] []
    s.Geometry ∧ (Instr.mvB, SizeSrc.size8) ∈ mvForms ∧ (Instr.altB, SizeSrc.size8) ∈ altForms ∧
      s.frp.x.toNat < s.w ∧ s.runSize .size8 = 0 ∧ s.frp.siz.toNat + 1 ≤ s.plen ∧ s.frp.opc.toNat < s.opcount ∧
      s.frp.lit.toNat ≤ s.seq.litlen.toNat ∧ s.frp.vec.toNat < s.plen := ⟨by constructor <;> decide, by decide⟩

/-- One state for each clause, at the first value that fails the check. -/
theorem witness_AltFaultOrder :
    (let s := { frpState 4 1 true [10] [] [0] [] [] with
        csr := { (frpState 4 1 true [10] [] [0] [] []).csr with plen := 9 } }
     s.plen ≤ s.size .pmem ∧ 1 ≤ s.w ∧ s.plen + 1 = s.frp.siz.toNat + SizeSrc.size16.bytes) ∧
    (let s := frpState 4 1 true [5] [] [] [] [1, 2, 3, 4, 5]
     s.plen ≤ s.size .pmem ∧ 1 ≤ s.w ∧ s.frp.rem.toNat + 1 = s.runSize (.imm 5)) ∧
    (let s := frpState 4 1 false [4] [] [] [] []
     s.runSize (.imm 4) = s.frp.rem.toNat ∧ s.frp.flag = false ∧ 1 ≤ s.runSize (.imm 4) ∧ s.st.prevValid = false) ∧
    (let s := frpState 4 1 true [4] [] [] [] [1, 2, 3]
     s.runSize (.imm 4) = s.frp.rem.toNat ∧ s.frp.flag = true ∧
      s.seq.litlen.toNat + 1 = s.frp.lit.toNat + s.runSize (.imm 4)) := by decide

/-- One state for each clause, the range clause at the first displacement that leaves the frame. -/
theorem witness_MvFaultOrder :
    (let s := { frpState 4 1 true [20] [] [0] [] [] with
        csr := { (frpState 4 1 true [20] [] [0] [] []).csr with plen := 9 } }
     s.plen ≤ s.size .pmem ∧ 1 ≤ s.w ∧ s.plen + 1 = s.frp.siz.toNat + SizeSrc.size16.bytes) ∧
    (let s := frpState 4 1 true [15] [] [] [0] []
     s.frp.rem.toNat + 1 = s.runSize (.imm 5)) ∧
    (let s := { frpState 4 1 true [14] [1, 2, 3, 4] [] [] [] with
        csr := { (frpState 4 1 true [14] [] [] [] []).csr with plen := 8 } }
     s.runSize (.imm 4) = s.frp.rem.toNat ∧ s.plen = s.frp.vec.toNat) ∧
    (let s := frpState 4 1 true [12] [] [] [0] []
     s.frp.vec.toNat < s.plen ∧ 1 ≤ s.runSize (.imm 2) ∧ s.st.prevValid = false) ∧
    (let s := frpState 4 1 true [13] [1, 2, 3, 4] [] [0x20] []
     s.st.prevValid = true ∧ vecDx (s.byte .pmem s.frp.vec.toNat) = 2 ∧
      ¬((0 : Int) * s.w + 2 + s.runSize (.imm 3) ≤ s.w * s.h)) := by decide

theorem witness_VectorComponents : [0x7F, 0x80, 0xF7, 0x08].map (fun v => (vecDx v, vecDy v)) =
    [(7, -1), (-8, 0), (-1, 7), (0, -8)] := by decide

theorem witness_RasterOrder : (3 : Nat) < 4 ∧ (7 : Nat) < 8 ∧ pixelAddrs 4 6 3 (3, 0) = [3, 6, 7] := by decide

theorem witness_MotionReadsInsideFrame :
    let s := frpState 4 1 true [13] [1, 2, 3, 4] [] [0x10] []
    s.motionInside 3 1 0 = true ∧ 3 ∈ s.prevAddrs 3 1 0 := by decide

theorem witness_CompletedFrameIsWhole : doneWitness.Inv ∧ doneWitness.inputs = [] ∧ doneWitness.seq.phase = .frp ∧
    doneWitness.frp.rem.toNat = 0 := ⟨inv_doneWitness, by decide⟩

theorem witness_FaultEntry : (4294967295 : Nat) < 2 ^ 32 := by decide

/-- `FRP_NO_PREV` in a step, and in the execution of the opcode. -/
theorem witness_FaultsArePrecise :
    let s := frpState 4 1 false [1] [] [] [] []
    s.inputs = [] ∧ s.st.fault = false ∧ ∃ t, step s = .next t ∧ t.st.fault = true :=
  ⟨by decide, by decide, _, rfl, by decide⟩
theorem witness_FaultTable :
    let s := frpState 4 1 false [1] [] [] [] []
    s.st.fault = false ∧ ∃ t, exec .alt1 s = .next t ∧ t.st.fault = true := ⟨by decide, _, rfl, by decide⟩

/-- A recorded fault and a host that does nothing, restarts, or resets. -/
theorem witness_FaultKept :
    let s := (frpState 4 1 false [1] [] [] [] []).raise .frpNoPrev 0
    s.st.fault = true ∧ s.busy = false ∧ (∃ t, step s = .next t) ∧
      (∃ t, step { s with inputs := [some (.writeCsr 0 1)] } = .next t) ∧
      ∃ t, step { s with inputs := [some .reset] } = .next t := ⟨by decide, by decide, ⟨_, rfl⟩, ⟨_, rfl⟩, ⟨_, rfl⟩⟩

theorem witness_BusyHostMoves : osdWitness.busy = true := by decide
/-- One clause for each kind of CSR number, the first and the last of the range without a register among them. -/
theorem witness_BusyCsrReads : lzWitness.busy = true ∧ (idleState 4 1 4 payloadLz).start.busy = true ∧
    (9 : Nat) ≤ 9 ∧ (8 : Nat) < 9 := by decide
theorem witness_BusyReadsShowThisDecode : ∃ t, (idleState 4 1 4 payloadLz).busy = false ∧ (1 : Word).getLsbD 0 = true ∧
    hostMove (.writeCsr 0 1) (idleState 4 1 4 payloadLz) = .next t ∧ t.busy = true := ⟨_, by decide, by decide, rfl, by decide⟩
theorem witness_IdleCsrWrites : (idleState 4 3 4 []).busy = false ∧ (2 : Word).getLsbD 0 = false := by decide
theorem witness_IdleCsrReads : (idleState 4 3 4 []).busy = false := by decide
theorem witness_IdleMemoryMoves : (idleState 4 3 4 []).busy = false ∧ 63 < (idleState 4 3 4 []).size .pmem ∧
    127 < (idleState 4 3 4 []).size (bankOf true) := by decide
theorem witness_IdleStays : (idleState 4 3 4 []).busy = false ∧ (idleState 4 3 4 []).inputs = [] := by decide

/-- Completion flips `CURSEL` and sets `PREV_VALID`; a geometry write clears it. -/
theorem witness_FramePairChanges :
    (∃ t, step doneWitness = .next t ∧ t.st.cursel ≠ doneWitness.st.cursel) ∧
    (let s := { doneWitness with st := { doneWitness.st with prevValid := false } }
     ∃ t, step s = .next t ∧ t.st.prevValid = true) ∧
    (let s := { idleState 4 3 4 [] with
        st := { State.reset.st with prevValid := true }, inputs := [some (.writeCsr 2 5)] }
     ∃ t, step s = .next t ∧ s.st.prevValid = true ∧ t.st.prevValid = false) :=
  ⟨⟨_, rfl, by decide⟩, ⟨_, rfl, by decide⟩, ⟨_, rfl, by decide, by decide⟩⟩

/-- A step of each unit. -/
theorem witness_CursorsAdvance :
    (osdWitness.Inv ∧ osdWitness.inputs = [] ∧ osdWitness.seq.phase = .osd ∧ osdWitness.osd.node.toNat ≠ 0x16 ∧
      ∃ t, step osdWitness = .next t ∧ t.st.fault = false) ∧
    (lzWitness.Inv ∧ lzWitness.inputs = [] ∧ lzWitness.seq.phase = .lzu ∧ lzWitness.lzcount < lzWitness.npix ∧
      ∃ t, step lzWitness = .next t ∧ t.st.fault = false ∧ t.st.lzTrunc = false) ∧
    (frpWitness.Inv ∧ frpWitness.inputs = [] ∧ frpWitness.seq.phase = .frp ∧ frpWitness.frp.rem.toNat ≠ 0 ∧
      ∃ t, step frpWitness = .next t ∧ t.st.fault = false) :=
  ⟨⟨inv_osdWitness, by decide, by decide, by decide, _, rfl, by decide⟩,
   ⟨inv_lzWitness, by decide, by decide, by decide, _, rfl, by decide, by decide⟩,
   ⟨inv_frpWitness, by decide, by decide, by decide, _, rfl, by decide⟩⟩

/-- A step that stores in OPBUF. -/
theorem witness_FdbWritesOnlyItsOwn : osdWitness.Inv ∧ osdWitness.inputs = [] ∧
    ∃ t, step osdWitness = .next t ∧ (t.mem.opbuf.get? 0 = some 3 ∧ osdWitness.mem.opbuf.get? 0 = none) :=
  ⟨inv_osdWitness, by decide, _, rfl, by decide⟩

theorem witness_StepKeepsCanonical : frpWitness.mem.wf = true ∧ ∃ t, step frpWitness = .next t := ⟨by decide, _, rfl⟩
theorem witness_StepKeepsInv : frpWitness.Inv ∧ ∃ t, step frpWitness = .next t := ⟨inv_frpWitness, _, rfl⟩

/-- A decode in progress, and a host move that reaches the last byte of PMEM. -/
theorem witness_NoModelFault :
    (frpWitness.Inv ∧ ∀ m rest, frpWitness.inputs = some m :: rest → m.inRange frpWitness) ∧
    (let s := { idleState 4 3 4 payload3 with inputs := [some (.writePmem 63 0)] }
     s.Inv ∧ ∀ m rest, s.inputs = some m :: rest → m.inRange s) := by
  refine ⟨⟨inv_frpWitness, fun m rest h => by cases h⟩, ⟨⟨by decide, by constructor <;> decide, by constructor <;> decide,
    fun h => absurd h (by decide), fun h => absurd h (by decide), fun h => absurd h (by decide),
    fun h => absurd h (by decide)⟩, fun m rest h => ?_⟩⟩
  cases h
  show 63 < 64
  decide

/-- START with bits beside bit 0, then waits and a CSR read. -/
theorem witness_EveryDecodeEnds :
    let rest := [none, some (.readCsr 1), none]
    let s := { idleState 4 3 4 payload3 with inputs := some (.writeCsr 0 0xFFFFFFFF) :: rest }
    s.Inv ∧ s.busy = false ∧ (0xFFFFFFFF : Word).getLsbD 0 = true ∧ s.inputs = some (.writeCsr 0 0xFFFFFFFF) :: rest ∧
      ∀ m, some m ∈ rest → ∃ n, m = .readCsr n := by
  refine ⟨⟨by decide, by constructor <;> decide, by constructor <;> decide, fun h => absurd h (by decide),
    fun h => absurd h (by decide), fun h => absurd h (by decide), fun h => absurd h (by decide)⟩, by decide, by decide,
    rfl, fun m hm => ⟨1, ?_⟩⟩
  simpa using hm

end Sys2Proof.Machine
end

section
/-! SUPPORT. What a step of FDB can be: one constructor for each way a step answers a next state. Every statement about
a step of FDB is a case analysis over `FdbMove`. -/

namespace Sys2Proof.Machine

/-- OSD stands at a node other than the end mark, with a bit left to read (R142). -/
structure State.AtBit (s : State) : Prop where
  phase : s.seq.phase = .osd
  unit_open : s.seq.unitDone = false
  node_ne : s.osd.node.toNat ≠ sentBias
  bit_inside : s.osd.bitpos.toNat / 8 < s.plen

/-- LZU is running and its destination is not full (R162). -/
structure State.AtControl (s : State) : Prop where
  phase : s.seq.phase = .lzu
  unit_open : s.seq.unitDone = false
  room : s.lzcount < s.npix

/-- FRP is at an opcode, with a pixel left to paint (R191). -/
structure State.AtOpcode (s : State) : Prop where
  phase : s.seq.phase = .frp
  rem_ne : s.frp.rem.toNat ≠ 0
  opc_lt : s.frp.opc.toNat < s.opcount

/-- A run opcode whose size operand and size have passed their checks (R193, R194). -/
structure State.AtRun (s : State) (z : SizeSrc) : Prop extends s.AtOpcode where
  size_le : s.runSize z ≤ s.frp.rem.toNat
  width_pos : 1 ≤ s.w
  operand_inside : ¬(0 < z.bytes ∧ s.plen < s.frp.siz.toNat + z.bytes)

/-- The state after `FLIP` (R201). -/
def State.flipDone (s : State) : State :=
  { s with frp := { s.frp with flag := toggledFlag s.frp.flag, opc := BitVec.ofNat 32 (s.frp.opc.toNat + 1) } }

/-- What FDB's step from `s` can answer. -/
inductive FdbMove (s : State) : State → Prop where
  | idle (hp : s.seq.phase = .idle) : FdbMove s s
  | raise (hp : s.seq.phase ≠ .idle) (c : Cause) (info : Nat) : FdbMove s (s.raise c info)
  | imgRaw (hp : s.seq.phase = .osd) (hu : s.seq.unitDone = true) : FdbMove s s.chooseRaw.literalSource
  | imgLz (hp : s.seq.phase = .osd) (hu : s.seq.unitDone = true) : FdbMove s s.chooseLz.lzuInit
  | mark (hp : s.seq.phase = .osd) (hu : s.seq.unitDone = false) (hn : s.osd.node.toNat = sentBias) :
      FdbMove s s.osdEndByMark
  | walk (h : s.AtBit) (v : Byte) (hv : sentBias ≤ v.toNat) : FdbMove s (s.takeBit.walkTo (v.setWidth 9))
  | emit (h : s.AtBit) (v : Byte) (hv : v.toNat < leafLimit) (hc : s.opcount + 1 ≠ s.npix) :
      FdbMove s (s.takeBit.emit v)
  | emitLast (h : s.AtBit) (v : Byte) (hv : v.toNat < leafLimit) (hc : s.opcount + 1 = s.npix) :
      FdbMove s (s.takeBit.emit v).osdEndByCap
  | literals (hp : s.seq.phase = .lzu) (hu : s.seq.unitDone = true) : FdbMove s s.literalSource
  | full (hp : s.seq.phase = .lzu) (hu : s.seq.unitDone = false) (hf : s.npix ≤ s.lzcount) : FdbMove s s.lzEndFull
  | copy (h : s.AtControl) (k lit : Nat) (back : Option BackRef) (term : Bool)
      (len : lzLength s.lzInstr = 1 + k + lit) (src : s.lzu.src.toNat + 1 + k + lit ≤ s.plen)
      (fits : s.lzcount + lit + backRun back ≤ s.npix + 111) : FdbMove s (s.lzDone k lit back term)
  | abort (h : s.AtControl) : FdbMove s s.lzEndTrunc
  | abortCopy (h : s.AtControl) (a lit : Nat) (fits : s.lzcount + lit ≤ s.npix + 111) :
      FdbMove s (s.lzCopies a lit none).lzEndTrunc
  | complete (hp : s.seq.phase = .frp) (hr : s.frp.rem.toNat = 0) : FdbMove s s.complete
  | flip (h : s.AtOpcode) : FdbMove s s.flipDone
  | literalRun (z : SizeSrc) (h : s.AtRun z) (hl : s.frp.lit.toNat + s.runSize z ≤ s.seq.litlen.toNat) :
      FdbMove s (s.litDone (s.runSize z) z.bytes)
  | prevRun (z : SizeSrc) (h : s.AtRun z) : FdbMove s (s.prevDone (s.runSize z) z.bytes 0 0 true)
  | moveRun (z : SizeSrc) (h : s.AtRun z) (dx dy : Int) (hv : s.frp.vec.toNat < s.plen) :
      FdbMove s (s.prevDone (s.runSize z) z.bytes dx dy false).takeVec

/-! ### Marker -/

theorem exec_marker_next {s t : State} {m : Byte} (h : exec (decodeMarker m) s = .next t) :
    t = s.chooseRaw.literalSource ∨ t = s.chooseLz.lzuInit := by
  unfold decodeMarker at h
  split at h
  · cases h; exact .inr rfl
  · cases h; exact .inl rfl

/-! ### OSD -/

/-- What the entry byte `v` of the table does (R150 to R152). -/
theorem exec_trie_next {s t : State} {v : Byte} (h : exec (decodeTrie v) s = .next t) :
    (v.toNat < leafLimit ∧ s.opcount + 1 = s.npix ∧ t = (s.takeBit.emit v).osdEndByCap) ∨
    (v.toNat < leafLimit ∧ s.opcount + 1 ≠ s.npix ∧ t = s.takeBit.emit v) ∨
    (sentBias ≤ v.toNat ∧ t = s.takeBit.walkTo (v.setWidth 9)) := by
  unfold decodeTrie at h
  split at h
  · obtain ⟨_, h⟩ := State.needBytes_next (show execLeaf v s = .next t from h)
    split at h
    · cases h; exact .inl ⟨‹_›, ‹_›, rfl⟩
    · cases h; exact .inr (.inl ⟨‹_›, ‹_›, rfl⟩)
  · split at h
    · rename_i hv
      have : v.setWidth 9 = 0x16 := by
        apply BitVec.eq_of_toNat_eq; simp [hv]
      cases h; exact .inr (.inr ⟨by simp [hv, sentBias], by rw [this]⟩)
    · cases h; exact .inr (.inr ⟨by simp only [sentBias]; omega, rfl⟩)

/-! ### LZU -/

/-- The shared body of the LZU instructions faults or copies (R164). -/
theorem lzBody_move {s t : State} {k lit : Nat} {back : Option BackRef} {term : Bool} (hc : s.AtControl)
    (len : lzLength s.lzInstr = 1 + k + lit) (fits : s.lzcount + lit + backRun back ≤ s.npix + 111)
    (h : lzBody k lit back term s = .next t) : FdbMove s t := by
  have hp : s.seq.phase ≠ .idle := by simp [hc.phase]
  rcases lzBody_next h with ⟨_, rfl⟩ | ⟨_, _, rfl⟩ | ⟨src, _, rfl⟩
  · exact .raise hp _ _
  · exact .raise hp _ _
  · exact .copy hc k lit back term len src fits

/-- The count of `LZLIT` is at most 27: the control bytes above spell `LZEND` (R100). -/
theorem lzlit_count_le : ∀ {c : Byte}, lzForm c = .lit → (c.extractLsb' 0 5).toNat ≤ 27 := by decide

/-- What the LZU instruction at `SRC` does (R168 to R176). A run of families A and B is at most 70 bytes, a literal run
at most 112, and family C aborts where it would pass `NPIX`. -/
theorem exec_lz_move {s t : State} (hc : s.AtControl) (h : exec s.lzInstr s = .next t) : FdbMove s t := by
  have hp : s.seq.phase ≠ .idle := by simp [hc.phase]
  have room := hc.room
  have body := @lzBody_move s t
  cases hf : lzForm s.ctrlByte <;> simp only [State.lzInstr, decodeLz, hf] at h body
  case a => exact body hc rfl (by simp only [lzaLit, lzaBack, backRun]; omega) h
  case b =>
    refine body hc rfl ?_ h
    have := (s.lzOperand 1).isLt
    simp only [lzbLit, lzbBack, backRun]; omega
  case c =>
    simp only [exec, execLzc] at h
    split at h
    · have hl : ∀ l : BitVec 2, lzcLit l ≤ 3 := fun l => by simp only [lzcLit]; omega
      rcases lzAbort_next h with ⟨_, rfl⟩ | ⟨_, _, rfl⟩ | ⟨_, _, rfl⟩
      · exact .abort hc
      · exact .raise hp _ _
      · exact .abortCopy hc _ _ (by have := hl (s.ctrlByte.extractLsb' 0 2); omega)
    · exact body hc rfl (by simp only [backRun]; omega) h
  case lit =>
    have := lzlit_count_le hf
    exact body hc rfl (by simp only [lzlitLit, backRun]; omega) h
  case term => exact body hc rfl (by simp only [lzendLit, backRun]; omega) h

/-! ### FRP -/

/-- What the decoded opcode does (R201 to R222). -/
theorem exec_op_move {s t : State} {b : Byte} {i : Instr} (ho : s.AtOpcode) (hd : decodeOp b = some i)
    (h : exec i s = .next t) : FdbMove s t := by
  have hp : s.seq.phase ≠ .idle := by simp [ho.phase]
  rcases decodeOp_forms hd with rfl | ⟨z, hz⟩ | ⟨z, hz⟩
  · cases h; exact .flip ho
  · rw [exec_alt hz] at h
    rcases altStep_next h with ⟨c, rfl, _⟩ | ⟨hr, hw, _, hl, rfl, hs⟩ | ⟨hr, hw, _, _, rfl, hs⟩
    · exact .raise hp _ _
    · exact .literalRun z ⟨ho, hr, hw, hs⟩ hl
    · exact .prevRun z ⟨ho, hr, hw, hs⟩
  · rw [exec_mv hz] at h
    rcases mvStep_next h with ⟨c, rfl, _⟩ | ⟨v, _, hv, hr, hw, _, rfl, hs⟩
    · exact .raise hp _ _
    · exact .moveRun z ⟨ho, hr, hw, hs⟩ _ _ hv

/-! ### FDB -/

/-- A step of FDB that executes an instruction. -/
theorem fetch_run_move {s t : State} {i : Instr} (hf : fetch s = .run i) (h : exec i s = .next t) : FdbMove s t := by
  rcases fetch_run hf with ⟨hp, hu, hf⟩ | ⟨hp, hu, hf⟩ | ⟨hp, hu, hf⟩ | ⟨hp, hf⟩
  · obtain ⟨_, rfl⟩ := fetchMarker_run hf
    rcases exec_marker_next h with rfl | rfl
    · exact .imgRaw hp hu
    · exact .imgLz hp hu
  · obtain ⟨hn, hb, _, _, _, rfl⟩ := fetchOsd_run hf
    have hbit : s.AtBit := ⟨hp, hu, hn, hb⟩
    rcases exec_trie_next h with ⟨hv, hc, rfl⟩ | ⟨hv, hc, rfl⟩ | ⟨hv, rfl⟩
    · exact .emitLast hbit _ hv hc
    · exact .emit hbit _ hv hc
    · exact .walk hbit _ hv
  · obtain ⟨hr, _, rfl⟩ := fetchLzu_run hf
    exact exec_lz_move ⟨hp, hu, hr⟩ h
  · obtain ⟨hr, ho, hd⟩ := fetchFrp_run hf
    exact exec_op_move ⟨hp, hr, ho⟩ hd h

/-- A step of FDB that executes no instruction. -/
theorem fetch_other_move {s t : State} (hf : fetch s = .other (.next t)) : FdbMove s t := by
  rcases fetch_next hf with ⟨hp, rfl⟩ | ⟨hp, hu, hf⟩ | ⟨hp, hu, rfl⟩ | ⟨hp, hu, hf⟩ | ⟨hp, hf⟩
  · exact .idle hp
  · rcases fetchOsd_next hf with ⟨hn, rfl⟩ | ⟨_, c, info, _, rfl⟩
    · exact .mark hp hu hn
    · exact .raise (by simp [hp]) _ _
  · exact .literals hp hu
  · rcases fetchLzu_next hf with ⟨hr, rfl⟩ | ⟨_, rfl⟩
    · exact .full hp hu hr
    · exact .raise (by simp [hp]) _ _
  · rcases fetchFrp_next hf with ⟨hr, rfl⟩ | ⟨_, _, rfl⟩ | ⟨_, _, rfl⟩
    · exact .complete hp hr
    · exact .raise (by simp [hp]) _ _
    · exact .raise (by simp [hp]) _ _

/-- Every step of FDB is one of the moves. -/
theorem fdbStep_move {s t : State} (h : fdbStep s = .next t) : FdbMove s t := by
  rcases fdbStep_cases h with ⟨i, hf, hx⟩ | hf
  · exact fetch_run_move hf hx
  · exact fetch_other_move hf

/-- A step of the machine is a move of FDB, with the host's schedule moved on, or a move of the host (R310). -/
theorem step_next {s t : State} (e : step s = .next t) :
    (∃ ins, FdbMove { s with inputs := ins } t) ∨
    ∃ m rest, s.inputs = some m :: rest ∧ hostMove m { s with inputs := rest } = .next t := by
  rcases step_cases s with ⟨_, e'⟩ | ⟨rest, _, e'⟩ | ⟨m, rest, hin, e'⟩ <;> rw [e'] at e
  · exact .inl ⟨s.inputs, fdbStep_move e⟩
  · exact .inl ⟨rest, fdbStep_move e⟩
  · exact .inr ⟨m, rest, hin, e⟩

end Sys2Proof.Machine
end

section
/-! SUPPORT. What every step of FDB leaves unchanged of the setup of a decode, and that it keeps the phases' part of the
invariant. -/

namespace Sys2Proof.Machine

/-! ### The setup of a decode -/

/-- The parameters, the configuration registers, the payload and the header offsets agree. -/
structure State.SameSetup (s t : State) : Prop where
  cfg : t.cfg = s.cfg
  width : t.csr.width = s.csr.width
  height : t.csr.height = s.csr.height
  stride : t.csr.stride = s.csr.stride
  plen : t.csr.plen = s.csr.plen
  pmem : t.mem.pmem = s.mem.pmem
  huf : t.seq.huf = s.seq.huf
  sizoff : t.seq.sizoff = s.seq.sizoff
  vecoff : t.seq.vecoff = s.seq.vecoff
  imgoff : t.seq.imgoff = s.seq.imgoff

theorem State.SameSetup.w_eq {s t : State} (h : s.SameSetup t) : t.w = s.w := congrArg BitVec.toNat h.width
theorem State.SameSetup.h_eq {s t : State} (h : s.SameSetup t) : t.h = s.h := congrArg BitVec.toNat h.height
theorem State.SameSetup.stride_eq {s t : State} (h : s.SameSetup t) : t.stride = s.stride :=
  congrArg BitVec.toNat h.stride
theorem State.SameSetup.plen_eq {s t : State} (h : s.SameSetup t) : t.plen = s.plen := congrArg BitVec.toNat h.plen
theorem State.SameSetup.npix_eq {s t : State} (h : s.SameSetup t) : t.npix = s.npix := by
  rw [State.npix_def, State.npix_def, h.w_eq, h.h_eq]
theorem State.SameSetup.pixelIndex_eq {s t : State} (h : s.SameSetup t) (k : Nat) :
    t.pixelIndex k = s.pixelIndex k := by
  simp only [State.pixelIndex, h.w_eq, h.stride_eq]

theorem State.SameSetup.geometry {s t : State} (h : s.SameSetup t) (g : s.Geometry) : t.Geometry := by
  obtain ⟨h1, h2, h3, h4, h5, h6, h7⟩ := g
  constructor <;> simpa only [h.w_eq, h.h_eq, h.stride_eq, h.plen_eq, h.cfg]

theorem State.SameSetup.segments {s t : State} (h : s.SameSetup t) (g : s.Segments) : t.Segments := by
  obtain ⟨h1, h2, h3, h4⟩ := g
  constructor <;> simpa only [h.plen_eq, h.huf, h.sizoff, h.vecoff, h.imgoff]

/-- Only writes to LZBUF. -/
theorem State.lzCopies_mem_pmem (s : State) (a lit : Nat) (b : Option BackRef) :
    (s.lzCopies a lit b).mem.pmem = s.mem.pmem := s.memAt_lzCopies_ne a lit b (sp := .pmem) (by decide)

theorem State.paint_mem_pmem (s : State) (sp : Space) (src : List Nat) (n : Nat) :
    (s.paint sp src n).mem.pmem = s.mem.pmem := s.memAt_paint_ne sp src n (sp' := .pmem) s.cur_ne_pmem.symm

theorem State.SameSetup.paint (s : State) (sp : Space) (src : List Nat) (n : Nat) : s.SameSetup (s.paint sp src n) := by
  constructor <;> first | rfl | exact s.paint_mem_pmem sp src n

theorem State.SameSetup.lzCopies (s : State) (a lit : Nat) (b : Option BackRef) : s.SameSetup (s.lzCopies a lit b) := by
  constructor <;> first | exact s.lzCopies_mem_pmem a lit b | simp

/-- No step of FDB changes the setup of the decode (R36, R37, R45). -/
theorem FdbMove.sameSetup {s t : State} (h : FdbMove s t) : s.SameSetup t := by
  cases h
  case copy h k lit back term len src fits =>
    have := State.SameSetup.lzCopies s (s.lzu.src.toNat + 1 + k) lit back
    cases term <;> exact { this with }
  case abortCopy h a lit fits => exact { State.SameSetup.lzCopies s a lit none with }
  case literalRun z _ _ => exact { State.SameSetup.paint s s.litSpace (s.litAddrs (s.runSize z)) (s.runSize z) with }
  case prevRun z _ => exact { State.SameSetup.paint s s.prev (s.prevAddrs (s.runSize z) 0 0) (s.runSize z) with }
  case moveRun z h dx dy _ =>
    exact { State.SameSetup.paint s s.prev (s.prevAddrs (s.runSize z) dx dy) (s.runSize z) with }
  all_goals constructor <;> rfl

/-! ### Bounds that the registers' widths give -/

theorem State.npix_le (s : State) : s.npix ≤ 65535 * 65535 :=
  Nat.mul_le_mul (Nat.le_of_lt_succ s.csr.width.isLt) (Nat.le_of_lt_succ s.csr.height.isLt)

theorem State.plen_lt (s : State) : s.plen < 2 ^ 32 := s.csr.plen.isLt

theorem toNat_ofNat_of_lt {w n : Nat} (h : n < 2 ^ w) : (BitVec.ofNat w n).toNat = n := by
  rw [BitVec.toNat_ofNat, Nat.mod_eq_of_lt h]

/-! ### The phases -/

/-- The part of the invariant that speaks of the decode in progress. -/
structure State.DecodeOk (s : State) : Prop where
  geometry : s.busy = true → s.Geometry ∧ s.Segments
  osd : s.seq.phase = .osd → s.OsdPhase
  lzu : s.seq.phase = .lzu → s.LzuPhase
  frp : s.seq.phase = .frp → s.FrpPhase

theorem State.DecodeOk.of_idle {s : State} (h : s.seq.phase = .idle) : s.DecodeOk :=
  ⟨fun hb => absurd h ((State.busy_iff s).1 hb), fun hp => by simp [h] at hp, fun hp => by simp [h] at hp,
    fun hp => by simp [h] at hp⟩

theorem State.DecodeOk.of_osd {s : State} (h : s.seq.phase = .osd) (g : s.Geometry ∧ s.Segments) (p : s.OsdPhase) :
    s.DecodeOk := ⟨fun _ => g, fun _ => p, fun hp => by simp [h] at hp, fun hp => by simp [h] at hp⟩

theorem State.DecodeOk.of_lzu {s : State} (h : s.seq.phase = .lzu) (g : s.Geometry ∧ s.Segments) (p : s.LzuPhase) :
    s.DecodeOk := ⟨fun _ => g, fun hp => by simp [h] at hp, fun _ => p, fun hp => by simp [h] at hp⟩

theorem State.DecodeOk.of_frp {s : State} (h : s.seq.phase = .frp) (g : s.Geometry ∧ s.Segments) (p : s.FrpPhase) :
    s.DecodeOk := ⟨fun _ => g, fun hp => by simp [h] at hp, fun hp => by simp [h] at hp, fun _ => p⟩

theorem State.DecodeOk.setup {s : State} (h : s.DecodeOk) (hp : s.seq.phase ≠ .idle) : s.Geometry ∧ s.Segments :=
  h.geometry ((State.busy_iff s).2 hp)

/-! ### OSD -/

theorem osdEndings_zero {t : StatusBits} (h : t.osdEndings = 0) : t.osdEnd = false ∧ t.osdCap = false := by
  revert h; unfold StatusBits.osdEndings bitAt
  cases t.osdEnd <;> cases t.osdCap <;> simp

theorem lzEndings_zero {t : StatusBits} (h : t.lzEndings = 0) :
    t.lzTerm = false ∧ t.lzFull = false ∧ t.lzTrunc = false := by
  revert h; unfold StatusBits.lzEndings bitAt
  cases t.lzTerm <;> cases t.lzFull <;> cases t.lzTrunc <;> simp

theorem State.OsdPhase.osdEndings_open {s : State} (h : s.OsdPhase) (hu : s.seq.unitDone = false) :
    s.st.osdEnd = false ∧ s.st.osdCap = false := osdEndings_zero (by simpa [hu] using h.osd_endings)

theorem State.OsdPhase.osdEndings_done {s : State} (h : s.OsdPhase) (hu : s.seq.unitDone = true) :
    s.st.osdEndings = 1 := by simpa [hu] using h.osd_endings

/-- The end mark ends OSD with one ending bit (R143). -/
theorem State.OsdPhase.osdEndByMark {s : State} (h : s.OsdPhase) (hu : s.seq.unitDone = false) :
    s.osdEndByMark.OsdPhase :=
  { h with
    opcount_lt := fun hd => by simp at hd
    osd_endings := by simp [StatusBits.osdEndings, bitAt, (h.osdEndings_open hu).2] }

/-- The cap ends OSD with one ending bit (R146). -/
theorem State.OsdPhase.osdEndByCap {s : State} (h : s.OsdPhase) (hu : s.seq.unitDone = false) :
    s.osdEndByCap.OsdPhase :=
  { h with
    opcount_lt := fun hd => by simp at hd
    osd_endings := by simp [StatusBits.osdEndings, bitAt, (h.osdEndings_open hu).1] }

/-- The bit after one inside the payload is at most the payload's end (R31). -/
theorem State.AtBit.bitpos_next {s : State} (h : s.AtBit) :
    s.takeBit.osd.bitpos.toNat = s.osd.bitpos.toNat + 1 ∧ s.osd.bitpos.toNat + 1 ≤ 8 * s.plen := by
  have h1 := h.bit_inside
  have h2 := s.plen_lt
  refine ⟨?_, by omega⟩
  rw [State.takeBit_osd_bitpos, toNat_ofNat_of_lt (by omega)]

theorem State.OsdPhase.takeBit {s : State} (h : s.OsdPhase) (hb : s.AtBit) : s.takeBit.OsdPhase := by
  obtain ⟨h1, h2⟩ := hb.bitpos_next
  have h3 := h.bitpos_ge
  exact { h with
    bitpos_le := .inl (by rw [h1]; exact h2)
    bitpos_ge := by rw [h1]; simp; omega }

theorem State.OsdPhase.walkTo {s : State} (h : s.OsdPhase) (v : Byte) (hv : sentBias ≤ v.toNat) :
    (s.walkTo (v.setWidth 9)).OsdPhase := by
  have h1 : (v.setWidth 9).toNat = v.toNat := by simp; omega
  have h2 := v.isLt
  exact { h with node_range := .inr (by simp only [State.walkTo_osd_node, h1]; omega) }

/-- After an opcode, but for the cap: `OPCOUNT` is one more, and may have reached `NPIX` (R150). -/
theorem State.opcount_emit {s : State} (v : Byte) (h : s.opcount < s.npix) : (s.emit v).opcount = s.opcount + 1 := by
  have := s.npix_le
  exact toNat_ofNat_of_lt (by omega)

/-- Emitting writes OPBUF only. -/
theorem State.memAt_emit_ne (s : State) (v : Byte) {sp : Space} (h : sp ≠ .opbuf) :
    (s.emit v).memAt sp = s.memAt sp := by
  cases sp <;> first | rfl | exact absurd rfl h

theorem State.unpainted_emit {s : State} (v : Byte) (h : s.unpainted) : (s.emit v).unpainted := by
  unfold State.unpainted
  rw [State.emit_cur, s.memAt_emit_ne v s.cur_ne_opbuf]
  exact h

theorem State.OsdPhase.emit {s : State} (h : s.OsdPhase) (v : Byte) (hu : s.seq.unitDone = false)
    (hc : s.opcount + 1 ≠ s.npix) : (s.emit v).OsdPhase := by
  have h1 := h.opcount_lt hu
  have h2 := State.opcount_emit v h1
  exact { h with
    node_range := .inl rfl
    opcount_le := by rw [h2]; exact h1
    opcount_lt := fun _ => by rw [h2, State.emit_npix]; omega
    unpainted := State.unpainted_emit v h.unpainted }

theorem State.OsdPhase.emitLast {s : State} (h : s.OsdPhase) (v : Byte) (hu : s.seq.unitDone = false) :
    (s.emit v).osdEndByCap.OsdPhase := by
  have h1 := h.opcount_lt hu
  have h2 := State.opcount_emit v h1
  exact { h with
    node_range := .inl rfl
    opcount_le := by rw [State.osdEndByCap_opcount, h2]; exact h1
    opcount_lt := fun hd => by simp at hd
    osd_endings := by simp [StatusBits.osdEndings, bitAt, (h.osdEndings_open hu).1]
    unpainted := State.unpainted_emit v h.unpainted }

/-! ### LZU -/

theorem State.unpainted_lzCopies {s : State} (a lit : Nat) (b : Option BackRef) (h : s.unpainted) :
    (s.lzCopies a lit b).unpainted := by
  unfold State.unpainted
  rw [State.lzCopies_cur, s.memAt_lzCopies_ne a lit b s.cur_ne_lzbuf]
  exact h

theorem State.lzcount_lzCopies {s : State} (a lit : Nat) (b : Option BackRef)
    (h : s.lzcount + lit + backRun b ≤ s.npix + 111) :
    (s.lzCopies a lit b).lzcount = s.lzcount + lit + backRun b := by
  have := s.npix_le
  rw [State.lzcount, State.lzCopies_csr]
  exact toNat_ofNat_of_lt (by omega)

theorem State.LzuPhase.lzCopies {s : State} (h : s.LzuPhase) (a lit : Nat) (b : Option BackRef)
    (fits : s.lzcount + lit + backRun b ≤ s.npix + 111) : (s.lzCopies a lit b).LzuPhase := by
  obtain ⟨h1, h2, _, h4, h5, h6, h7, h8, h9⟩ := h
  constructor
  case unpainted => exact State.unpainted_lzCopies a lit b h9
  all_goals
    simp only [State.lzCopies_seq, State.lzCopies_st, State.lzCopies_opcount, State.lzCopies_npix, State.lzCopies_lzu,
      State.lzCopies_plen, State.lzcount_lzCopies a lit b fits]
    assumption

theorem State.LzuPhase.lzAdvance {s : State} (h : s.LzuPhase) (k lit : Nat)
    (src : s.lzu.src.toNat + 1 + k + lit ≤ s.plen) : (s.lzAdvance k lit).LzuPhase := by
  have h1 : (s.lzAdvance k lit).lzu.src.toNat = s.lzu.src.toNat + 1 + k + lit :=
    toNat_ofNat_of_lt (by have := s.plen_lt; omega)
  have h2 := h.src_gt
  exact { h with
    src_gt := by rw [h1, State.lzAdvance_seq]; omega
    src_le := by rw [h1]; exact src }

theorem State.LzuPhase.lzEndings_open {s : State} (h : s.LzuPhase) (hu : s.seq.unitDone = false) :
    s.st.lzTerm = false ∧ s.st.lzFull = false ∧ s.st.lzTrunc = false :=
  lzEndings_zero (by simpa [hu] using h.lz_endings)

/-- LZU ends with one of its three ending bits (R35). -/
theorem State.LzuPhase.endWith {s : State} (h : s.LzuPhase) {t : StatusBits} (hc : t.cursel = s.st.cursel)
    (ho : t.osdEndings = s.st.osdEndings) (hu : t.lzUsed = s.st.lzUsed) (he : t.lzEndings = 1) :
    ({ s with st := t } : State).endUnit.LzuPhase :=
  { h with
    osd_endings := ho.trans h.osd_endings
    lz_used := hu.trans h.lz_used
    lz_endings := he
    unpainted := by
      show (s.mem.at (bankOf t.cursel)).cells = []
      rw [hc]; exact h.unpainted }

theorem State.LzuPhase.lzEndFull {s : State} (h : s.LzuPhase) (hu : s.seq.unitDone = false) : s.lzEndFull.LzuPhase :=
  h.endWith rfl rfl rfl (by simp [StatusBits.lzEndings, bitAt, h.lzEndings_open hu])

theorem State.LzuPhase.lzEndTerm {s : State} (h : s.LzuPhase) (hu : s.seq.unitDone = false) : s.lzEndTerm.LzuPhase :=
  h.endWith rfl rfl rfl (by simp [StatusBits.lzEndings, bitAt, h.lzEndings_open hu])

theorem State.LzuPhase.lzEndTrunc {s : State} (h : s.LzuPhase) (hu : s.seq.unitDone = false) : s.lzEndTrunc.LzuPhase :=
  h.endWith rfl rfl rfl (by simp [StatusBits.lzEndings, bitAt, h.lzEndings_open hu])

@[simp] theorem State.lzDone_phase (s : State) (k lit : Nat) (b : Option BackRef) (term : Bool) :
    (s.lzDone k lit b term).seq.phase = s.seq.phase := by cases term <;> simp [State.lzDone]

theorem State.LzuPhase.lzDone {s : State} (h : s.LzuPhase) (hu : s.seq.unitDone = false) (k lit : Nat)
    (b : Option BackRef) (term : Bool) (src : s.lzu.src.toNat + 1 + k + lit ≤ s.plen)
    (fits : s.lzcount + lit + backRun b ≤ s.npix + 111) : (s.lzDone k lit b term).LzuPhase := by
  have h1 := (h.lzCopies (s.lzu.src.toNat + 1 + k) lit b fits).lzAdvance k lit (by simpa using src)
  cases term with
  | false => exact h1
  | true => exact h1.lzEndTerm (by simpa using hu)

/-- LZU's initial step, from the marker step (R126, R161). -/
theorem State.OsdPhase.imgLz {s : State} (h : s.OsdPhase) (hu : s.seq.unitDone = true) (g : s.Segments) :
    s.chooseLz.lzuInit.LzuPhase := by
  have h1 := g.imgoff_lt
  have h2 := s.plen_lt
  have h3 : s.chooseLz.lzuInit.lzu.src.toNat = s.seq.imgoff.toNat + 1 := toNat_ofNat_of_lt (by omega)
  exact {
    litmode_eq := rfl
    opcount_le := h.opcount_le
    lzcount_le := (le_of_eq h.lzcount_eq).trans (Nat.zero_le _)
    src_gt := by rw [h3]; simp
    src_le := by rw [h3]; exact h1
    osd_endings := h.osdEndings_done hu
    lz_used := rfl
    lz_endings := h.lz_endings
    unpainted := h.unpainted }

/-! ### FRP -/

/-- FRP's initial step after the literal-source step (R127, R190). -/
theorem State.frpPhase_literalSource {s : State} (g : s.Geometry) (hs : s.Segments) (ho : s.opcount ≤ s.npix)
    (hz : s.lzcount ≤ s.npix + 111) (he : s.st.osdEndings = 1) (hl : s.st.lzUsed = s.seq.litmode)
    (hle : s.st.lzEndings = if s.seq.litmode then 1 else 0) (hu : s.unpainted) : s.literalSource.FrpPhase := by
  have h1 := s.npix_le
  have h2 := s.plen_lt
  have h3 := hs.imgoff_lt
  have hx : s.literalSource.paintedCount = 0 := by simp [State.paintedCount]
  exact {
    unit_open := rfl
    x_lt := g.width_pos
    position := by rw [hx, State.literalSource_frp_rem, toNat_ofNat_of_lt (by omega)]; simp
    opc_le := Nat.zero_le _
    opcount_le := ho
    siz_le := by simp; exact Nat.le_of_lt (by have := hs.sizoff_lt; omega)
    vec_le := by simp; exact Nat.le_of_lt (by have := hs.vecoff_lt; omega)
    lit_le := Nat.zero_le _
    raw_source := fun hm => by
      have hm : s.seq.litmode = false := hm
      simp only [State.literalSource_seq_litbase, State.literalSource_seq_litlen, hm, Bool.false_eq_true, if_false,
        State.literalSource_plen]
      rw [toNat_ofNat_of_lt (by omega), toNat_ofNat_of_lt (by omega)]
      omega
    lz_source := fun hm => by
      have hm : s.seq.litmode = true := hm
      exact ⟨by simp [hm], hz⟩
    osd_endings := he
    lz_used := hl
    lz_endings := hle
    painted := fun a => by
      have hc : (s.memAt s.cur).get? a = none := by unfold Mem.get?; rw [hu]; rfl
      simp [hx, hc] }

/-- The raster walk from column `x < w` of row `y` meets the pixels from `y*w + x` on, in order (R197). -/
theorem mem_pixelAddrs {w stride : Nat} {a : Nat} : ∀ {n x y : Nat}, x < w →
    (a ∈ pixelAddrs w stride n (x, y) ↔
      ∃ k, y * w + x ≤ k ∧ k < y * w + x + n ∧ a = k / w * stride + k % w) := by
  intro n
  induction n with
  | zero => intro x y _; simp [pixelAddrs]; intro k _ _; omega
  | succ n ih =>
    intro x y hx
    have hdiv : (y * w + x) / w = y := by
      rw [Nat.add_comm, Nat.add_mul_div_right _ _ (by omega), Nat.div_eq_of_lt hx, Nat.zero_add]
    have hmod : (y * w + x) % w = x := by rw [Nat.mul_comm, Nat.mul_add_mod, Nat.mod_eq_of_lt hx]
    have hnext : a ∈ pixelAddrs w stride n (advCursor w (x, y)) ↔
        ∃ k, y * w + x + 1 ≤ k ∧ k < y * w + x + 1 + n ∧ a = k / w * stride + k % w := by
      unfold advCursor
      split
      · rw [ih (by omega)]
        have : (y + 1) * w + 0 = y * w + x + 1 := by rw [Nat.succ_mul]; simp only at *; omega
        rw [this]
      · rw [ih (by simp only at *; omega)]
        simp only [Nat.add_assoc]
    rw [pixelAddrs, List.mem_cons, hnext]
    constructor
    · rintro (rfl | ⟨k, h1, h2, h3⟩)
      · exact ⟨y * w + x, le_refl _, by omega, by rw [hdiv, hmod]⟩
      · exact ⟨k, by omega, by omega, h3⟩
    · rintro ⟨k, h1, h2, h3⟩
      rcases Nat.eq_or_lt_of_le h1 with rfl | h1
      · exact .inl (by rw [h3, hdiv, hmod])
      · exact .inr ⟨k, h1, by omega, h3⟩

/-- The indices a run paints are the pixels from the write position on. -/
theorem State.mem_runAddrs {s : State} {n a : Nat} (hx : s.frp.x.toNat < s.w) :
    a ∈ s.runAddrs n ↔ ∃ k, s.paintedCount ≤ k ∧ k < s.paintedCount + n ∧ a = s.pixelIndex k := mem_pixelAddrs hx

/-- A run of `n` pixels that remain moves the write position by `n` and `REM` by as much (R199). -/
theorem State.FrpPhase.endRun_position {s : State} (h : s.FrpPhase) {n b : Nat} {f : Bool} (hn : n ≤ s.frp.rem.toNat) :
    (s.endRun n b f).frp.x.toNat < s.w ∧ (s.endRun n b f).paintedCount = s.paintedCount + n ∧
      (s.endRun n b f).frp.rem.toNat = s.frp.rem.toNat - n := by
  have hw : 0 < s.w := lt_of_le_of_lt (Nat.zero_le _) h.x_lt
  have hw16 : s.w < 2 ^ 16 := s.csr.width.isLt
  have hh16 : s.h < 2 ^ 16 := s.csr.height.isLt
  have hr := s.frp.rem.isLt
  have hpos := h.position
  have hmod := Nat.mod_lt (s.frp.x.toNat + n) hw
  have hy : s.frp.y.toNat + (s.frp.x.toNat + n) / s.w ≤ s.h := by
    rw [Nat.add_comm, ← Nat.add_mul_div_right _ _ hw]
    apply Nat.div_le_of_le_mul
    rw [← State.npix_def, ← hpos, State.paintedCount]
    omega
  have ex : (s.endRun n b f).frp.x.toNat = (s.frp.x.toNat + n) % s.w := toNat_ofNat_of_lt (by omega)
  have ey : (s.endRun n b f).frp.y.toNat = s.frp.y.toNat + (s.frp.x.toNat + n) / s.w := toNat_ofNat_of_lt (by omega)
  refine ⟨by rw [ex]; exact hmod, ?_, toNat_ofNat_of_lt (by omega)⟩
  rw [State.paintedCount, ex, ey, State.endRun_w, Nat.add_mul, State.paintedCount]
  have := Nat.div_add_mod' (s.frp.x.toNat + n) s.w
  omega

theorem State.opc_next {s : State} (h : s.frp.opc.toNat < s.opcount) :
    (BitVec.ofNat 32 (s.frp.opc.toNat + 1)).toNat = s.frp.opc.toNat + 1 :=
  toNat_ofNat_of_lt (by have : s.opcount < 2 ^ 32 := s.csr.opcount.isLt; omega)

theorem State.FrpPhase.flipDone {s : State} (h : s.FrpPhase) (ho : s.frp.opc.toNat < s.opcount) :
    s.flipDone.FrpPhase :=
  { h with opc_le := le_of_eq_of_le (State.opc_next ho) ho }

/-- Which bytes of `CUR` have a value after a run. -/
theorem State.isSome_paint_cur (s : State) (sp : Space) {src : List Nat} {n : Nat} (hl : src.length = n) (a : Nat) :
    (((s.paint sp src n).memAt s.cur).get? a).isSome = true ↔
      a ∈ s.runAddrs n ∨ ((s.memAt s.cur).get? a).isSome = true := by
  rw [State.memAt_paint_cur, Mem.isSome_writeAll, List.map_fst_zip (by simp [hl])]

/-- A run keeps FRP's part of the invariant (R199, R230). -/
theorem State.FrpPhase.run {s : State} (h : s.FrpPhase) {z : SizeSrc} (hr : s.AtRun z) (sp : Space) {src : List Nat}
    (hl : src.length = s.runSize z) (f : Bool) :
    ((s.paint sp src (s.runSize z)).endRun (s.runSize z) z.bytes f).FrpPhase := by
  obtain ⟨hx, hp, hrem⟩ := h.endRun_position (b := z.bytes) (f := f) hr.size_le
  have hsize := hr.size_le
  have hsiz : (BitVec.ofNat 32 (s.frp.siz.toNat + z.bytes)).toNat ≤ s.plen := by
    have h1 := hr.operand_inside
    have h2 := h.siz_le
    have h3 := s.plen_lt
    rw [toNat_ofNat_of_lt (by omega)]; omega
  exact { h with
    x_lt := hx
    position := by
      refine Eq.trans (congrArg₂ (· + ·) hp hrem) ?_
      have := h.position
      simp only [State.endRun_npix, State.paint_npix]; omega
    opc_le := le_of_eq_of_le (State.opc_next hr.opc_lt) hr.opc_lt
    siz_le := hsiz
    painted := fun a => by
      have hpaint := s.isSome_paint_cur sp hl a
      rw [State.mem_runAddrs h.x_lt, h.painted a] at hpaint
      refine hpaint.trans ?_
      have hp' : ((s.paint sp src (s.runSize z)).endRun (s.runSize z) z.bytes f).paintedCount =
          s.paintedCount + s.runSize z := hp
      rw [hp']
      constructor
      · rintro (⟨k, _, h2, h3⟩ | ⟨k, h2, h3⟩)
        · exact ⟨k, h2, h3⟩
        · exact ⟨k, by omega, h3⟩
      · rintro ⟨k, h2, h3⟩
        rcases Nat.lt_or_ge k s.paintedCount with h1 | h1
        · exact .inr ⟨k, h1, h3⟩
        · exact .inl ⟨k, h1, h2, h3⟩ }

theorem State.FrpPhase.takeLit {s : State} (h : s.FrpPhase) {n : Nat} (hn : s.frp.lit.toNat + n ≤ s.seq.litlen.toNat) :
    (s.takeLit n).FrpPhase :=
  { h with
    lit_le := le_of_eq_of_le (toNat_ofNat_of_lt (by have := s.seq.litlen.isLt; omega)) hn }

theorem State.FrpPhase.takeVec {s : State} (h : s.FrpPhase) (hv : s.frp.vec.toNat < s.plen) : s.takeVec.FrpPhase :=
  { h with
    vec_le := le_of_eq_of_le (toNat_ofNat_of_lt (by have := s.plen_lt; omega)) hv }

/-! ### Every step -/

/-- Every step of FDB keeps the phases' part of the invariant. -/
theorem FdbMove.keepsDecode {s t : State} (m : FdbMove s t) (h : s.DecodeOk) : t.DecodeOk := by
  have setup := fun hp : s.seq.phase ≠ .idle =>
    And.intro (m.sameSetup.geometry (h.setup hp).1) (m.sameSetup.segments (h.setup hp).2)
  cases m
  case idle hp => exact h
  case raise => exact .of_idle rfl
  case imgRaw hp hu =>
    have o := h.osd hp
    have g := h.setup (by simp [hp])
    have sg : s.chooseRaw.Geometry := { g.1 with }
    have ss : s.chooseRaw.Segments := { g.2 with }
    exact .of_frp rfl (setup (by simp [hp])) (State.frpPhase_literalSource sg ss o.opcount_le
      ((le_of_eq o.lzcount_eq).trans (Nat.zero_le _)) (o.osdEndings_done hu) o.lz_unused o.lz_endings
      o.unpainted)
  case imgLz hp hu =>
    exact .of_lzu rfl (setup (by simp [hp])) ((h.osd hp).imgLz hu (h.setup (by simp [hp])).2)
  case mark hp hu _ => exact .of_osd hp (setup (by simp [hp])) ((h.osd hp).osdEndByMark hu)
  case walk hb v hv =>
    exact .of_osd hb.phase (setup (by simp [hb.phase])) (((h.osd hb.phase).takeBit hb).walkTo v hv)
  case emit hb v _ hc =>
    exact .of_osd hb.phase (setup (by simp [hb.phase])) (((h.osd hb.phase).takeBit hb).emit v hb.unit_open hc)
  case emitLast hb v _ _ =>
    exact .of_osd hb.phase (setup (by simp [hb.phase])) (((h.osd hb.phase).takeBit hb).emitLast v hb.unit_open)
  case literals hp hu =>
    have l := h.lzu hp
    have g := h.setup (by simp [hp])
    exact .of_frp rfl (setup (by simp [hp])) (State.frpPhase_literalSource g.1 g.2 l.opcount_le l.lzcount_le
      l.osd_endings (l.lz_used.trans l.litmode_eq.symm) (by simpa [hu, l.litmode_eq] using l.lz_endings) l.unpainted)
  case full hp hu _ => exact .of_lzu hp (setup (by simp [hp])) ((h.lzu hp).lzEndFull hu)
  case copy hc k lit b term _ src fits =>
    exact .of_lzu (by simp [hc.phase]) (setup (by simp [hc.phase]))
      ((h.lzu hc.phase).lzDone hc.unit_open k lit b term src fits)
  case abort hc =>
    exact .of_lzu hc.phase (setup (by simp [hc.phase])) ((h.lzu hc.phase).lzEndTrunc hc.unit_open)
  case abortCopy hc a lit fits =>
    exact .of_lzu hc.phase (setup (by simp [hc.phase]))
      (((h.lzu hc.phase).lzCopies a lit none fits).lzEndTrunc hc.unit_open)
  case complete => exact .of_idle rfl
  case flip ho =>
    exact .of_frp ho.phase (setup (by simp [ho.phase])) ((h.frp ho.phase).flipDone ho.opc_lt)
  case literalRun z hr hl =>
    exact .of_frp hr.phase (setup (by simp [hr.phase])) (((h.frp hr.phase).run hr _ (by simp) false).takeLit hl)
  case prevRun z hr =>
    exact .of_frp hr.phase (setup (by simp [hr.phase])) ((h.frp hr.phase).run hr _ (by simp) true)
  case moveRun z hr dx dy hv =>
    exact .of_frp hr.phase (setup (by simp [hr.phase])) (((h.frp hr.phase).run hr _ (by simp) false).takeVec hv)

end Sys2Proof.Machine
end

section
/-! SUPPORT. The invariant is kept: the memories' form, STATUS and the buffers through every step of FDB, and all of it
through every move of the host. -/

namespace Sys2Proof.Machine

/-! ### Steps of FDB -/

theorem State.wf_emit {s : State} (v : Byte) (h : s.mem.wf = true) : (s.emit v).mem.wf = true :=
  Mems.wf_set (sp := .opbuf) h (Mem.wf_write (State.wf_memAt h .opbuf))

theorem State.lzDone_mem (s : State) (k lit : Nat) (b : Option BackRef) (term : Bool) :
    (s.lzDone k lit b term).mem = (s.lzCopies (s.lzu.src.toNat + 1 + k) lit b).mem := by cases term <;> rfl

/-- Every step of FDB keeps the canonical form of the memories. -/
theorem FdbMove.keepsWf {s t : State} (m : FdbMove s t) (h : s.mem.wf = true) : t.mem.wf = true := by
  cases m
  case emit v _ _ => exact State.wf_emit (s := s.takeBit) v h
  case emitLast v _ _ => exact State.wf_emit (s := s.takeBit) v h
  case copy k lit b term _ _ _ => rw [State.lzDone_mem]; exact State.wf_lzCopies h
  case abortCopy => exact State.wf_lzCopies (b := none) h
  case literalRun => exact State.wf_paint h
  case prevRun => exact State.wf_paint h
  case moveRun => exact State.wf_paint h
  all_goals exact h

theorem Cause.code_range (c : Cause) : 1 ≤ (BitVec.ofNat 5 c.code).toNat ∧ (BitVec.ofNat 5 c.code).toNat ≤ 14 := by
  cases c <;> decide

/-- A recorded fault keeps what holds of STATUS at all times. -/
theorem State.StatusOk.raise {s : State} (hd : s.st.done = false) (c : Cause) (info : Nat) :
    (s.raise c info).StatusOk where
  one_outcome h := by simp [hd] at h
  busy_open h := by simp [State.busy] at h
  no_cause h := by simp at h
  cause_range _ := c.code_range
  done_endings h := by simp [hd] at h

theorem State.StatusOk.complete {s : State} (h : s.StatusOk) (hp : s.seq.phase = .frp) (f : s.FrpPhase) :
    s.complete.StatusOk := by
  have hb := h.busy_open ((State.busy_iff s).2 (by simp [hp]))
  exact {
    one_outcome := fun hc => by simp [hb.2] at hc
    busy_open := fun hc => by simp [State.busy] at hc
    no_cause := h.no_cause
    cause_range := h.cause_range
    done_endings := fun _ => ⟨f.osd_endings, by
      refine f.lz_endings.trans ?_
      rw [← f.lz_used]; rfl⟩ }

/-- A step that leaves the outcome bits alone and goes on with the decode keeps what holds of STATUS. -/
theorem State.StatusOk.of_busy {s t : State} (h : s.StatusOk) (hs : s.busy = true)
    (hd : t.st.done = s.st.done) (hf : t.st.fault = s.st.fault) (hc : t.st.cause = s.st.cause)
    (hi : t.csr.faultinfo = s.csr.faultinfo) : t.StatusOk := by
  obtain ⟨b1, b2⟩ := h.busy_open hs
  exact {
    one_outcome := by rw [hd, b1]; simp
    busy_open := fun _ => by rw [hd, hf]; exact ⟨b1, b2⟩
    no_cause := by rw [hf, hc, hi]; exact h.no_cause
    cause_range := by rw [hf, hc]; exact h.cause_range
    done_endings := by rw [hd, b1]; simp }

/-- What every step keeps that goes on with the decode: the outcome bits, the frame pair and FAULTINFO. -/
structure State.SameOutcome (s t : State) : Prop where
  done : t.st.done = s.st.done
  fault : t.st.fault = s.st.fault
  cause : t.st.cause = s.st.cause
  prevValid : t.st.prevValid = s.st.prevValid
  cursel : t.st.cursel = s.st.cursel
  faultinfo : t.csr.faultinfo = s.csr.faultinfo

theorem State.SameOutcome.lzCopies (s : State) (a lit : Nat) (b : Option BackRef) :
    s.SameOutcome (s.lzCopies a lit b) := by constructor <;> simp

theorem FdbMove.idle_or_not {s t : State} (m : FdbMove s t) : (s.seq.phase = .idle ∧ t = s) ∨ s.seq.phase ≠ .idle := by
  cases m
  case idle hp => exact .inl ⟨hp, rfl⟩
  case raise hp _ _ => exact .inr hp
  case imgRaw hp _ | imgLz hp _ | mark hp _ _ | literals hp _ | full hp _ _ | complete hp _ => exact .inr (by simp [hp])
  case walk h _ _ | emit h _ _ _ | emitLast h _ _ _ | copy h _ _ _ _ _ _ _ | abort h | abortCopy h _ _ _ | flip h |
      literalRun h _ | prevRun h | moveRun h _ _ _ => exact .inr (by simp [h.phase])

/-- A step of FDB while busy records a fault, completes the decode, or goes on with it and leaves the outcome bits and
the frame pair (R263, R267). -/
theorem FdbMove.outcome_cases {s t : State} (m : FdbMove s t) (hb : s.seq.phase ≠ .idle) :
    (∃ c info, t = s.raise c info) ∨
    (s.seq.phase = .frp ∧ s.frp.rem.toNat = 0 ∧ t = s.complete) ∨
    (t.seq.phase ≠ .idle ∧ s.SameOutcome t) := by
  cases m
  case raise hp c info => exact .inl ⟨c, info, rfl⟩
  case complete hp hr => exact .inr (.inl ⟨hp, hr, rfl⟩)
  case imgRaw => exact .inr (.inr ⟨by simp, by constructor <;> rfl⟩)
  case imgLz => exact .inr (.inr ⟨by simp, by constructor <;> rfl⟩)
  case literals => exact .inr (.inr ⟨by simp, by constructor <;> rfl⟩)
  case copy k lit b term _ _ _ =>
    refine .inr (.inr ⟨by simpa using hb, ?_⟩)
    cases term <;> exact { State.SameOutcome.lzCopies s (s.lzu.src.toNat + 1 + k) lit b with }
  case abortCopy a lit _ => exact .inr (.inr ⟨by simpa using hb, { State.SameOutcome.lzCopies s a lit none with }⟩)
  all_goals exact .inr (.inr ⟨hb, by constructor <;> rfl⟩)

/-! ### The buffers -/

theorem State.lzCopies_lzbuf_gen (s : State) (a lit : Nat) (b : Option BackRef) :
    (s.lzCopies a lit b).mem.lzbuf.gen = s.mem.lzbuf.gen := by
  cases b <;> simp [State.lzCopies_mem_none, State.lzCopies_mem_some]

/-- The copies of LZU leave every byte of LZBUF outside their range (R164). -/
theorem State.get?_lzCopies_outside (s : State) (a lit : Nat) (b : Option BackRef) {x : Nat}
    (h : x < s.lzcount ∨ s.lzcount + lit + backRun b ≤ x) :
    (s.lzCopies a lit b).mem.lzbuf.get? x = s.mem.lzbuf.get? x := by
  cases b with
  | none =>
    rw [backRun] at h
    rw [State.lzCopies_mem_none, get?_litCopy, if_neg (by omega)]
  | some b =>
    rw [backRun] at h
    rw [State.lzCopies_mem_some, get?_backCopy_outside _ _ _ _ (by omega), get?_litCopy, if_neg (by omega)]

/-- The copies of LZU give every byte of their range a value. -/
theorem State.isSome_lzCopies (s : State) (a lit : Nat) (b : Option BackRef) {x : Nat} (h1 : s.lzcount ≤ x)
    (h2 : x < s.lzcount + lit + backRun b) : ((s.lzCopies a lit b).mem.lzbuf.get? x).isSome = true := by
  cases b with
  | none =>
    rw [backRun] at h2
    rw [State.lzCopies_mem_none, get?_litCopy, if_pos (by omega)]; rfl
  | some b =>
    rw [backRun] at h2
    rw [State.lzCopies_mem_some]
    rcases Nat.lt_or_ge x (s.lzcount + lit) with h | h
    · rw [get?_backCopy_outside _ _ _ _ (.inl h), get?_litCopy, if_pos (by omega)]; rfl
    · exact isSome_backCopy _ _ _ _ ⟨h, h2⟩

theorem State.BuffersOk.lzCopies {s : State} (h : s.BuffersOk) (a lit : Nat) (b : Option BackRef)
    (fits : s.lzcount + lit + backRun b ≤ s.npix + 111) : (s.lzCopies a lit b).BuffersOk where
  opcodes := by
    rw [State.lzCopies_opcount, show (s.lzCopies a lit b).mem.opbuf = s.mem.opbuf from
      s.memAt_lzCopies_ne a lit b (sp := .opbuf) (by decide)]
    exact h.opcodes
  lz_bytes k hk := by
    rw [State.lzcount_lzCopies a lit b fits] at hk
    rcases Nat.lt_or_ge k s.lzcount with h1 | h1
    · rw [s.get?_lzCopies_outside a lit b (.inl h1)]; exact h.lz_bytes k h1
    · exact s.isSome_lzCopies a lit b h1 hk
  prev_frame hv k hk := by
    have hprev : s.prev ≠ .lzbuf := by unfold State.prev; cases s.st.cursel <;> decide
    rw [State.lzCopies_st] at hv
    rw [State.lzCopies_npix] at hk
    rw [State.lzCopies_prev, s.memAt_lzCopies_ne a lit b hprev, (State.SameSetup.lzCopies s a lit b).pixelIndex_eq]
    exact h.prev_frame hv k hk

theorem State.BuffersOk.emit {s : State} (h : s.BuffersOk) {v : Byte} (hv : v.toNat < leafLimit)
    (hc : s.opcount < s.npix) : (s.emit v).BuffersOk where
  opcodes k hk := by
    rw [State.opcount_emit v hc] at hk
    rw [State.emit_mem_opbuf, Mem.get?_write]
    split
    · simpa using hv
    · exact h.opcodes k (by omega)
  lz_bytes := h.lz_bytes
  prev_frame hp := by
    have hprev : s.prev ≠ .opbuf := by unfold State.prev; cases s.st.cursel <;> decide
    rw [State.emit_prev, s.memAt_emit_ne v hprev]
    exact h.prev_frame hp

theorem State.BuffersOk.paint {s : State} (h : s.BuffersOk) (sp : Space) (src : List Nat) (n : Nat) :
    (s.paint sp src n).BuffersOk where
  opcodes := by
    rw [show (s.paint sp src n).mem.opbuf = s.mem.opbuf from
      s.memAt_paint_ne sp src n (sp' := .opbuf) s.cur_ne_opbuf.symm]
    exact h.opcodes
  lz_bytes := by
    rw [show (s.paint sp src n).mem.lzbuf = s.mem.lzbuf from
      s.memAt_paint_ne sp src n (sp' := .lzbuf) s.cur_ne_lzbuf.symm]
    exact h.lz_bytes
  prev_frame := by
    rw [State.paint_prev, s.memAt_paint_ne sp src n s.cur_ne_prev.symm]
    exact h.prev_frame

/-- At completion the whole frame is painted, and `CUR` becomes `PREV` (R130). -/
theorem State.BuffersOk.complete {s : State} (h : s.BuffersOk) (f : s.FrpPhase) (hr : s.frp.rem.toNat = 0) :
    s.complete.BuffersOk where
  opcodes := h.opcodes
  lz_bytes := h.lz_bytes
  prev_frame _ k hk := by
    have hprev : s.complete.prev = s.cur := by simp [State.prev, State.cur]
    rw [hprev, State.complete_memAt]
    refine (f.painted _).2 ⟨k, ?_, rfl⟩
    have h1 := f.position
    have h2 : k < s.npix := hk
    omega

/-- Every step of FDB keeps what the buffers hold. -/
theorem FdbMove.keepsBuffers {s t : State} (m : FdbMove s t) (d : s.DecodeOk) (h : s.BuffersOk) : t.BuffersOk := by
  cases m
  case emit hb v hv hc =>
    exact State.BuffersOk.emit (s := s.takeBit) { h with } hv ((d.osd hb.phase).opcount_lt hb.unit_open)
  case emitLast hb v hv hc =>
    exact { State.BuffersOk.emit (s := s.takeBit) { h with } hv ((d.osd hb.phase).opcount_lt hb.unit_open) with }
  case copy k lit b term _ _ fits =>
    cases term <;> exact { h.lzCopies (s.lzu.src.toNat + 1 + k) lit b fits with }
  case abortCopy a lit fits => exact { h.lzCopies a lit none fits with }
  case complete hp hr => exact h.complete (d.frp hp) hr
  case literalRun z _ _ => exact { h.paint s.litSpace (s.litAddrs (s.runSize z)) (s.runSize z) with }
  case prevRun z _ => exact { h.paint s.prev (s.prevAddrs (s.runSize z) 0 0) (s.runSize z) with }
  case moveRun z _ dx dy _ => exact { h.paint s.prev (s.prevAddrs (s.runSize z) dx dy) (s.runSize z) with }
  all_goals exact { h with }

/-- Every step of FDB keeps what holds of STATUS. -/
theorem FdbMove.keepsStatus {s t : State} (m : FdbMove s t) (d : s.DecodeOk) (h : s.StatusOk) : t.StatusOk := by
  rcases m.idle_or_not with ⟨_, rfl⟩ | hp
  · exact h
  · have hb := (State.busy_iff s).2 hp
    rcases m.outcome_cases hp with ⟨c, info, rfl⟩ | ⟨hf, _, rfl⟩ | ⟨_, o⟩
    · exact .raise (h.busy_open hb).1 c info
    · exact h.complete hf (d.frp hf)
    · exact h.of_busy hb o.done o.fault o.cause o.faultinfo

/-! ### The invariant, in four parts -/

theorem State.Inv.decode {s : State} (h : s.Inv) : s.DecodeOk := ⟨h.geometry, h.osd, h.lzu, h.frp⟩

theorem State.Inv.of_parts {s : State} (hw : s.mem.wf = true) (hs : s.StatusOk) (hb : s.BuffersOk) (hd : s.DecodeOk) :
    s.Inv := ⟨hw, hs, hb, hd.geometry, hd.osd, hd.lzu, hd.frp⟩

theorem FdbMove.keepsInv {s t : State} (m : FdbMove s t) (h : s.Inv) : t.Inv :=
  .of_parts (m.keepsWf h.canonical) (m.keepsStatus h.decode h.status) (m.keepsBuffers h.decode h.buffers)
    (m.keepsDecode h.decode)

/-! ### The host's moves -/

/-- The model's own fields are no part of the invariant. -/
theorem State.Inv.of_ownFields {s : State} (h : s.Inv) (ins : List (Option HostMove)) (r : Word) (d : Nat) :
    ({ s with inputs := ins, readback := r, draws := d } : State).Inv where
  canonical := h.canonical
  status := { h.status with }
  buffers := { h.buffers with }
  geometry hb := ⟨{ (h.geometry hb).1 with }, { (h.geometry hb).2 with }⟩
  osd hp := { h.osd hp with }
  lzu hp := { h.lzu hp with }
  frp hp := { h.frp hp with }

theorem State.Inv.csrRead {s : State} (h : s.Inv) (n : Nat) : (s.csrRead n).Inv := by
  rcases s.csrRead_cases n with ⟨_, e⟩ | ⟨_, e⟩ <;> rw [e] <;> exact h.of_ownFields _ _ _

/-- While idle the invariant is about STATUS, the buffers and the memories' form alone. -/
theorem State.Inv.of_idle {s : State} (hi : s.seq.phase = .idle) (hw : s.mem.wf = true) (hs : s.StatusOk)
    (hb : s.BuffersOk) : s.Inv := .of_parts hw hs hb (.of_idle hi)

theorem State.Inv.write_pmem {s : State} (h : s.Inv) (hi : s.busy = false) (a : Nat) (b : Byte) :
    (s.setMem .pmem ((s.memAt .pmem).write a b)).Inv := by
  refine .of_idle ((State.not_busy_iff s).1 hi)
    (State.wf_setMem h.canonical (Mem.wf_write (State.wf_memAt h.canonical _))) { h.status with } ⟨h.buffers.opcodes, h.buffers.lz_bytes, ?_⟩
  have hprev : s.prev ≠ .pmem := by unfold State.prev; cases s.st.cursel <;> decide
  rw [State.setMem_prev, State.memAt_setMem_ne _ _ hprev]
  exact h.buffers.prev_frame

/-- A change of the geometry registers leaves `PREV_VALID` at 1 only if nothing changed (R36). -/
theorem State.Inv.write_geometry {s : State} (h : s.Inv) (hi : s.busy = false) {c : CsrRegs}
    (hf : c.faultinfo = s.csr.faultinfo) (ho : c.opcount = s.csr.opcount) (hl : c.lzcount = s.csr.lzcount) :
    (({ s with csr := c } : State).geometryChanged (s.csr != c)).Inv := by
  have hp := (State.not_busy_iff s).1 hi
  by_cases hc : s.csr = c
  · subst hc; simpa using h
  · rw [show (s.csr != c) = true by simpa using hc, State.geometryChanged_true]
    refine .of_idle hp h.canonical ?_ ?_
    · obtain ⟨h1, _, h3, h4, h5⟩ := h.status
      exact ⟨h1, fun hb => absurd hp ((State.busy_iff _).1 hb), by simpa only [hf] using h3, h4, h5⟩
    · obtain ⟨h1, h2, _⟩ := h.buffers
      refine ⟨?_, ?_, fun hv => by simp at hv⟩
      · simpa only [State.opcount, ho] using h1
      · simpa only [State.lzcount, hl] using h2

theorem State.Inv.write_plen {s : State} (h : s.Inv) (hi : s.busy = false) (v : Word) :
    ({ s with csr := { s.csr with plen := v } } : State).Inv :=
  .of_idle ((State.not_busy_iff s).1 hi) h.canonical
    { h.status with busy_open := fun hb => absurd ((State.not_busy_iff s).1 hi) ((State.busy_iff _).1 hb) }
    { h.buffers with }

/-! ### START -/

/-- The state in which START makes its checks: cleared, with a fresh `CUR`. -/
def State.startReady (s : State) : State := s.startClear.freshCurrent

theorem State.wf_startReady {s : State} (h : s.mem.wf = true) : s.startReady.mem.wf = true :=
  State.wf_setMem (s := s.startClear) h (Mem.wf_forget _)

theorem State.BuffersOk.startReady {s : State} (h : s.BuffersOk) : s.startReady.BuffersOk where
  opcodes k hk := absurd hk (Nat.not_lt_zero k)
  lz_bytes k hk := absurd hk (Nat.not_lt_zero k)
  prev_frame := by
    rw [show s.startReady.memAt s.startReady.prev = s.memAt s.prev from
      State.memAt_setMem_ne s.startClear _ s.cur_ne_prev.symm]
    exact h.prev_frame

theorem State.unpainted_startReady (s : State) : s.startReady.unpainted := by
  unfold State.unpainted
  rw [show s.startReady.memAt s.startReady.cur = _ from State.memAt_setMem_self ..]
  rfl

/-- After START's clearing nothing is recorded, whatever the phase becomes. -/
theorem State.StatusOk.started (s : State) : s.startReady.headerLoad.osdInit.StatusOk where
  one_outcome h := by cases h.1
  busy_open _ := ⟨rfl, rfl⟩
  no_cause _ := ⟨rfl, rfl⟩
  cause_range h := by cases h
  done_endings h := by cases h

/-- START records a fault of the configuration or the header, or both checks passed and OSD is at its first step. -/
theorem State.start_outcome (s : State) :
    (∃ c info, s.start = s.startReady.raise c info) ∨
    (s.startReady.configError? = none ∧ s.startReady.headerError? = none ∧
      s.start = s.startReady.headerLoad.osdInit) := by
  rcases s.start_cases with ⟨k, _, e⟩ | ⟨k, _, _, e⟩ | h
  · exact .inl ⟨_, _, e⟩
  · exact .inl ⟨_, _, e⟩
  · exact .inr h

theorem State.start_of_checks {s : State} (hc : s.startReady.configError? = none)
    (hh : s.startReady.headerError? = none) : s.start = s.startReady.headerLoad.osdInit := by
  rcases s.start_cases with ⟨k, hk, _⟩ | ⟨k, _, hk, _⟩ | ⟨_, _, e⟩
  · cases hc.symm.trans hk
  · cases hh.symm.trans hk
  · exact e

theorem State.startReady_geometry {s : State} (hc : s.startReady.configError? = none)
    (hh : s.startReady.headerError? = none) :
    s.startReady.headerLoad.osdInit.Geometry ∧ s.startReady.headerLoad.osdInit.Segments := by
  obtain ⟨h1, h2, h3, h4, h5, h6⟩ := State.configError?_eq_none.1 hc
  obtain ⟨h7, f0, f1, f2, f3⟩ := State.headerError?_eq_none.1 hh
  have hle : ∀ k, (BitVec.ofNat 16 (s.startReady.hdrField k)).toNat ≤ s.startReady.hdrField k := fun k => by
    rw [BitVec.toNat_ofNat]; exact Nat.mod_le _ _
  exact ⟨⟨h1, h2, h3, h4, h5, h6, h7⟩,
    ⟨lt_of_le_of_lt (hle 0) f0, lt_of_le_of_lt (hle 1) f1, lt_of_le_of_lt (hle 2) f2, lt_of_le_of_lt (hle 3) f3⟩⟩

/-- OSD's initial step (R141). -/
theorem State.startReady_osdPhase {s : State} (g : s.startReady.headerLoad.osdInit.Geometry) :
    s.startReady.headerLoad.osdInit.OsdPhase := by
  set u := s.startReady.headerLoad
  have hpix : 0 < u.osdInit.npix := Nat.mul_pos g.width_pos g.height_pos
  have hbit : u.osdInit.osd.bitpos.toNat = 8 * (u.osdInit.seq.huf.toNat + 1 + 2 * u.osdInit.osd.n.toNat) :=
    toNat_ofNat_of_lt (by have h1 := u.seq.huf.isLt; have h2 := (u.byte .pmem u.seq.huf.toNat).isLt; omega)
  exact {
    sent_eq := toNat_ofNat_of_lt (by
      have h2 := (u.byte .pmem u.seq.huf.toNat).isLt; simp only [sentBias]; omega)
    node_range := .inl rfl
    bitpos_le := .inr hbit
    bitpos_ge := le_of_eq hbit.symm
    opcount_le := Nat.zero_le _
    opcount_lt := fun _ => hpix
    osd_endings := rfl
    lz_unused := rfl
    lz_endings := rfl
    lzcount_eq := rfl
    unpainted := s.unpainted_startReady }

/-- START leaves the phases' part of the invariant true, from any state at all. -/
theorem State.start_decode (s : State) : s.start.DecodeOk := by
  rcases s.start_outcome with ⟨c, info, e⟩ | ⟨hc, hh, e⟩ <;> rw [e]
  · exact .of_idle rfl
  · have g := State.startReady_geometry hc hh
    exact .of_osd rfl g (State.startReady_osdPhase g.1)

theorem State.Inv.start {s : State} (h : s.Inv) : s.start.Inv := by
  refine .of_parts ?_ ?_ ?_ s.start_decode
  all_goals rcases s.start_outcome with ⟨c, info, e⟩ | ⟨_, _, e⟩ <;> rw [e]
  · exact State.wf_startReady h.canonical
  · exact State.wf_startReady h.canonical
  · exact .raise rfl c info
  · exact .started s
  · exact { h.buffers.startReady with }
  · exact { h.buffers.startReady with }

theorem State.Inv.csrWrite {s : State} (h : s.Inv) (n : Nat) (v : Word) : (s.csrWrite n v).Inv := by
  rcases s.csrWrite_cases n v with e | ⟨_, _, _, e⟩ | ⟨hi, c, _, hf, ho, hl, e⟩ | ⟨hi, _, e⟩ <;> rw [e]
  · exact h
  · exact h.start
  · exact h.write_geometry hi hf ho hl
  · exact h.write_plen hi v

/-! ### Reset -/

theorem State.hostReset_get? (s : State) (sp : Space) (a : Nat) : (s.hostReset.memAt sp).get? a = none := by
  cases sp <;> rfl

/-- The registers at the values of R51 satisfy the invariant, whatever well-formed memories stand beside them. -/
theorem State.Inv.reset_with (c : Config) {m : Mems} (hm : m.wf = true) (ins : List (Option HostMove)) (r : Word)
    (d : Nat) : ({ State.reset with cfg := c, mem := m, inputs := ins, readback := r, draws := d } : State).Inv := by
  refine .of_idle rfl hm ?_ ?_
  · exact {
      one_outcome := fun h => by cases h.1
      busy_open := fun h => by cases h
      no_cause := fun _ => ⟨rfl, rfl⟩
      cause_range := fun h => by cases h
      done_endings := fun h => by cases h }
  · exact {
      opcodes := fun k hk => absurd hk (Nat.not_lt_zero k)
      lz_bytes := fun k hk => absurd hk (Nat.not_lt_zero k)
      prev_frame := fun h => by cases h }

/-! ### Every step -/

theorem State.Inv.hostMove {s t : State} (h : s.Inv) {m : HostMove} (e : hostMove m s = .next t) : t.Inv := by
  cases m with
  | writeCsr n v => cases e; exact h.csrWrite n v
  | readCsr n => cases e; exact h.csrRead n
  | writePmem a b => obtain ⟨hi, _, rfl⟩ := State.hostWriteByte_next e; exact h.write_pmem hi a b
  | readPmem a => obtain ⟨_, _, rfl⟩ := State.hostReadByte_next e; exact h.of_ownFields _ _ _
  | readBank bank a => obtain ⟨_, _, rfl⟩ := State.hostReadByte_next e; exact h.of_ownFields _ _ _
  | reset => cases e; exact .reset_with s.cfg rfl _ _ _

/-- Settles O57: every move of FDB (`FdbMove.keepsInv`) and every move of the host keeps the four parts of the
invariant. -/
theorem stepKeepsInv : Obligations.StepKeepsInv := by
  intro s t h e
  rcases step_next e with ⟨ins, m⟩ | ⟨m, rest, _, e⟩
  · exact m.keepsInv (h.of_ownFields ins s.readback s.draws)
  · exact State.Inv.hostMove (h.of_ownFields rest s.readback s.draws) e

/-- Settles O56: the values of R51 beside empty memories. -/
theorem invAtReset : Obligations.InvAtReset := .reset_with Config.largest State.wf_reset [] 0 0

end Sys2Proof.Machine
end

section
/-! SUPPORT. What a step of FDB writes, how its cursors move, and which events change the frame pair. -/

namespace Sys2Proof.Machine

/-! ### Which bytes an operation can change -/

/-- Equal generation and equal value: the byte reads the same. -/
theorem State.byte_congr {s t : State} {sp : Space} {a : Nat} (hg : (t.memAt sp).gen = (s.memAt sp).gen)
    (h : (t.memAt sp).get? a = (s.memAt sp).get? a) : t.byte sp a = s.byte sp a := Mem.byte_congr sp hg h

theorem State.emit_writes {s : State} {v : Byte} {sp : Space} {a : Nat} (h : (s.emit v).byte sp a ≠ s.byte sp a) :
    sp = .opbuf ∧ a = s.opcount := by
  by_contra hn
  refine h ?_
  by_cases hsp : sp = .opbuf
  · subst hsp
    exact Mem.byte_write_ne _ _ _ fun ha => hn ⟨rfl, ha⟩
  · rw [State.byte_def, s.memAt_emit_ne v hsp, State.byte_def]

theorem State.lzCopies_writes {s : State} {x lit : Nat} {b : Option BackRef} {sp : Space} {a : Nat}
    (h : (s.lzCopies x lit b).byte sp a ≠ s.byte sp a) :
    sp = .lzbuf ∧ s.lzcount ≤ a ∧ a < s.lzcount + lit + backRun b := by
  by_contra hn
  refine h ?_
  by_cases hsp : sp = .lzbuf
  · subst hsp
    exact State.byte_congr (s.lzCopies_lzbuf_gen x lit b) (s.get?_lzCopies_outside x lit b (by
      rcases Nat.lt_or_ge a s.lzcount with h1 | h1
      · exact .inl h1
      · exact .inr (Nat.le_of_not_lt fun h2 => hn ⟨rfl, h1, h2⟩)))
  · rw [State.byte_def, s.memAt_lzCopies_ne x lit b hsp, State.byte_def]

theorem State.paint_writes {s : State} {from' : Space} {src : List Nat} {n : Nat} {sp : Space} {a : Nat}
    (h : (s.paint from' src n).byte sp a ≠ s.byte sp a) : sp = s.cur ∧ a ∈ s.runAddrs n := by
  by_contra hn
  refine h ?_
  by_cases hsp : sp = s.cur
  · subst hsp
    have hnot : a ∉ ((s.runAddrs n).zip (src.map (s.byte from'))).map Prod.fst := fun hm => by
      obtain ⟨c, hc, rfl⟩ := List.mem_map.1 hm
      exact hn ⟨rfl, (List.of_mem_zip hc).1⟩
    refine State.byte_congr ?_ ?_
    · rw [State.memAt_paint_cur, Mem.writeAll_gen]
    · rw [State.memAt_paint_cur, Mem.get?_writeAll_notMem hnot]
  · rw [State.byte_def, s.memAt_paint_ne from' src n hsp, State.byte_def]

theorem State.lzcount_lzDone {s : State} (k lit : Nat) (b : Option BackRef) (term : Bool)
    (fits : s.lzcount + lit + backRun b ≤ s.npix + 111) :
    (s.lzDone k lit b term).lzcount = s.lzcount + lit + backRun b := by
  have := s.npix_le
  rw [State.lzcount, State.lzDone_lzcount_toNat]
  exact toNat_ofNat_of_lt (by omega)

/-- A run changes only pixels between the old and the new position. -/
theorem State.FrpPhase.run_writes {s t : State} (h : s.FrpPhase) {z : SizeSrc} (hr : s.AtRun z) {f : Bool}
    (hp : t.paintedCount = (s.endRun (s.runSize z) z.bytes f).paintedCount) {from' : Space} {src : List Nat}
    {sp : Space} {a : Nat} (hne : (s.paint from' src (s.runSize z)).byte sp a ≠ s.byte sp a) :
    sp = s.cur ∧ s.seq.phase = .frp ∧ ∃ k, s.paintedCount ≤ k ∧ k < t.paintedCount ∧ a = s.pixelIndex k := by
  obtain ⟨hsp, ha⟩ := State.paint_writes hne
  rw [hp, (h.endRun_position hr.size_le).2.1]
  exact ⟨hsp, hr.phase, (State.mem_runAddrs h.x_lt).1 ha⟩

/-- Settles O54, by the cases of `FdbMove`: emitting, the LZU copies and painting are the only moves that write. -/
theorem fdbWritesOnlyItsOwn : Obligations.FdbWritesOnlyItsOwn := by
  intro s t inv hin e sp a hne
  have d := inv.decode
  have m := fdbStep_move ((step_of_no_inputs hin).symm.trans e)
  cases m
  case emit hb v _ _ =>
    obtain ⟨hsp, ha⟩ := State.emit_writes (s := s.takeBit) hne
    exact .inl ⟨hsp, hb.phase, ha⟩
  case emitLast hb v _ _ =>
    obtain ⟨hsp, ha⟩ := State.emit_writes (s := s.takeBit) hne
    exact .inl ⟨hsp, hb.phase, ha⟩
  case copy hc k lit b term _ _ fits =>
    have hne : (s.lzCopies (s.lzu.src.toNat + 1 + k) lit b).byte sp a ≠ s.byte sp a := by
      cases term <;> exact hne
    obtain ⟨hsp, h1, h2⟩ := State.lzCopies_writes hne
    exact .inr (.inl ⟨hsp, hc.phase, h1, by rw [State.lzcount_lzDone k lit b term fits]; exact h2⟩)
  case abortCopy hc x lit fits =>
    obtain ⟨hsp, h1, h2⟩ := State.lzCopies_writes (b := none) hne
    have hcount := State.lzcount_lzCopies (s := s) x lit none fits
    exact .inr (.inl ⟨hsp, hc.phase, h1, lt_of_lt_of_eq h2 hcount.symm⟩)
  case literalRun z hr _ => exact .inr (.inr ((d.frp hr.phase).run_writes hr (f := false) rfl hne))
  case prevRun z hr => exact .inr (.inr ((d.frp hr.phase).run_writes hr (f := true) rfl hne))
  case moveRun z hr _ _ _ => exact .inr (.inr ((d.frp hr.phase).run_writes hr (f := false) rfl hne))
  all_goals exact absurd rfl hne

/-! ### The cursors -/

/-- A step of OSD that neither ends it nor faults consumes one bit (R142). -/
theorem FdbMove.bitpos_next {s t : State} (m : FdbMove s t) (hp : s.seq.phase = .osd) (hu : s.seq.unitDone = false)
    (hn : s.osd.node.toNat ≠ sentBias) (hf : t.st.fault = false) : t.osd.bitpos.toNat = s.osd.bitpos.toNat + 1 := by
  cases m
  case walk hb _ _ | emit hb _ _ _ | emitLast hb _ _ _ => exact hb.bitpos_next.1
  case raise => cases hf
  case mark h => exact absurd h hn
  case imgRaw h | imgLz h => simp [hu] at h
  case idle h | literals h _ | full h _ _ | complete h _ => simp [hp] at h
  case copy h _ _ _ _ _ _ _ | abort h | abortCopy h _ _ _ | flip h | literalRun h _ | prevRun h | moveRun h _ _ _ =>
    have := h.phase; simp [hp] at this

/-- An LZU instruction that neither faults nor aborts moves `SRC` by its length (R101, R164). -/
theorem FdbMove.src_next {s t : State} (m : FdbMove s t) (hp : s.seq.phase = .lzu) (hu : s.seq.unitDone = false)
    (hr : s.lzcount < s.npix) (hf : t.st.fault = false) (ht : t.st.lzTrunc = false) :
    t.lzu.src.toNat = s.lzu.src.toNat + lzLength s.lzInstr ∧ 1 ≤ lzLength s.lzInstr := by
  cases m
  case copy k lit b term len src _ =>
    have h1 : (s.lzDone k lit b term).lzu.src = BitVec.ofNat 32 (s.lzu.src.toNat + 1 + k + lit) := by
      cases term <;> simp [State.lzDone]
    rw [h1, toNat_ofNat_of_lt (by have := s.plen_lt; omega)]
    omega
  case raise => cases hf
  case abort | abortCopy => cases ht
  case full h => omega
  case literals h => simp [hu] at h
  case idle h | imgRaw h _ | imgLz h _ | mark h _ _ | complete h _ => simp [hp] at h
  case walk h _ _ | emit h _ _ _ | emitLast h _ _ _ | flip h | literalRun h _ | prevRun h | moveRun h _ _ _ =>
    have := h.phase; simp [hp] at this

/-- An FRP opcode that does not fault moves `OPC` by 1 (R191, R232). -/
theorem FdbMove.opc_next {s t : State} (m : FdbMove s t) (hp : s.seq.phase = .frp) (hr : s.frp.rem.toNat ≠ 0)
    (hf : t.st.fault = false) : t.frp.opc.toNat = s.frp.opc.toNat + 1 := by
  cases m
  case flip h | literalRun h _ | prevRun h | moveRun h _ _ _ => exact State.opc_next h.opc_lt
  case raise => cases hf
  case complete h => exact absurd h hr
  case idle h | imgRaw h _ | imgLz h _ | mark h _ _ | literals h _ | full h _ _ => simp [hp] at h
  case walk h _ _ | emit h _ _ _ | emitLast h _ _ _ | copy h _ _ _ _ _ _ _ | abort h | abortCopy h _ _ _ =>
    have := h.phase; simp [hp] at this

/-- Settles O53, by the cases of `FdbMove`, one lemma for each cursor. -/
theorem cursorsAdvance : Obligations.CursorsAdvance := by
  intro s t _ hin e hf
  have m := fdbStep_move ((step_of_no_inputs hin).symm.trans e)
  exact ⟨fun hp hu hn => m.bitpos_next hp hu hn hf, fun hp hu hr ht => m.src_next hp hu hr hf ht,
    fun hp hr => m.opc_next hp hr hf⟩

end Sys2Proof.Machine
end

section
/-! SUPPORT. The CSRs as the host sees them, the layout of STATUS, reset, and the frame pair. -/

namespace Sys2Proof.Machine

/-! ### The layout of STATUS -/

theorem bitAt_eq (b : Bool) (k : Nat) : bitAt b k = b.toNat * 2 ^ k := by cases b <;> simp [bitAt]

theorem StatusBits.endings_eq (t : StatusBits) : t.endings = t.osdEnd.toNat + t.osdCap.toNat * 2 + t.lzUsed.toNat * 4 +
    t.lzTerm.toNat * 8 + t.lzFull.toNat * 16 + t.lzTrunc.toNat * 32 := by
  simp [StatusBits.endings, bitAt_eq]

theorem StatusBits.endings_lt (t : StatusBits) : t.endings < 64 := by
  rw [t.endings_eq]
  have := t.osdEnd.toNat_le; have := t.osdCap.toNat_le; have := t.lzUsed.toNat_le
  have := t.lzTerm.toNat_le; have := t.lzFull.toNat_le; have := t.lzTrunc.toNat_le
  omega

/-- The assembled word as a number: no field reaches into another's bits. -/
theorem statusOf_toNat (busy done fault pv cs : Bool) {e : Nat} (he : e < 64) (cause : BitVec 5) :
    (statusOf busy done fault pv cs e cause).toNat = busy.toNat + done.toNat * 2 + fault.toNat * 4 + pv.toNat * 8 +
      cs.toNat * 16 + e * 32 + cause.toNat * 65536 := by
  have := busy.toNat_le; have := done.toNat_le; have := fault.toNat_le; have := pv.toNat_le; have := cs.toNat_le
  have := cause.isLt
  simp only [statusOf, bitAt_eq]
  rw [toNat_ofNat_of_lt (by omega)]
  omega

/-- Reading one bit of a word from its number. -/
theorem getLsbD_of_toNat {x : Word} {k : Nat} {b : Bool} (h : x.toNat / 2 ^ k % 2 = b.toNat) : x.getLsbD k = b := by
  rw [BitVec.getLsbD, Nat.testBit_eq_decide_div_mod_eq, h]
  cases b <;> rfl

/-- Reading a field of a word from its number. -/
theorem extractLsb'_of_toNat {x : Word} {k l : Nat} {y : BitVec l} (h : x.toNat / 2 ^ k % 2 ^ l = y.toNat) :
    x.extractLsb' k l = y := by
  apply BitVec.eq_of_toNat_eq
  rw [BitVec.extractLsb'_toNat, Nat.shiftRight_eq_div_pow, h]

/-- A word that shows the given fields at the places of R35, the reserved bits 0. -/
structure ShowsStatus (x : Word) (busy done fault pv cs : Bool) (t : StatusBits) (cause : BitVec 5) : Prop where
  busy_bit : x.getLsbD 0 = busy
  done_bit : x.getLsbD 1 = done
  fault_bit : x.getLsbD 2 = fault
  prevValid_bit : x.getLsbD 3 = pv
  cursel_bit : x.getLsbD 4 = cs
  osdEnd_bit : x.getLsbD 5 = t.osdEnd
  osdCap_bit : x.getLsbD 6 = t.osdCap
  lzUsed_bit : x.getLsbD 7 = t.lzUsed
  lzTerm_bit : x.getLsbD 8 = t.lzTerm
  lzFull_bit : x.getLsbD 9 = t.lzFull
  lzTrunc_bit : x.getLsbD 10 = t.lzTrunc
  reserved_low : x.extractLsb' 11 5 = 0
  cause_field : x.extractLsb' 16 5 = cause
  reserved_high : x.extractLsb' 21 11 = 0

theorem statusOf_shows (busy done fault pv cs : Bool) (t : StatusBits) (cause : BitVec 5) :
    ShowsStatus (statusOf busy done fault pv cs t.endings cause) busy done fault pv cs t cause := by
  have hx := statusOf_toNat busy done fault pv cs t.endings_lt cause
  have he := t.endings_eq
  have := busy.toNat_le; have := done.toNat_le; have := fault.toNat_le; have := pv.toNat_le; have := cs.toNat_le
  have := t.osdEnd.toNat_le; have := t.osdCap.toNat_le; have := t.lzUsed.toNat_le
  have := t.lzTerm.toNat_le; have := t.lzFull.toNat_le; have := t.lzTrunc.toNat_le
  have := cause.isLt
  constructor
  case reserved_low | cause_field | reserved_high => exact extractLsb'_of_toNat (by rw [hx]; simp; omega)
  all_goals exact getLsbD_of_toNat (by rw [hx]; omega)

/-- Settles O48, from the number the assembled word is. -/
theorem statusLayout : Obligations.StatusLayout := by
  intro s
  obtain ⟨h0, h1, h2, h3, h4, h5, h6, h7, h8, h9, h10, h11, h12, h13⟩ :=
    statusOf_shows s.busy s.st.done s.st.fault s.st.prevValid s.st.cursel s.st s.st.cause
  exact ⟨h0, h1, h2, h3, h4, h5, h6, h7, h8, h9, h10, h11, h12, h13, rfl, by
    rw [State.statusWord, h1, h2]; rfl⟩

/-! ### CSR writes and memory moves -/

theorem State.csrWrite_busy {s : State} (h : s.busy = true) (n : Nat) (v : Word) : s.csrWrite n v = s := by
  unfold State.csrWrite; rw [if_pos h]

/-- Settles O45, by the test of `BUSY` that comes first in each move. -/
theorem busyHostMoves : Obligations.BusyHostMoves := by
  intro s hb
  exact ⟨fun n v => congrArg Host.Outcome.next (s.csrWrite_busy hb n v), fun a b => if_pos hb, fun a => if_pos hb,
    fun bank a => if_pos hb⟩

theorem State.geometryChanged_bne (s : State) (x y : Half) :
    s.geometryChanged (x != y) = { s with st := { s.st with prevValid := s.st.prevValid && (x == y) } } := by
  cases h : x == y <;> simp [bne, h]

theorem State.csrWrite_width {s : State} (h : s.busy = false) (v : Word) : s.csrWrite 2 v = { s with
    csr := { s.csr with width := v.setWidth 16 }
    st := { s.st with prevValid := s.st.prevValid && (s.csr.width == v.setWidth 16) } } := by
  unfold State.csrWrite; rw [if_neg (by simp [h])]; exact State.geometryChanged_bne _ _ _

theorem State.csrWrite_height {s : State} (h : s.busy = false) (v : Word) : s.csrWrite 3 v = { s with
    csr := { s.csr with height := v.setWidth 16 }
    st := { s.st with prevValid := s.st.prevValid && (s.csr.height == v.setWidth 16) } } := by
  unfold State.csrWrite; rw [if_neg (by simp [h])]; exact State.geometryChanged_bne _ _ _

theorem State.csrWrite_stride {s : State} (h : s.busy = false) (v : Word) : s.csrWrite 4 v = { s with
    csr := { s.csr with stride := v.setWidth 16 }
    st := { s.st with prevValid := s.st.prevValid && (s.csr.stride == v.setWidth 16) } } := by
  unfold State.csrWrite; rw [if_neg (by simp [h])]; exact State.geometryChanged_bne _ _ _

theorem State.csrWrite_plen {s : State} (h : s.busy = false) (v : Word) :
    s.csrWrite 5 v = { s with csr := { s.csr with plen := v } } := by
  unfold State.csrWrite; rw [if_neg (by simp [h])]; rfl

theorem State.csrWrite_start {s : State} (h : s.busy = false) {v : Word} (hv : v.getLsbD 0 = true) :
    s.csrWrite 0 v = s.start := by
  unfold State.csrWrite; rw [if_neg (by simp [h])]; exact if_pos hv

theorem State.csrWrite_noStart {s : State} {v : Word} (hv : v.getLsbD 0 = false) : s.csrWrite 0 v = s := by
  unfold State.csrWrite
  split
  · rfl
  · exact if_neg (by rw [hv]; decide)

/-- STATUS, FAULTINFO, OPCOUNT, LZCOUNT and the numbers above 8 ignore writes (R35, R38 to R40). -/
theorem State.csrWrite_readOnly (s : State) {n : Nat} (hn : n = 1 ∨ 6 ≤ n) (v : Word) : s.csrWrite n v = s := by
  unfold State.csrWrite
  split
  · rfl
  · split <;> first | omega | rfl

/-- Settles O46, by one equation for each CSR number. -/
theorem idleCsrWrites : Obligations.IdleCsrWrites := by
  intro s v h
  exact ⟨congrArg _ (s.csrWrite_width h v), congrArg _ (s.csrWrite_height h v), congrArg _ (s.csrWrite_stride h v),
    congrArg _ (s.csrWrite_plen h v), fun hv => congrArg _ (s.csrWrite_noStart hv),
    fun n hn => congrArg _ (s.csrWrite_readOnly hn v)⟩

/-! ### CSR reads -/

/-- The numbers above 8 read 0 (R40). -/
theorem State.csrValue_unused (s : State) {n : Nat} (hn : 9 ≤ n) : s.csrValue n = 0 := by
  unfold State.csrValue
  split <;> first | omega | rfl

theorem setWidth_half_toNat (x : Half) : (x.setWidth 32).toNat = x.toNat := by
  rw [BitVec.toNat_setWidth, Nat.mod_eq_of_lt (by have := x.isLt; omega)]

/-- Settles O47, by the value of each CSR number. -/
theorem idleCsrReads : Obligations.IdleCsrReads := by
  intro s n h
  have hr : s.csrRead n = { s with readback := s.csrValue n } := by unfold State.csrRead; rw [if_neg (by simp [h])]
  refine ⟨_, congrArg Host.Outcome.next hr, rfl, ?_, ?_, ?_, ?_, ?_, ?_, ?_, ?_, ?_, s.csrValue_unused⟩
  all_goals rintro rfl
  case refine_3 | refine_4 | refine_5 => exact setWidth_half_toNat _
  all_goals rfl

/-! ### Reset -/

theorem State.hostReset_statusWord (s : State) : s.hostReset.statusWord = 0 :=
  (show s.hostReset.statusWord = State.reset.statusWord from rfl).trans (by decide)

/-- Settles O44: the reset move writes the fields of `State.reset` and forgets every memory. -/
theorem resetValues : Obligations.ResetValues := by
  refine ⟨⟨rfl, rfl, rfl, rfl, rfl, rfl, rfl, rfl, rfl, rfl, rfl, fun sp a => by cases sp <;> rfl⟩, fun s => ?_⟩
  exact ⟨s.hostReset, rfl,
    ⟨rfl, rfl, s.hostReset_statusWord, rfl, rfl, rfl, rfl, rfl, rfl, rfl, rfl, s.hostReset_get?⟩, rfl⟩

/-! ### The frame pair -/

/-- START keeps `CURSEL` and `PREV_VALID` (R121). -/
theorem State.start_framePair (s : State) :
    s.start.st.cursel = s.st.cursel ∧ s.start.st.prevValid = s.st.prevValid := by
  rcases s.start_outcome with ⟨c, info, e⟩ | ⟨_, _, e⟩ <;> rw [e] <;> exact ⟨rfl, rfl⟩

/-- A step of FDB that changes the frame pair is the completion step (R130). -/
theorem FdbMove.framePair {s t : State} (m : FdbMove s t) :
    (s.seq.phase = .frp ∧ s.frp.rem.toNat = 0 ∧ t = s.complete) ∨
    (t.st.cursel = s.st.cursel ∧ t.st.prevValid = s.st.prevValid) := by
  rcases m.idle_or_not with ⟨_, rfl⟩ | hp
  · exact .inr ⟨rfl, rfl⟩
  · rcases m.outcome_cases hp with ⟨c, info, rfl⟩ | hc | ⟨_, o⟩
    · exact .inr ⟨rfl, rfl⟩
    · exact .inl hc
    · exact .inr ⟨o.cursel, o.prevValid⟩

/-- `PREV_VALID` after a write of `y` to a geometry register that holds `x`. -/
theorem prevValid_after (pv : Bool) (x y : Half) :
    (pv && (x == y)) = pv ∨ (pv && (x == y)) = false ∧ y.toNat ≠ x.toNat := by
  by_cases h : x = y
  · exact .inl (by simp [h])
  · exact .inr ⟨by simp [h], fun he => h (BitVec.eq_of_toNat_eq he.symm)⟩

/-- A CSR write keeps `CURSEL`, and `PREV_VALID` but for a write that changes the geometry (R36). -/
theorem State.csrWrite_framePair (s : State) (n : Nat) (v : Word) :
    (s.csrWrite n v).st.cursel = s.st.cursel ∧
    ((s.csrWrite n v).st.prevValid = s.st.prevValid ∨
      (s.csrWrite n v).st.prevValid = false ∧ s.busy = false ∧ (n = 2 ∨ n = 3 ∨ n = 4) ∧
        ((s.csrWrite n v).w ≠ s.w ∨ (s.csrWrite n v).h ≠ s.h ∨ (s.csrWrite n v).stride ≠ s.stride)) := by
  cases hb : s.busy
  case true => rw [s.csrWrite_busy hb]; exact ⟨rfl, .inl rfl⟩
  case false =>
    rcases (show n = 0 ∨ n = 2 ∨ n = 3 ∨ n = 4 ∨ n = 5 ∨ n = 1 ∨ 6 ≤ n by omega) with
      rfl | rfl | rfl | rfl | rfl | hn
    · cases hv : v.getLsbD 0
      · rw [State.csrWrite_noStart hv]; exact ⟨rfl, .inl rfl⟩
      · rw [State.csrWrite_start hb hv]; exact ⟨s.start_framePair.1, .inl s.start_framePair.2⟩
    · rw [State.csrWrite_width hb]
      exact ⟨rfl, (prevValid_after _ _ _).imp_right fun ⟨h1, h2⟩ => ⟨h1, rfl, .inl rfl, .inl h2⟩⟩
    · rw [State.csrWrite_height hb]
      exact ⟨rfl, (prevValid_after _ _ _).imp_right fun ⟨h1, h2⟩ => ⟨h1, rfl, .inr (.inl rfl), .inr (.inl h2)⟩⟩
    · rw [State.csrWrite_stride hb]
      exact ⟨rfl, (prevValid_after _ _ _).imp_right fun ⟨h1, h2⟩ => ⟨h1, rfl, .inr (.inr rfl), .inr (.inr h2)⟩⟩
    · rw [State.csrWrite_plen hb]; exact ⟨rfl, .inl rfl⟩
    · rw [s.csrWrite_readOnly hn]; exact ⟨rfl, .inl rfl⟩

/-- A host move but reset keeps the frame pair, or is a geometry write that clears `PREV_VALID` (R28, R29). -/
theorem hostMove_framePair {s t : State} {m : HostMove} (e : hostMove m s = .next t) :
    m = .reset ∨ (t.st.cursel = s.st.cursel ∧
      (t.st.prevValid = s.st.prevValid ∨
        t.st.prevValid = false ∧ ∃ n v, m = .writeCsr n v ∧ s.busy = false ∧ (n = 2 ∨ n = 3 ∨ n = 4) ∧
          (t.w ≠ s.w ∨ t.h ≠ s.h ∨ t.stride ≠ s.stride))) := by
  cases m with
  | reset => exact .inl rfl
  | writeCsr n v =>
    cases e
    obtain ⟨hc, hv | ⟨hv, hb, hn, hg⟩⟩ := s.csrWrite_framePair n v
    · exact .inr ⟨hc, .inl hv⟩
    · exact .inr ⟨hc, .inr ⟨hv, n, v, rfl, hb, hn, hg⟩⟩
  | readCsr n =>
    cases e
    rcases s.csrRead_cases n with ⟨_, e⟩ | ⟨_, e⟩ <;> rw [e] <;> exact .inr ⟨rfl, .inl rfl⟩
  | writePmem a b => obtain ⟨_, _, rfl⟩ := State.hostWriteByte_next e; exact .inr ⟨rfl, .inl rfl⟩
  | readPmem a => obtain ⟨_, _, rfl⟩ := State.hostReadByte_next e; exact .inr ⟨rfl, .inl rfl⟩
  | readBank bank a => obtain ⟨_, _, rfl⟩ := State.hostReadByte_next e; exact .inr ⟨rfl, .inl rfl⟩

/-- Every step: the completion step, reset, a geometry write that clears `PREV_VALID`, or one that keeps the frame
pair. -/
theorem step_framePair {s t : State} (e : step s = .next t) :
    (s.seq.phase = .frp ∧ s.frp.rem.toNat = 0 ∧ t.st.done = true ∧ t.busy = false ∧ t.st.prevValid = true) ∨
    (∃ rest, s.inputs = some .reset :: rest) ∧ t.st.prevValid = false ∨
    (t.st.cursel = s.st.cursel ∧ (t.st.prevValid = s.st.prevValid ∨
      t.st.prevValid = false ∧ ∃ n v rest, s.inputs = some (.writeCsr n v) :: rest ∧ s.busy = false ∧
        (n = 2 ∨ n = 3 ∨ n = 4) ∧ (t.w ≠ s.w ∨ t.h ≠ s.h ∨ t.stride ≠ s.stride))) := by
  rcases step_next e with ⟨ins, m⟩ | ⟨m, rest, hin, e⟩
  · rcases m.framePair with ⟨hp, hr, rfl⟩ | ⟨hc, hv⟩
    · exact .inl ⟨hp, hr, rfl, rfl, rfl⟩
    · exact .inr (.inr ⟨hc, .inl hv⟩)
  · rcases hostMove_framePair e with rfl | ⟨hc, hv | ⟨hv, n, v, rfl, hb, hn, hg⟩⟩
    · cases e; exact .inr (.inl ⟨⟨rest, hin⟩, rfl⟩)
    · exact .inr (.inr ⟨hc, .inl hv⟩)
    · exact .inr (.inr ⟨hc, .inr ⟨hv, n, v, rest, hin, hb, hn, hg⟩⟩)

/-- Settles O52, from the four kinds of step that `step_framePair` tells apart. -/
theorem framePairChanges : Obligations.FramePairChanges := by
  intro s t e
  rcases step_framePair e with ⟨hp, hr, hd, hb, hv⟩ | ⟨hreset, hv⟩ | ⟨hc, hv⟩
  · exact ⟨fun _ => .inr ⟨hp, hr, hd, hb⟩, fun _ _ => ⟨hp, hr, hd, hb⟩, fun _ h => by simp [hv] at h⟩
  · exact ⟨fun _ => .inl hreset, fun _ h => by simp [hv] at h, fun _ _ => .inl hreset⟩
  · refine ⟨fun h => absurd hc h, fun h0 h1 => ?_, fun h1 h0 => ?_⟩
    · rcases hv with hv | ⟨hv, _⟩ <;> simp [hv, h0] at h1
    · rcases hv with hv | ⟨_, hw⟩
      · simp [hv, h1] at h0
      · exact .inr hw

end Sys2Proof.Machine
end

section
/-! SUPPORT. What a read of a CSR shows while a decode is in progress: a step boundary, which keeps the invariant's part
about the decode. -/

namespace Sys2Proof.Machine

/-! ### The boundaries of a decode -/

/-- A combination of ending bits that R35 allows: at most one of OSD's two, and of LZU's three only where LZU was used
after OSD ended. -/
theorem endings_legal {t : StatusBits} (ho : t.osdEndings ≤ 1) (hn : t.lzUsed = false → t.lzEndings = 0)
    (hu : t.lzUsed = true → t.osdEndings = 1 ∧ t.lzEndings ≤ 1) : t.endings ∈ legalEndings := by
  have all : ∀ a b c d e f : Bool, bitAt a 0 + bitAt b 0 ≤ 1 → (c = false → bitAt d 0 + bitAt e 0 + bitAt f 0 = 0) →
      (c = true → bitAt a 0 + bitAt b 0 = 1 ∧ bitAt d 0 + bitAt e 0 + bitAt f 0 ≤ 1) →
      bitAt a 0 + bitAt b 1 + bitAt c 2 + bitAt d 3 + bitAt e 4 + bitAt f 5 ∈ legalEndings := by decide
  exact all _ _ _ _ _ _ ho hn hu

/-- What every boundary of the decode that START begins at `s` shows (R31, R32, R35, R43). -/
structure State.BoundaryOk (s u : State) : Prop where
  decode : u.DecodeOk
  npix : u.npix = s.npix
  prevValid : u.st.prevValid = s.st.prevValid
  cursel : u.st.cursel = s.st.cursel
  idle_clear : u.seq.phase = .idle → u.st.endings = 0 ∧ u.opcount = 0
  lzcount_le : u.lzcount ≤ u.npix + 111

theorem State.BoundaryOk.start (s : State) : s.BoundaryOk s.start where
  decode := s.start_decode
  npix := by rcases s.start_outcome with ⟨c, info, e⟩ | ⟨_, _, e⟩ <;> rw [e] <;> rfl
  prevValid := s.start_framePair.2
  cursel := s.start_framePair.1
  idle_clear _ := by rcases s.start_outcome with ⟨c, info, e⟩ | ⟨_, _, e⟩ <;> rw [e] <;> exact ⟨rfl, rfl⟩
  lzcount_le := by rcases s.start_outcome with ⟨c, info, e⟩ | ⟨_, _, e⟩ <;> rw [e] <;> exact Nat.zero_le _

/-- A step of FDB raises `LZCOUNT` to at most `NPIX + 111` (R32). -/
theorem FdbMove.lzcount_le {s t : State} (m : FdbMove s t) (h : s.lzcount ≤ s.npix + 111) :
    t.lzcount ≤ t.npix + 111 := by
  rw [m.sameSetup.npix_eq]
  cases m
  case copy k lit b term _ _ fits => rw [State.lzcount_lzDone k lit b term fits]; exact fits
  case abortCopy a lit fits => exact le_of_eq_of_le (State.lzcount_lzCopies a lit none fits) fits
  all_goals exact h

/-- A step of FDB that goes on with the decode keeps the outcome bits and the frame pair. -/
theorem FdbMove.sameOutcome_of_busy {s t : State} (m : FdbMove s t) (hb : t.busy = true) : s.SameOutcome t := by
  have ht := (State.busy_iff t).1 hb
  rcases m.idle_or_not with ⟨hi, rfl⟩ | hp
  · exact absurd hi ht
  · rcases m.outcome_cases hp with ⟨c, info, rfl⟩ | ⟨_, _, rfl⟩ | ⟨_, o⟩
    · exact absurd rfl ht
    · exact absurd rfl ht
    · exact o

/-- A step of FDB that goes on with the decode goes from boundary to boundary. -/
theorem State.BoundaryOk.next {s u v : State} (h : s.BoundaryOk u) (m : FdbMove u v) (hb : v.busy = true) :
    s.BoundaryOk v := by
  have hv := (State.busy_iff v).1 hb
  have o := m.sameOutcome_of_busy hb
  exact {
    decode := m.keepsDecode h.decode
    npix := m.sameSetup.npix_eq.trans h.npix
    prevValid := o.prevValid.trans h.prevValid
    cursel := o.cursel.trans h.cursel
    idle_clear := fun hi => absurd hi hv
    lzcount_le := m.lzcount_le h.lzcount_le }

theorem State.BoundaryOk.boundary (s : State) (k : Nat) : s.BoundaryOk (s.boundary k) :=
  State.runBusy_induction (P := s.BoundaryOk) (fun _ _ h e hb => h.next (fdbStep_move e) hb) k _ (.start s)

theorem State.BoundaryOk.endings_legal {s u : State} (h : s.BoundaryOk u) : u.st.endings ∈ legalEndings := by
  cases hp : u.seq.phase with
  | idle => rw [(h.idle_clear hp).1]; decide
  | osd =>
    have p := h.decode.osd hp
    refine Machine.endings_legal ?_ (fun _ => p.lz_endings) (fun hu => by simp [p.lz_unused] at hu)
    rw [p.osd_endings]; split <;> decide
  | lzu =>
    have p := h.decode.lzu hp
    refine Machine.endings_legal (le_of_eq p.osd_endings) (fun hu => by simp [p.lz_used] at hu)
      (fun _ => ⟨p.osd_endings, ?_⟩)
    rw [p.lz_endings]; split <;> decide
  | frp =>
    have p := h.decode.frp hp
    refine Machine.endings_legal (le_of_eq p.osd_endings) (fun hu => ?_) (fun hu => ⟨p.osd_endings, ?_⟩)
    · rw [p.lz_endings, ← p.lz_used, hu]; rfl
    · rw [p.lz_endings, ← p.lz_used, hu]; decide

theorem State.BoundaryOk.opcount_le {s u : State} (h : s.BoundaryOk u) : u.opcount ≤ s.npix := by
  rw [← h.npix]
  cases hp : u.seq.phase with
  | idle => rw [(h.idle_clear hp).2]; exact Nat.zero_le _
  | osd => exact (h.decode.osd hp).opcount_le
  | lzu => exact (h.decode.lzu hp).opcount_le
  | frp => exact (h.decode.frp hp).opcount_le

/-! ### Busy reads -/

/-- Every CSR but STATUS, OPCOUNT and LZCOUNT reads while busy as at any time (R43). -/
theorem State.csrValueBusy_other (s : State) (n k : Nat) (h : n ≠ 1 ∧ n ≠ 7 ∧ n ≠ 8) :
    s.csrValueBusy n k = s.csrValue n := by
  unfold State.csrValueBusy
  dsimp only
  split <;> first | omega | rfl

/-- `BUSY`, `DONE` and `FAULT` as one field: 1 while a decode is in progress. -/
theorem ShowsStatus.outcome_field {x : Word} {pv cs : Bool} {t : StatusBits} {c : BitVec 5}
    (h : ShowsStatus x true false false pv cs t c) : x.extractLsb' 0 3 = 1 := by
  apply BitVec.eq_of_getLsbD_eq
  intro i hi
  rw [BitVec.getLsbD_extractLsb', Nat.zero_add, decide_eq_true hi, Bool.true_and]
  interval_cases i
  · exact h.busy_bit
  · exact h.done_bit
  · exact h.fault_bit

/-- Settles O49: every boundary of the decode satisfies `State.BoundaryOk`, by induction along the decode. -/
theorem busyCsrReads : Obligations.BusyCsrReads := by
  intro s n hb
  set k := Config.busyPick s.draws
  have hr : s.csrRead n = { s with readback := s.csrValueBusy n k, draws := s.draws + 1 } := by
    unfold State.csrRead; rw [if_pos hb]
  have ok := State.BoundaryOk.boundary s k
  have other := s.csrValueBusy_other n k
  refine ⟨_, k, congrArg Host.Outcome.next hr, rfl, ?_, ?_, ?_, ?_, ?_, ?_, ?_, ?_, ?_, ?_⟩
  case refine_2 =>
    rintro rfl
    have f := statusOf_shows true false false (s.boundary k).st.prevValid (s.boundary k).st.cursel (s.boundary k).st 0
    exact ⟨f.outcome_field, f.prevValid_bit.trans ok.prevValid, f.cursel_bit.trans ok.cursel, f.osdEnd_bit,
      f.osdCap_bit, f.lzUsed_bit, f.lzTerm_bit, f.lzFull_bit, f.lzTrunc_bit, ok.endings_legal, f.reserved_low, f.cause_field,
      f.reserved_high⟩
  case refine_8 => rintro rfl; exact ⟨rfl, ok.opcount_le⟩
  case refine_9 => rintro rfl; exact ⟨rfl, ok.npix ▸ ok.lzcount_le⟩
  case refine_10 => intro hn; exact (other (by omega)).trans (s.csrValue_unused hn)
  all_goals
    rintro rfl
    dsimp only
    rw [other (by decide)]
  case refine_3 | refine_4 | refine_5 => exact setWidth_half_toNat _
  all_goals rfl

end Sys2Proof.Machine
end

section
/-! SUPPORT. Two states of one decode: what FDB does depends on the setup, on the registers of the units that have begun,
and on the opcodes emitted so far, and on nothing else. States that agree in these step alike. -/

namespace Sys2Proof.Machine

/-! ### The relation -/

/-- The two states agree in all that decides how the decode goes on. The registers of a unit that has not begun, the bytes
of LZBUF and of the banks, and the model's own fields may differ. -/
structure SameDecode (a b : State) : Prop where
  cfg : b.cfg = a.cfg
  csr : b.csr = a.csr
  st : b.st = a.st
  osd : b.osd = a.osd
  pmem : b.mem.pmem = a.mem.pmem
  phase : b.seq.phase = a.seq.phase
  unitDone : b.seq.unitDone = a.seq.unitDone
  huf : b.seq.huf = a.seq.huf
  sizoff : b.seq.sizoff = a.seq.sizoff
  vecoff : b.seq.vecoff = a.seq.vecoff
  imgoff : b.seq.imgoff = a.seq.imgoff
  opcodes : ∀ k, k < a.opcount → b.byte .opbuf k = a.byte .opbuf k
  lzu : a.seq.phase = .lzu → b.lzu = a.lzu ∧ b.seq.litmode = a.seq.litmode
  frp : a.seq.phase = .frp → b.frp = a.frp ∧ b.seq = a.seq

theorem State.literalSource_frp_eq (s : State) : s.literalSource.frp =
    { x := 0, y := 0, rem := BitVec.ofNat 32 s.npix, flag := false, opc := 0, siz := s.seq.sizoff.setWidth 32,
      vec := s.seq.vecoff.setWidth 32, lit := 0 } := rfl

theorem State.literalSource_seq_eq (s : State) : s.literalSource.seq = { s.seq with
    litbase := if s.seq.litmode then 0 else BitVec.ofNat 32 (s.seq.imgoff.toNat + 1)
    litlen := if s.seq.litmode then s.csr.lzcount else BitVec.ofNat 32 (s.plen - s.seq.imgoff.toNat - 1)
    phase := .frp
    unitDone := false } := rfl

namespace SameDecode

variable {a b : State}

theorem w_eq (h : SameDecode a b) : b.w = a.w := congrArg (fun c => c.width.toNat) h.csr
theorem h_eq (h : SameDecode a b) : b.h = a.h := congrArg (fun c => c.height.toNat) h.csr
theorem stride_eq (h : SameDecode a b) : b.stride = a.stride := congrArg (fun c => c.stride.toNat) h.csr
theorem plen_eq (h : SameDecode a b) : b.plen = a.plen := congrArg (fun c => c.plen.toNat) h.csr
theorem opcount_eq (h : SameDecode a b) : b.opcount = a.opcount := congrArg (fun c => c.opcount.toNat) h.csr
theorem lzcount_eq (h : SameDecode a b) : b.lzcount = a.lzcount := congrArg (fun c => c.lzcount.toNat) h.csr
theorem npix_eq (h : SameDecode a b) : b.npix = a.npix := by rw [State.npix_def, h.w_eq, h.h_eq, State.npix_def]
theorem size_eq (h : SameDecode a b) : b.size = a.size := by
  funext sp; cases sp <;> simp only [State.size, h.cfg]
theorem cur_eq (h : SameDecode a b) : b.cur = a.cur := congrArg (fun t : StatusBits => bankOf t.cursel) h.st
theorem prev_eq (h : SameDecode a b) : b.prev = a.prev := congrArg (fun t : StatusBits => bankOf (!t.cursel)) h.st
theorem payload_eq (h : SameDecode a b) (k : Nat) : b.byte .pmem k = a.byte .pmem k :=
  congrArg (fun m => Mem.byte .pmem m k) h.pmem
theorem busy_eq (h : SameDecode a b) : b.busy = a.busy := congrArg (fun p => p != Phase.idle) h.phase

/-- The SEQ registers agree but for the literal source, which the marker step chooses. -/
theorem seq_eq (h : SameDecode a b) : b.seq =
    { a.seq with litmode := b.seq.litmode, litbase := b.seq.litbase, litlen := b.seq.litlen } := by
  dsimp only
  rw [← h.phase, ← h.unitDone, ← h.huf, ← h.sizoff, ← h.vecoff, ← h.imgoff]

/-! ### Operations keep it -/

theorem raise (h : SameDecode a b) (c : Cause) (info : Nat) : SameDecode (a.raise c info) (b.raise c info) :=
  { h with
    csr := by simp only [State.raise, h.csr]
    st := by simp only [State.raise, h.st]
    phase := rfl
    lzu := fun hp => by cases hp
    frp := fun hp => by cases hp }

theorem endUnit (h : SameDecode a b) : SameDecode a.endUnit b.endUnit :=
  { h with
    unitDone := rfl
    frp := fun hp => ⟨(h.frp hp).1, by simp only [State.endUnit, (h.frp hp).2]⟩ }

/-- A unit ends with the same change of the STATUS bits on both sides. -/
theorem endWith (h : SameDecode a b) (f : StatusBits → StatusBits) :
    SameDecode ({ a with st := f a.st } : State).endUnit ({ b with st := f b.st } : State).endUnit :=
  SameDecode.endUnit (a := { a with st := f a.st }) (b := { b with st := f b.st }) { h with st := congrArg f h.st }

theorem osdEndByMark (h : SameDecode a b) : SameDecode a.osdEndByMark b.osdEndByMark :=
  h.endWith fun t => { t with osdEnd := true }

theorem osdEndByCap (h : SameDecode a b) : SameDecode a.osdEndByCap b.osdEndByCap :=
  h.endWith fun t => { t with osdCap := true }

theorem lzEndFull (h : SameDecode a b) : SameDecode a.lzEndFull b.lzEndFull :=
  h.endWith fun t => { t with lzFull := true }

theorem lzEndTerm (h : SameDecode a b) : SameDecode a.lzEndTerm b.lzEndTerm :=
  h.endWith fun t => { t with lzTerm := true }

theorem lzEndTrunc (h : SameDecode a b) : SameDecode a.lzEndTrunc b.lzEndTrunc :=
  h.endWith fun t => { t with lzTrunc := true }

theorem lzFinish (h : SameDecode a b) (term : Bool) : SameDecode (a.lzFinish term) (b.lzFinish term) := by
  cases term
  · exact h
  · exact h.lzEndTerm

theorem takeBit (h : SameDecode a b) : SameDecode a.takeBit b.takeBit :=
  { h with osd := by simp only [State.takeBit, h.osd] }

theorem walkTo (h : SameDecode a b) (v : BitVec 9) : SameDecode (a.walkTo v) (b.walkTo v) :=
  { h with osd := by simp only [State.walkTo, h.osd] }

theorem emit (h : SameDecode a b) (v : Byte) : SameDecode (a.emit v) (b.emit v) :=
  { h with
    csr := by simp only [State.emit, h.csr, h.opcount_eq]
    osd := by simp only [State.emit, h.osd]
    opcodes := fun k hk => by
      have hk : k < a.opcount + 1 := lt_of_lt_of_le hk (by
        rw [State.opcount, State.emit_csr_opcount, BitVec.toNat_ofNat]; exact Nat.mod_le _ _)
      have hb : (b.emit v).byte .opbuf k = (b.mem.opbuf.write a.opcount v).byte .opbuf k := by
        rw [← h.opcount_eq]; rfl
      rw [hb, show (a.emit v).byte .opbuf k = (a.mem.opbuf.write a.opcount v).byte .opbuf k from rfl]
      rcases Nat.lt_succ_iff_lt_or_eq.1 hk with hk | rfl
      · rw [Mem.byte_write_ne _ _ _ (Nat.ne_of_lt hk), Mem.byte_write_ne _ _ _ (Nat.ne_of_lt hk)]
        exact h.opcodes k hk
      · rw [Mem.byte_write_self, Mem.byte_write_self] }

/-- The literal-source step, with the literal mode chosen (R127). -/
theorem literalSource (h : SameDecode a b) (hm : b.seq.litmode = a.seq.litmode) :
    SameDecode a.literalSource b.literalSource :=
  { h with
    phase := rfl
    unitDone := rfl
    lzu := fun hp => by cases hp
    frp := fun _ => by
      constructor
      · rw [State.literalSource_frp_eq, State.literalSource_frp_eq, h.npix_eq, h.sizoff, h.vecoff]
      · rw [State.literalSource_seq_eq, State.literalSource_seq_eq, h.seq_eq, hm, h.csr, h.plen_eq] }

theorem imgRaw (h : SameDecode a b) (hp : a.seq.phase = .osd) :
    SameDecode a.chooseRaw.literalSource b.chooseRaw.literalSource := by
  refine SameDecode.literalSource (a := a.chooseRaw) (b := b.chooseRaw) ?_ rfl
  exact { h with
    lzu := fun hl => by simp [hp] at hl
    frp := fun hf => by simp [hp] at hf }

theorem imgLz (h : SameDecode a b) : SameDecode a.chooseLz.lzuInit b.chooseLz.lzuInit :=
  { h with
    st := by simp only [State.lzuInit, State.chooseLz, h.st]
    phase := rfl
    unitDone := rfl
    lzu := fun _ => ⟨by simp only [State.lzuInit, State.chooseLz, h.imgoff], rfl⟩
    frp := fun hp => by cases hp }

theorem complete (h : SameDecode a b) : SameDecode a.complete b.complete :=
  { h with
    st := by simp only [State.complete, h.st]
    phase := rfl
    lzu := fun hp => by cases hp
    frp := fun hp => by cases hp }

theorem lzAdvance (h : SameDecode a b) (hp : a.seq.phase = .lzu) (k lit : Nat) :
    SameDecode (a.lzAdvance k lit) (b.lzAdvance k lit) :=
  { h with
    lzu := fun _ => ⟨by simp only [State.lzAdvance, (h.lzu hp).1], (h.lzu hp).2⟩
    frp := fun hf => by simp [hp] at hf }

theorem lzCopies (h : SameDecode a b) (x y lit : Nat) (back : Option BackRef) :
    SameDecode (a.lzCopies x lit back) (b.lzCopies y lit back) := by
  have op : ∀ (s : State) (z k : Nat), (s.lzCopies z lit back).byte .opbuf k = s.byte .opbuf k := fun s z k => by
    rw [State.byte_def, s.memAt_lzCopies_ne z lit back (by decide), State.byte_def]
  constructor
  case csr => rw [State.lzCopies_csr, State.lzCopies_csr, h.csr, h.lzcount_eq]
  case pmem => rw [State.lzCopies_mem_pmem, State.lzCopies_mem_pmem, h.pmem]
  case opcodes => intro k hk; rw [op, op]; exact h.opcodes k (by simpa using hk)
  case lzu => simpa using h.lzu
  case frp => simpa using h.frp
  all_goals simp [h.cfg, h.st, h.osd, h.phase, h.unitDone, h.huf, h.sizoff, h.vecoff, h.imgoff]

/-- What is painted does not matter to the decode. -/
theorem paint (h : SameDecode a b) (sp sp' : Space) (src src' : List Nat) (n n' : Nat) :
    SameDecode (a.paint sp src n) (b.paint sp' src' n') :=
  { h with
    pmem := by rw [State.paint_mem_pmem, State.paint_mem_pmem, h.pmem]
    opcodes := fun k hk => by
      have op : ∀ (s : State) (sp : Space) (src : List Nat) (n : Nat),
          (s.paint sp src n).byte .opbuf k = s.byte .opbuf k := fun s sp src n => by
        rw [State.byte_def, s.memAt_paint_ne sp src n s.cur_ne_opbuf.symm, State.byte_def]
      rw [op, op]; exact h.opcodes k hk }

/-- An update of FRP's registers, the same on both sides. -/
theorem with_frp (h : SameDecode a b) (hp : a.seq.phase = .frp) (r : FrpRegs) :
    SameDecode { a with frp := r } { b with frp := r } :=
  { h with frp := fun _ => ⟨rfl, (h.frp hp).2⟩ }

theorem endRun (h : SameDecode a b) (hp : a.seq.phase = .frp) (n z : Nat) (f : Bool) :
    SameDecode (a.endRun n z f) (b.endRun n z f) := by
  unfold State.endRun; rw [(h.frp hp).1, h.w_eq]; exact h.with_frp hp _

theorem takeLit (h : SameDecode a b) (hp : a.seq.phase = .frp) (n : Nat) : SameDecode (a.takeLit n) (b.takeLit n) := by
  unfold State.takeLit; rw [(h.frp hp).1]; exact h.with_frp hp _

theorem takeVec (h : SameDecode a b) (hp : a.seq.phase = .frp) : SameDecode a.takeVec b.takeVec := by
  unfold State.takeVec; rw [(h.frp hp).1]; exact h.with_frp hp _

end SameDecode

/-! ### Outcomes -/

/-- Next states that agree, or the same stop. -/
inductive SameOut : Out → Out → Prop where
  | next {a b : State} (h : SameDecode a b) : SameOut (.next a) (.next b)
  | fault (r : Fault) : SameOut (.fault r) (.fault r)

theorem SameOut.ite {c : Prop} [Decidable c] {x x' y y' : Out} (hx : SameOut x x') (hy : SameOut y y') :
    SameOut (if c then x else y) (if c then x' else y') := by
  split
  · exact hx
  · exact hy

/-- An instruction that the two states execute alike, or the same outcome of a step that executes none. -/
inductive SameFetched (a b : State) : Fetched → Fetched → Prop where
  | run (i : Instr) (h : SameOut (exec i a) (exec i b)) : SameFetched a b (.run i) (.run i)
  | other {o o' : Out} (h : SameOut o o') : SameFetched a b (.other o) (.other o')

theorem SameFetched.ite {a b : State} {c : Prop} [Decidable c] {x x' y y' : Fetched} (hx : SameFetched a b x x')
    (hy : SameFetched a b y y') : SameFetched a b (if c then x else y) (if c then x' else y') := by
  split
  · exact hx
  · exact hy

namespace SameDecode

variable {a b : State}

theorem firstMissing?_eq (h : SameDecode a b) (sp : Space) (as : List Nat) :
    b.firstMissing? sp as = a.firstMissing? sp as := by
  unfold State.firstMissing?; rw [h.size_eq]

theorem needBytes (h : SameDecode a b) (sp : Space) (as : List Nat) {k k' : Out} (hk : SameOut k k') :
    SameOut (a.needBytes sp as k) (b.needBytes sp as k') := by
  unfold State.needBytes; rw [h.firstMissing?_eq]
  split
  · exact .fault _
  · exact hk

theorem fetchBytes (h : SameDecode a b) (sp : Space) (as : List Nat) {k k' : Fetched} (hk : SameFetched a b k k') :
    SameFetched a b (a.fetchBytes sp as k) (b.fetchBytes sp as k') := by
  unfold State.fetchBytes; rw [h.firstMissing?_eq]
  split
  · exact .other (.fault _)
  · exact hk

theorem fetchRaise (h : SameDecode a b) (c : Cause) (info : Nat) :
    SameFetched a b (a.fetchRaise c info) (b.fetchRaise c info) := .other (.next (h.raise c info))

/-! ### Marker and OSD -/

theorem fetchMarker (h : SameDecode a b) (hp : a.seq.phase = .osd) :
    SameFetched a b (fetchMarker a) (fetchMarker b) := by
  unfold Machine.fetchMarker
  rw [h.imgoff, h.payload_eq]
  refine h.fetchBytes _ _ (.run _ ?_)
  unfold decodeMarker
  split
  · exact .next h.imgLz
  · exact .next (h.imgRaw hp)

theorem execLeaf (h : SameDecode a b) (v : Byte) : SameOut (execLeaf v a) (execLeaf v b) := by
  unfold Machine.execLeaf
  rw [h.opcount_eq, h.npix_eq]
  refine h.needBytes _ _ (.next ?_)
  split
  · exact (h.takeBit.emit v).osdEndByCap
  · exact h.takeBit.emit v

theorem exec_trie (h : SameDecode a b) (v : Byte) : SameOut (exec (decodeTrie v) a) (exec (decodeTrie v) b) := by
  unfold decodeTrie
  split
  · exact h.execLeaf v
  · split
    · exact .next (h.takeBit.walkTo _)
    · exact .next (h.takeBit.walkTo _)

theorem tableIndex_eq (h : SameDecode a b) : b.tableIndex = a.tableIndex := by
  unfold State.tableIndex State.nextBit; rw [h.osd, h.payload_eq]

theorem tableAddr_eq (h : SameDecode a b) : b.tableAddr = a.tableAddr := by
  unfold State.tableAddr; rw [h.huf, h.tableIndex_eq]

theorem fetchEntry (h : SameDecode a b) : SameFetched a b (fetchEntry a) (fetchEntry b) := by
  unfold Machine.fetchEntry
  rw [h.osd, h.tableIndex_eq, h.tableAddr_eq, h.plen_eq, h.payload_eq]
  exact .ite (.other (.fault _)) (.ite (h.fetchRaise _ _) (.ite (h.fetchRaise _ _)
    (h.fetchBytes _ _ (.run _ (h.exec_trie _)))))

theorem fetchOsd (h : SameDecode a b) : SameFetched a b (fetchOsd a) (fetchOsd b) := by
  unfold Machine.fetchOsd
  rw [h.osd, h.plen_eq]
  exact .ite (.other (.next h.osdEndByMark)) (.ite (h.fetchRaise _ _) (h.fetchBytes _ _ h.fetchEntry))

/-! ### LZU -/

theorem backTooFar_eq (h : SameDecode a b) (lit : Nat) (back : Option BackRef) :
    b.backTooFar lit back = a.backTooFar lit back := by
  cases back with
  | none => rfl
  | some r => simp only [State.backTooFar, h.lzcount_eq]

theorem lzBody (h : SameDecode a b) (hp : a.seq.phase = .lzu) (k lit : Nat) (back : Option BackRef) (term : Bool) :
    SameOut (lzBody k lit back term a) (lzBody k lit back term b) := by
  unfold Machine.lzBody
  rw [(h.lzu hp).1, h.plen_eq, h.backTooFar_eq, h.lzcount_eq]
  exact .ite (.next (h.raise _ _)) (.ite (.next (h.raise _ _)) (h.needBytes _ _ (h.needBytes _ _
    (.next (((h.lzCopies _ _ _ _).lzAdvance (by simpa using hp) _ _).lzFinish _)))))

theorem lzAbort (h : SameDecode a b) (hp : a.seq.phase = .lzu) (k lit : Nat) :
    SameOut (lzAbort k lit a) (lzAbort k lit b) := by
  unfold Machine.lzAbort
  rw [(h.lzu hp).1, h.plen_eq, h.lzcount_eq, h.cfg]
  exact .ite (.ite (.next (h.raise _ _)) (h.needBytes _ _ (h.needBytes _ _ (.next (h.lzCopies _ _ _ _).lzEndTrunc))))
    (.next h.lzEndTrunc)

theorem lzInstr_eq (h : SameDecode a b) (hp : a.seq.phase = .lzu) : b.lzInstr = a.lzInstr := by
  unfold State.lzInstr State.lzOperand State.ctrlByte
  simp only [(h.lzu hp).1, h.payload_eq]

theorem exec_lzInstr (h : SameDecode a b) (hp : a.seq.phase = .lzu) :
    SameOut (exec a.lzInstr a) (exec a.lzInstr b) := by
  unfold State.lzInstr decodeLz
  cases lzForm a.ctrlByte
  case c =>
    show SameOut (execLzc _ _ _ _ _ _ a) (execLzc _ _ _ _ _ _ b)
    unfold execLzc
    rw [h.npix_eq, h.lzcount_eq]
    exact .ite (h.lzAbort hp _ _) (h.lzBody hp _ _ _ _)
  all_goals exact h.lzBody hp _ _ _ _

theorem fetchLzu (h : SameDecode a b) (hp : a.seq.phase = .lzu) : SameFetched a b (fetchLzu a) (fetchLzu b) := by
  have hc : b.ctrlByte = a.ctrlByte := by unfold State.ctrlByte; rw [(h.lzu hp).1, h.payload_eq]
  unfold Machine.fetchLzu
  rw [h.npix_eq, h.lzcount_eq, h.plen_eq, hc, (h.lzu hp).1, h.lzInstr_eq hp]
  exact .ite (.other (.next h.lzEndFull)) (.ite (h.fetchRaise _ _) (h.fetchBytes _ _ (.ite (h.fetchRaise _ _)
    (h.fetchBytes _ _ (.run _ (h.exec_lzInstr hp))))))

/-! ### FRP -/

theorem frpRaise (h : SameDecode a b) (hp : a.seq.phase = .frp) (c : Cause) :
    SameOut (a.frpRaise c) (b.frpRaise c) := by
  unfold State.frpRaise; rw [(h.frp hp).1]; exact .next (h.raise _ _)

theorem runSize_eq (h : SameDecode a b) (hp : a.seq.phase = .frp) (z : SizeSrc) : b.runSize z = a.runSize z := by
  unfold State.runSize; simp only [(h.frp hp).1, h.payload_eq]

theorem runAddrs_eq (h : SameDecode a b) (hp : a.seq.phase = .frp) (n : Nat) : b.runAddrs n = a.runAddrs n := by
  unfold State.runAddrs; rw [h.w_eq, h.stride_eq, (h.frp hp).1]

theorem prevAddrs_eq (h : SameDecode a b) (hp : a.seq.phase = .frp) (n : Nat) (dx dy : Int) :
    b.prevAddrs n dx dy = a.prevAddrs n dx dy := by
  unfold State.prevAddrs; rw [h.w_eq, h.stride_eq, (h.frp hp).1]

theorem litAddrs_eq (h : SameDecode a b) (hp : a.seq.phase = .frp) (n : Nat) : b.litAddrs n = a.litAddrs n := by
  unfold State.litAddrs State.litAddr; rw [(h.frp hp).1, (h.frp hp).2]

theorem litSpace_eq (h : SameDecode a b) (hp : a.seq.phase = .frp) : b.litSpace = a.litSpace := by
  unfold State.litSpace; rw [(h.frp hp).2]

theorem motionInside_eq (h : SameDecode a b) (hp : a.seq.phase = .frp) (n : Nat) (dx dy : Int) :
    b.motionInside n dx dy = a.motionInside n dx dy := by
  unfold State.motionInside; rw [h.w_eq, h.h_eq, (h.frp hp).1]

theorem withRunSize (h : SameDecode a b) (hp : a.seq.phase = .frp) (z : SizeSrc) {k k' : Nat → Out}
    (hk : ∀ n, SameOut (k n) (k' n)) : SameOut (withRunSize z a k) (withRunSize z b k') := by
  unfold Machine.withRunSize
  rw [h.runSize_eq hp, h.plen_eq, h.w_eq, (h.frp hp).1]
  exact .ite (h.frpRaise hp _) (h.needBytes _ _ (.ite (h.frpRaise hp _) (.ite (.fault _) (hk _))))

theorem altLiteral (h : SameDecode a b) (hp : a.seq.phase = .frp) (n z : Nat) :
    SameOut (altLiteral n z a) (altLiteral n z b) := by
  unfold Machine.altLiteral
  rw [(h.frp hp).1, (h.frp hp).2, h.litSpace_eq hp, h.litAddrs_eq hp, h.runAddrs_eq hp, h.cur_eq]
  exact .ite (h.frpRaise hp _) (h.needBytes _ _ (h.needBytes _ _
    (.next (((h.paint _ _ _ _ _ _).endRun hp _ _ _).takeLit hp _))))

theorem altPrev (h : SameDecode a b) (hp : a.seq.phase = .frp) (n z : Nat) :
    SameOut (altPrev n z a) (altPrev n z b) := by
  unfold Machine.altPrev
  rw [h.st, h.prevAddrs_eq hp, h.runAddrs_eq hp, h.cur_eq, h.prev_eq]
  exact .ite (h.frpRaise hp _) (h.needBytes _ _ (h.needBytes _ _ (.next ((h.paint _ _ _ _ _ _).endRun hp _ _ _))))

theorem altStep (h : SameDecode a b) (hp : a.seq.phase = .frp) (z : SizeSrc) : SameOut (altStep z a) (altStep z b) := by
  unfold Machine.altStep
  rw [(h.frp hp).1]
  exact h.withRunSize hp z fun n => .ite (h.altPrev hp _ _) (h.altLiteral hp _ _)

theorem mvVector (h : SameDecode a b) (hp : a.seq.phase = .frp) (n z : Nat) (v : Byte) :
    SameOut (mvVector n z v a) (mvVector n z v b) := by
  unfold Machine.mvVector
  rw [h.st, h.motionInside_eq hp, h.prevAddrs_eq hp, h.runAddrs_eq hp, h.cur_eq, h.prev_eq]
  exact .ite (h.frpRaise hp _) (.ite (h.frpRaise hp _) (h.needBytes _ _ (h.needBytes _ _
    (.next (((h.paint _ _ _ _ _ _).endRun hp _ _ _).takeVec hp)))))

theorem mvStep (h : SameDecode a b) (hp : a.seq.phase = .frp) (z : SizeSrc) : SameOut (mvStep z a) (mvStep z b) := by
  unfold Machine.mvStep
  rw [(h.frp hp).1, h.plen_eq, h.payload_eq]
  exact h.withRunSize hp z fun n => .ite (h.frpRaise hp _) (h.needBytes _ _ (h.mvVector hp _ _ _))

theorem exec_op (h : SameDecode a b) (hp : a.seq.phase = .frp) {v : Byte} {i : Instr} (hd : decodeOp v = some i) :
    SameOut (exec i a) (exec i b) := by
  rcases decodeOp_forms hd with rfl | ⟨z, hz⟩ | ⟨z, hz⟩
  · show SameOut (execFlip a) (execFlip b)
    unfold execFlip; rw [(h.frp hp).1]; exact .next (h.with_frp hp _)
  · rw [exec_alt hz, exec_alt hz]; exact h.altStep hp z
  · rw [exec_mv hz, exec_mv hz]; exact h.mvStep hp z

theorem fetchFrp (h : SameDecode a b) (hp : a.seq.phase = .frp) : SameFetched a b (fetchFrp a) (fetchFrp b) := by
  unfold Machine.fetchFrp
  rw [(h.frp hp).1, h.opcount_eq]
  by_cases ho : a.opcount ≤ a.frp.opc.toNat
  · rw [if_pos ho, if_pos ho]
    exact .ite (.other (.next h.complete)) (h.fetchRaise _ _)
  · rw [if_neg ho, if_neg ho, h.opcodes _ (Nat.lt_of_not_le ho)]
    refine .ite (.other (.next h.complete)) (h.fetchBytes _ _ ?_)
    split
    · exact .run _ (h.exec_op hp ‹_›)
    · exact h.fetchRaise _ _

/-! ### Steps -/

theorem fetch (h : SameDecode a b) : SameFetched a b (fetch a) (fetch b) := by
  unfold Machine.fetch
  rw [h.phase, h.unitDone]
  cases hp : a.seq.phase
  case idle => exact .other (.next h)
  case osd => exact .ite (h.fetchMarker hp) h.fetchOsd
  case lzu => exact .ite (.other (.next (h.literalSource (h.lzu hp).2))) (h.fetchLzu hp)
  case frp => exact h.fetchFrp hp

/-- States of one decode step alike. -/
theorem fdbStep (h : SameDecode a b) : SameOut (fdbStep a) (fdbStep b) := by
  unfold Machine.fdbStep
  have hf := h.fetch
  generalize Machine.fetch a = x at hf
  generalize Machine.fetch b = y at hf
  cases hf with
  | run i h => exact h
  | other h => exact h

/-- States of one decode reach the same boundaries. -/
theorem runBusy (k : Nat) : ∀ {a b : State}, SameDecode a b → SameDecode (a.runBusy k) (b.runBusy k) := by
  induction k with
  | zero => exact fun h => h
  | succ k ih =>
    intro a b h
    unfold State.runBusy
    have hs := h.fdbStep
    generalize Machine.fdbStep a = x at hs
    generalize Machine.fdbStep b = y at hs
    cases hs with
    | next h' =>
      dsimp only
      rw [h'.busy_eq]
      split
      · exact ih h'
      · exact h
    | fault r => exact h

end SameDecode

/-! ### The decode in progress, started anew -/

/-- What determines a decode: the parameters, the configuration, the payload and the frame pair (R43). -/
structure State.SameInput (s u : State) : Prop where
  cfg : u.cfg = s.cfg
  width : u.csr.width = s.csr.width
  height : u.csr.height = s.csr.height
  stride : u.csr.stride = s.csr.stride
  plen : u.csr.plen = s.csr.plen
  pmem : u.mem.pmem = s.mem.pmem
  prevValid : u.st.prevValid = s.st.prevValid
  cursel : u.st.cursel = s.st.cursel

/-- What a boundary shows of the decode that START began at `s`: its input, and no outcome yet (R36, R45, R121, R311). -/
structure State.InProgress (s u : State) : Prop extends s.SameInput u where
  done : u.st.done = false
  fault : u.st.fault = false
  cause : u.st.cause = 0
  faultinfo : u.csr.faultinfo = 0

/-- OSD's registers after its initial step, from the length byte and the table's place (R141). -/
def osdRegsAt (n : Byte) (huf : Half) : OsdRegs where
  n := n
  sent := BitVec.ofNat 9 (n.toNat + sentBias)
  node := BitVec.ofNat 9 (n.toNat + sentBias)
  bitpos := BitVec.ofNat 35 (8 * (huf.toNat + 1 + 2 * n.toNat))

theorem State.osdInit_osd_eq (s : State) :
    s.osdInit.osd = osdRegsAt (s.byte .pmem s.seq.huf.toNat) s.seq.huf := rfl

theorem State.startReady_pmem (s : State) : s.startReady.mem.pmem = s.mem.pmem :=
  State.memAt_setMem_ne s.startClear (sp' := .pmem) _ s.cur_ne_pmem.symm

/-- An accepted START whose checks pass. -/
theorem State.start_of_busy {s : State} (h : s.start.busy = true) :
    s.startReady.configError? = none ∧ s.startReady.headerError? = none ∧
      s.start = s.startReady.headerLoad.osdInit := by
  rcases s.start_outcome with ⟨c, info, e⟩ | h'
  · rw [e] at h; cases h
  · exact h'

theorem State.InProgress.start {s : State} (h : s.start.busy = true) : s.InProgress s.start := by
  rw [(State.start_of_busy h).2.2]
  constructor
  case toSameInput => constructor <;> first | rfl | exact s.startReady_pmem
  all_goals rfl

theorem State.InProgress.next {s u v : State} (h : s.InProgress u) (m : FdbMove u v) (hb : v.busy = true) :
    s.InProgress v := by
  have o := m.sameOutcome_of_busy hb
  have c := m.sameSetup
  exact {
    cfg := c.cfg.trans h.cfg
    width := c.width.trans h.width
    height := c.height.trans h.height
    stride := c.stride.trans h.stride
    plen := c.plen.trans h.plen
    pmem := c.pmem.trans h.pmem
    prevValid := o.prevValid.trans h.prevValid
    cursel := o.cursel.trans h.cursel
    done := o.done.trans h.done
    fault := o.fault.trans h.fault
    cause := o.cause.trans h.cause
    faultinfo := o.faultinfo.trans h.faultinfo }

theorem State.InProgress.runBusy {s : State} (h : s.start.busy = true) (k : Nat) :
    s.InProgress (s.start.runBusy k) :=
  State.runBusy_induction (P := s.InProgress) (fun _ _ p e hb => p.next (fdbStep_move e) hb) k _ (.start h)

namespace State.SameInput

variable {s u : State}

theorem payload_eq (h : s.SameInput u) (a : Nat) : u.startReady.byte .pmem a = s.startReady.byte .pmem a := by
  have hm : u.startReady.mem.pmem = s.startReady.mem.pmem := by rw [u.startReady_pmem, s.startReady_pmem, h.pmem]
  exact congrArg (fun m => Mem.byte .pmem m a) hm

theorem hdrField_eq (h : s.SameInput u) (k : Nat) : u.startReady.hdrField k = s.startReady.hdrField k := by
  simp only [State.hdrField, h.payload_eq]

theorem checks_pass (h : s.SameInput u) (hc : s.startReady.configError? = none)
    (hh : s.startReady.headerError? = none) :
    u.startReady.configError? = none ∧ u.startReady.headerError? = none := by
  have hw : u.startReady.w = s.startReady.w := congrArg BitVec.toNat h.width
  have hh' : u.startReady.h = s.startReady.h := congrArg BitVec.toNat h.height
  have hs : u.startReady.stride = s.startReady.stride := congrArg BitVec.toNat h.stride
  have hp : u.startReady.plen = s.startReady.plen := congrArg BitVec.toNat h.plen
  have hcfg : u.startReady.cfg = s.startReady.cfg := h.cfg
  exact ⟨by unfold State.configError?; rw [hw, hh', hs, hp, hcfg]; exact hc,
    by unfold State.headerError?; simp only [hp, h.hdrField_eq]; exact hh⟩

/-- The start steps of one input lead to states of one decode. -/
theorem sameDecode (h : s.SameInput u) :
    SameDecode s.startReady.headerLoad.osdInit u.startReady.headerLoad.osdInit where
  cfg := h.cfg
  csr := by simp only [State.startReady, State.osdInit_csr, State.headerLoad_csr, State.freshCurrent_csr,
    State.startClear, h.width, h.height, h.stride, h.plen]
  st := by simp only [State.startReady, State.osdInit_st, State.headerLoad_st, State.freshCurrent_st,
    State.startClear, h.prevValid, h.cursel]
  osd := by
    have huf : u.startReady.headerLoad.seq.huf = s.startReady.headerLoad.seq.huf :=
      congrArg (BitVec.ofNat 16) (h.hdrField_eq 0)
    rw [State.osdInit_osd_eq, State.osdInit_osd_eq, huf, State.headerLoad_byte, h.payload_eq]
    rfl
  pmem := by
    show u.startReady.mem.pmem = s.startReady.mem.pmem
    rw [u.startReady_pmem, s.startReady_pmem, h.pmem]
  phase := rfl
  unitDone := rfl
  huf := congrArg (BitVec.ofNat 16) (h.hdrField_eq 0)
  sizoff := congrArg (BitVec.ofNat 16) (h.hdrField_eq 1)
  vecoff := congrArg (BitVec.ofNat 16) (h.hdrField_eq 2)
  imgoff := congrArg (BitVec.ofNat 16) (h.hdrField_eq 3)
  opcodes k hk := absurd hk (Nat.not_lt_zero k)
  lzu hp := by cases hp
  frp hp := by cases hp

/-- START taken anew on one input reaches the same boundaries. -/
theorem boundary (h : s.SameInput u) (hb : s.start.busy = true) (k : Nat) :
    SameDecode (s.start.runBusy k) (u.boundary k) := by
  obtain ⟨hc, hh, e⟩ := State.start_of_busy hb
  obtain ⟨hc', hh'⟩ := h.checks_pass hc hh
  unfold State.boundary
  rw [e, State.start_of_checks hc' hh']
  exact h.sameDecode.runBusy k

end State.SameInput

/-- The CSRs that a decode does not change (R36, R37, R43). -/
theorem State.InProgress.csrValue_eq {s u v : State} (p : s.InProgress u) (q : s.InProgress v) {n : Nat}
    (hn : n ≠ 1 ∧ n ≠ 7 ∧ n ≠ 8) : u.csrValue n = v.csrValue n := by
  unfold State.csrValue
  split
  case h_2 => rw [p.width, q.width]
  case h_3 => rw [p.height, q.height]
  case h_4 => rw [p.stride, q.stride]
  case h_5 => rw [p.plen, q.plen]
  case h_6 => rw [p.faultinfo, q.faultinfo]
  case h_9 => rfl
  all_goals omega

/-- Settles O60: START taken anew on a boundary has the same input, and states of one decode reach the same
boundaries. -/
theorem busyReadsShowThisDecode : Obligations.BusyReadsShowThisDecode := by
  intro s t v hi hv e hb j k n d r ins
  have ht : t = s.start := by
    have : s.csrWrite 0 v = t := Host.Outcome.next.inj e
    rw [← this, State.csrWrite_start hi hv]
  subst ht
  set u : State := { s.start.runBusy j with inputs := ins, readback := r, draws := d }
  have pj := State.InProgress.runBusy hb j
  have pk := State.InProgress.runBusy hb k
  have pu : s.InProgress u := { pj with }
  have same := pu.toSameInput.boundary hb k
  by_cases hn : n ≠ 1 ∧ n ≠ 7 ∧ n ≠ 8
  · rw [State.csrValueBusy_other u n k hn]
    exact pu.csrValue_eq pk hn
  · rcases (show n = 1 ∨ n = 7 ∨ n = 8 by omega) with rfl | rfl | rfl
    · show statusOf true false false (u.boundary k).st.prevValid (u.boundary k).st.cursel (u.boundary k).st.endings 0 =
        (s.start.runBusy k).statusWord
      rw [same.st, State.statusWord, State.runBusy_busy k hb, pk.done, pk.fault, pk.cause]
    · exact congrArg CsrRegs.opcount same.csr
    · exact congrArg CsrRegs.lzcount same.csr

end Sys2Proof.Machine
end

section
/-! SUPPORT. The canonical form of the memories through every move of the host, and with that through every step. -/

namespace Sys2Proof.Machine

theorem State.geometryChanged_mem (s : State) (changed : Bool) : (s.geometryChanged changed).mem = s.mem := by
  cases changed <;> rfl

theorem State.wf_start {s : State} (h : s.mem.wf = true) : s.start.mem.wf = true := by
  rcases s.start_outcome with ⟨c, info, e⟩ | ⟨_, _, e⟩ <;> rw [e] <;> exact State.wf_startReady h

theorem State.wf_csrWrite {s : State} (h : s.mem.wf = true) (n : Nat) (v : Word) : (s.csrWrite n v).mem.wf = true := by
  rcases s.csrWrite_cases n v with e | ⟨_, _, _, e⟩ | ⟨_, c, _, _, _, _, e⟩ | ⟨_, _, e⟩ <;> rw [e]
  · exact h
  · exact State.wf_start h
  · rw [State.geometryChanged_mem]; exact h
  · exact h

theorem State.wf_csrRead {s : State} (h : s.mem.wf = true) (n : Nat) : (s.csrRead n).mem.wf = true := by
  rcases s.csrRead_cases n with ⟨_, e⟩ | ⟨_, e⟩ <;> rw [e] <;> exact h

/-- Every move of the host keeps the canonical form of the memories. -/
theorem hostMove_keepsWf {s t : State} {m : HostMove} (h : s.mem.wf = true) (e : hostMove m s = .next t) :
    t.mem.wf = true := by
  cases m with
  | writeCsr n v => cases e; exact State.wf_csrWrite h n v
  | readCsr n => cases e; exact State.wf_csrRead h n
  | writePmem a b =>
    obtain ⟨_, _, rfl⟩ := State.hostWriteByte_next e
    exact State.wf_setMem h (Mem.wf_write (State.wf_memAt h .pmem))
  | readPmem a => obtain ⟨_, _, rfl⟩ := State.hostReadByte_next e; exact h
  | readBank bank a => obtain ⟨_, _, rfl⟩ := State.hostReadByte_next e; exact h
  | reset => cases e; rfl

/-- Settles O55: the moves of FDB keep the form by `FdbMove.keepsWf`, those of the host by `hostMove_keepsWf`. -/
theorem stepKeepsCanonical : Obligations.StepKeepsCanonical := by
  intro s t h e
  rcases step_next e with ⟨ins, m⟩ | ⟨m, rest, _, e⟩
  · exact m.keepsWf h
  · exact hostMove_keepsWf (s := { s with inputs := rest }) h e

end Sys2Proof.Machine
end

section
/-! SUPPORT. Progress: in a state of the invariant every byte that a step of FDB touches exists, so the step answers a next
state. -/

namespace Sys2Proof.Machine

/-! ### The spaces have room (R45 to R48) -/

theorem State.Geometry.plen_le_size {s : State} (g : s.Geometry) : s.plen ≤ s.size .pmem := g.payload_fits

theorem State.Geometry.npix_le_opbuf {s : State} (g : s.Geometry) : s.npix ≤ s.size .opbuf := g.pixels_fit

theorem State.Geometry.npix_le_lzbuf {s : State} (g : s.Geometry) : s.npix + 130 ≤ s.size .lzbuf :=
  Nat.add_le_add_right g.pixels_fit lzPad

theorem State.size_bankOf (s : State) (b : Bool) : s.size (bankOf b) = s.cfg.maxFb := by cases b <;> rfl

/-- Every pixel of the frame has its byte in a bank (R48, R122). -/
theorem State.Geometry.pixelIndex_lt {s : State} (g : s.Geometry) {k : Nat} (h : k < s.npix) (b : Bool) :
    s.pixelIndex k < s.size (bankOf b) := by
  have hrow : k / s.w + 1 ≤ s.h := Nat.div_lt_of_lt_mul h
  have hcol : k % s.w < s.stride := lt_of_lt_of_le (Nat.mod_lt _ g.width_pos) g.width_le_stride
  rw [s.size_bankOf]
  calc k / s.w * s.stride + k % s.w
      < (k / s.w + 1) * s.stride := by rw [Nat.succ_mul]; exact Nat.add_lt_add_left hcol _
    _ ≤ s.h * s.stride := Nat.mul_le_mul_right _ hrow
    _ ≤ s.cfg.maxFb := by rw [Nat.mul_comm]; exact g.bank_fits

/-! ### The addresses of a run -/

/-- FRP's part of the invariant gives what its runs need to find their pixels. -/
theorem State.FrpPhase.ready {s : State} (h : s.FrpPhase) (g : s.Geometry) : s.FrpReady where
  geometry := g
  x_lt := h.x_lt
  position := h.position
  raw_source hm := le_of_eq (h.raw_source hm)
  lz_source hm := by
    obtain ⟨hlen, hcount⟩ := h.lz_source hm
    rw [hlen]; exact hcount

theorem State.FrpReady.runAddrs_exist {s : State} (r : s.FrpReady) {n : Nat} (hn : n ≤ s.frp.rem.toNat) (b : Bool) :
    ∀ a ∈ s.runAddrs n, a < s.size (bankOf b) := by
  intro a ha
  obtain ⟨k, _, hk, rfl⟩ := (State.mem_runAddrs r.x_lt).1 ha
  exact r.geometry.pixelIndex_lt (by have := r.position; omega) b

theorem State.FrpReady.litAddrs_exist {s : State} (r : s.FrpReady) {n : Nat}
    (hl : s.frp.lit.toNat + n ≤ s.seq.litlen.toNat) : ∀ a ∈ s.litAddrs n, a < s.size s.litSpace := by
  intro a ha
  obtain ⟨k, hk, rfl⟩ := List.mem_map.1 ha
  have hk : k < s.seq.litlen.toNat := by rw [List.mem_range'_1] at hk; omega
  cases hm : s.seq.litmode
  · have hsrc := r.raw_source hm
    have hroom := r.geometry.plen_le_size
    simp only [State.litAddr, State.litSpace, hm, Bool.false_eq_true, if_false]
    omega
  · have hsrc := r.lz_source hm
    have hroom := r.geometry.npix_le_lzbuf
    simp only [State.litAddr, State.litSpace, hm, if_true]
    omega

theorem State.prevAddrs_zero (s : State) (n : Nat) : s.prevAddrs n 0 0 = s.runAddrs n := by
  simp [State.prevAddrs, State.runAddrs]

/-- The motion check places the displaced run inside the frame (R198). -/
theorem State.motionInside_position {s : State} {n : Nat} {dx dy : Int} (h : s.motionInside n dx dy = true) :
    ((s.frp.x.toNat : Int) + dx).toNat < s.w ∧
      ((s.frp.y.toNat : Int) + dy).toNat * s.w + ((s.frp.x.toNat : Int) + dx).toNat + n ≤ s.npix := by
  simp only [State.motionInside, Bool.and_eq_true, decide_eq_true_eq] at h
  obtain ⟨⟨⟨⟨hx0, hxw⟩, hy0⟩, _⟩, hend⟩ := h
  refine ⟨by omega, ?_⟩
  rw [State.npix_def]
  zify
  rw [Int.toNat_of_nonneg hx0, Int.toNat_of_nonneg hy0]
  exact_mod_cast hend

theorem State.Geometry.prevAddrs_exist {s : State} (g : s.Geometry) {n : Nat} {dx dy : Int}
    (h : 1 ≤ n → s.motionInside n dx dy = true) (b : Bool) : ∀ a ∈ s.prevAddrs n dx dy, a < s.size (bankOf b) := by
  intro a ha
  have hn : 1 ≤ n := by
    have := List.length_pos_of_mem ha
    rwa [State.length_prevAddrs] at this
  obtain ⟨hx, hend⟩ := State.motionInside_position (h hn)
  obtain ⟨k, _, hk, rfl⟩ := (mem_pixelAddrs hx).1 ha
  exact g.pixelIndex_lt (lt_of_lt_of_le hk hend) b

/-! ### Every instruction answers -/

/-- The marker byte (R126). -/
theorem exec_marker_total (m : Byte) (s : State) : ∃ t, exec (decodeMarker m) s = .next t := by
  unfold decodeMarker
  split <;> exact ⟨_, rfl⟩

/-- A table entry, with a place left in OPBUF for a leaf (R142). -/
theorem exec_trie_total {s : State} (v : Byte) (h : s.opcount < s.size .opbuf) :
    ∃ t, exec (decodeTrie v) s = .next t := by
  unfold decodeTrie
  split
  · exact ⟨_, State.needBytes_of_exist (by simpa using h)⟩
  · split <;> exact ⟨_, rfl⟩

/-- The LZU instruction at `SRC`: LZBUF's padding takes what a form writes past the last pixel (R47, R172). -/
theorem exec_lz_total {s : State} (g : s.Geometry) (room : s.lzcount < s.npix) :
    ∃ t, exec s.lzInstr s = .next t := by
  have hp := g.plen_le_size
  have hz := g.npix_le_lzbuf
  have body : ∀ k lit back term, s.lzcount + lit + backRun back ≤ s.npix + 130 →
      ∃ t, lzBody k lit back term s = .next t := fun k lit back term h => lzBody_total hp (h.trans hz)
  cases hf : lzForm s.ctrlByte <;> simp only [State.lzInstr, decodeLz, hf]
  case a => exact body _ _ _ _ (by simp only [lzaLit, lzaBack, backRun]; omega)
  case b =>
    refine body _ _ _ _ ?_
    have := (s.lzOperand 1).isLt
    simp only [lzbLit, lzbBack, backRun]; omega
  case c =>
    simp only [exec, execLzc]
    split
    · exact lzAbort_total hp (by simp only [lzcLit]; omega)
    · exact body _ _ _ _ (by simp only [backRun]; omega)
  case lit => exact body _ _ _ _ (by simp only [lzlitLit, backRun]; omega)
  case term => exact body _ _ _ _ (by simp only [lzendLit, backRun]; omega)

/-- A size operand that passes its checks, then the run (R193, R194). -/
theorem State.FrpReady.withRunSize_total {s : State} (r : s.FrpReady) {z : SizeSrc} {k : Nat → Out}
    (hk : ∀ n, n ≤ s.frp.rem.toNat → ∃ t, k n = .next t) : ∃ t, withRunSize z s k = .next t :=
  Machine.withRunSize_total r.geometry.plen_le_size r.geometry.width_pos (hk _)

theorem State.FrpReady.altLiteral_total {s : State} (r : s.FrpReady) {n b : Nat} (hn : n ≤ s.frp.rem.toNat) :
    ∃ t, altLiteral n b s = .next t := by
  by_cases hl : s.seq.litlen.toNat < s.frp.lit.toNat + n
  · exact ⟨_, if_pos hl⟩
  · have hl : s.frp.lit.toNat + n ≤ s.seq.litlen.toNat := Nat.le_of_not_lt hl
    exact ⟨_, altLiteral_done hl (r.litAddrs_exist hl) (r.runAddrs_exist hn _)⟩

theorem State.FrpReady.altPrev_total {s : State} (r : s.FrpReady) {n b : Nat} (hn : n ≤ s.frp.rem.toNat) :
    ∃ t, altPrev n b s = .next t := by
  by_cases hv : 1 ≤ n ∧ s.st.prevValid = false
  · exact ⟨_, if_pos hv⟩
  · refine ⟨_, altPrev_done (by simpa using hv) ?_ (r.runAddrs_exist hn _)⟩
    rw [State.prevAddrs_zero]
    exact r.runAddrs_exist hn _

theorem State.FrpReady.mvVector_total {s : State} (r : s.FrpReady) {n b : Nat} (v : Byte) (hn : n ≤ s.frp.rem.toNat) :
    ∃ t, mvVector n b v s = .next t := by
  by_cases hv : 1 ≤ n ∧ s.st.prevValid = false
  · exact ⟨_, if_pos hv⟩
  · by_cases hm : 1 ≤ n ∧ s.motionInside n (vecDx v) (vecDy v) = false
    · exact ⟨_, (if_neg hv).trans (if_pos hm)⟩
    · have hv : 1 ≤ n → s.st.prevValid = true := by simpa using hv
      have hm : 1 ≤ n → s.motionInside n (vecDx v) (vecDy v) = true := by simpa using hm
      exact ⟨_, mvVector_done (fun h => ⟨hv h, hm h⟩) (r.geometry.prevAddrs_exist hm _) (r.runAddrs_exist hn _)⟩

theorem State.FrpReady.altStep_total {s : State} (r : s.FrpReady) (z : SizeSrc) : ∃ t, altStep z s = .next t := by
  refine r.withRunSize_total fun n hn => ?_
  split
  · exact r.altPrev_total hn
  · exact r.altLiteral_total hn

theorem State.FrpReady.mvStep_total {s : State} (r : s.FrpReady) (z : SizeSrc) : ∃ t, mvStep z s = .next t := by
  refine r.withRunSize_total fun n hn => ?_
  split
  · exact ⟨_, rfl⟩
  · rw [State.needBytes_of_exist]
    · exact r.mvVector_total _ hn
    · have := r.geometry.plen_le_size
      simp only [List.mem_singleton, forall_eq]
      omega

/-- An opcode `0..21` (R191). -/
theorem State.FrpReady.exec_op_total {s : State} (r : s.FrpReady) {b : Byte} {i : Instr} (hd : decodeOp b = some i) :
    ∃ t, exec i s = .next t := by
  rcases decodeOp_forms hd with rfl | ⟨z, hz⟩ | ⟨z, hz⟩
  · exact ⟨_, rfl⟩
  · rw [exec_alt hz]; exact r.altStep_total z
  · rw [exec_mv hz]; exact r.mvStep_total z

/-! ### Every fetch finds an instruction or a step -/

/-- The fetch finds an instruction, or a step that answers a next state. -/
def Fetched.Answers : Fetched → Prop
  | .run _ => True
  | .other o => ∃ t, o = .next t

theorem State.fetchBytes_answers {s : State} {sp : Space} {as : List Nat} {k : Fetched} (h : ∀ a ∈ as, a < s.size sp)
    (hk : k.Answers) : (s.fetchBytes sp as k).Answers := by
  rwa [State.fetchBytes_of_exist h]

theorem State.fetchRaise_answers (s : State) (c : Cause) (info : Nat) : (s.fetchRaise c info).Answers := ⟨_, rfl⟩

theorem fetchMarker_answers {s : State} (g : s.Geometry) (hs : s.Segments) : (fetchMarker s).Answers := by
  refine State.fetchBytes_answers ?_ trivial
  simpa using lt_of_lt_of_le hs.imgoff_lt g.plen_le_size

/-- Off the end mark the node has an index in the table (R142, R143). -/
theorem State.OsdPhase.nodeBias_le {s : State} (h : s.OsdPhase) (hn : s.osd.node.toNat ≠ sentBias) :
    nodeBias ≤ s.osd.node.toNat := by
  have hsent := h.sent_eq
  simp only [sentBias, nodeBias] at *
  rcases h.node_range with e | ⟨hge, _⟩
  · rw [e] at hn ⊢; omega
  · simp only [sentBias] at hge; omega

theorem fetchEntry_answers {s : State} (hp : s.plen ≤ s.size .pmem) (hn : nodeBias ≤ s.osd.node.toNat) :
    (fetchEntry s).Answers := by
  unfold fetchEntry
  rw [if_neg (Nat.not_lt_of_le hn)]
  split
  · exact s.fetchRaise_answers _ _
  · split
    · exact s.fetchRaise_answers _ _
    · refine State.fetchBytes_answers ?_ trivial
      simp only [List.mem_singleton, forall_eq]
      omega

theorem State.OsdPhase.fetchOsd_answers {s : State} (h : s.OsdPhase) (g : s.Geometry) : (fetchOsd s).Answers := by
  have hp := g.plen_le_size
  unfold fetchOsd
  split
  · exact ⟨_, rfl⟩
  · rename_i hn
    split
    · exact s.fetchRaise_answers _ _
    · refine State.fetchBytes_answers ?_ (fetchEntry_answers hp (h.nodeBias_le hn))
      simp only [List.mem_singleton, forall_eq]
      omega

theorem fetchLzu_answers {s : State} (g : s.Geometry) : (fetchLzu s).Answers := by
  have hp := g.plen_le_size
  unfold fetchLzu
  split
  · exact ⟨_, rfl⟩
  · split
    · exact s.fetchRaise_answers _ _
    · refine State.fetchBytes_answers (by simp only [List.mem_singleton, forall_eq]; omega) ?_
      split
      · exact s.fetchRaise_answers _ _
      · refine State.fetchBytes_answers (fun a ha => ?_) trivial
        rw [List.mem_range'_1] at ha
        omega

theorem State.FrpPhase.fetchFrp_answers {s : State} (h : s.FrpPhase) (g : s.Geometry) : (fetchFrp s).Answers := by
  have hroom := g.npix_le_opbuf
  have hcount := h.opcount_le
  unfold fetchFrp
  split
  · exact ⟨_, rfl⟩
  · split
    · exact s.fetchRaise_answers _ _
    · refine State.fetchBytes_answers (by simp only [List.mem_singleton, forall_eq]; omega) ?_
      split
      · trivial
      · exact s.fetchRaise_answers _ _

theorem State.DecodeOk.fetch_answers {s : State} (d : s.DecodeOk) : (fetch s).Answers := by
  unfold fetch
  split
  case h_1 => exact ⟨_, rfl⟩
  case h_2 hp =>
    obtain ⟨g, hs⟩ := d.setup (by simp [hp])
    split
    · exact fetchMarker_answers g hs
    · exact (d.osd hp).fetchOsd_answers g
  case h_3 hp =>
    split
    · exact ⟨_, rfl⟩
    · exact fetchLzu_answers (d.setup (by simp [hp])).1
  case h_4 hp => exact (d.frp hp).fetchFrp_answers (d.setup (by simp [hp])).1

/-! ### Every step answers -/

/-- The fetched instruction answers a next state. -/
theorem State.DecodeOk.exec_total {s : State} (d : s.DecodeOk) {i : Instr} (hf : fetch s = .run i) :
    ∃ t, exec i s = .next t := by
  rcases fetch_run hf with ⟨_, _, hf⟩ | ⟨hp, hu, hf⟩ | ⟨hp, _, hf⟩ | ⟨hp, hf⟩
  · obtain ⟨_, rfl⟩ := fetchMarker_run hf
    exact exec_marker_total _ s
  · obtain ⟨_, _, _, _, _, rfl⟩ := fetchOsd_run hf
    have g := (d.setup (by simp [hp])).1
    exact exec_trie_total _ (lt_of_lt_of_le ((d.osd hp).opcount_lt hu) g.npix_le_opbuf)
  · obtain ⟨room, _, rfl⟩ := fetchLzu_run hf
    exact exec_lz_total (d.setup (by simp [hp])).1 room
  · obtain ⟨_, _, hd⟩ := fetchFrp_run hf
    exact ((d.frp hp).ready (d.setup (by simp [hp])).1).exec_op_total hd

/-- FDB's own step is never stuck. -/
theorem State.DecodeOk.fdbStep_total {s : State} (d : s.DecodeOk) : ∃ t, fdbStep s = .next t := by
  have ha := d.fetch_answers
  rcases fdbStep_cases (s := s) rfl with ⟨i, hf, e⟩ | hf
  · rw [← e]; exact d.exec_total hf
  · rwa [hf] at ha

/-- A host access to an existing byte goes through while idle, and is a breach while busy (R311). -/
theorem State.hostReadByte_total {s : State} (m : HostMove) {sp : Space} {a : Nat} (h : a < s.size sp) :
    (∃ t, s.hostReadByte m sp a = .next t) ∨ (s.busy = true ∧ s.hostReadByte m sp a = .refused (.hostBreach m)) := by
  by_cases hb : s.busy = true
  · exact .inr ⟨hb, if_pos hb⟩
  · exact .inl ⟨_, (if_neg hb).trans (State.needBytes_of_exist (by simpa using h))⟩

theorem State.hostWriteByte_total {s : State} (m : HostMove) {a : Nat} (b : Byte) (h : a < s.size .pmem) :
    (∃ t, s.hostWriteByte m a b = .next t) ∨ (s.busy = true ∧ s.hostWriteByte m a b = .refused (.hostBreach m)) := by
  by_cases hb : s.busy = true
  · exact .inr ⟨hb, if_pos hb⟩
  · exact .inl ⟨_, (if_neg hb).trans (State.needBytes_of_exist (by simpa using h))⟩

/-- A host move that addresses existing bytes answers a next state, or is a breach of R311. -/
theorem hostMove_total {s : State} {m : HostMove} (h : m.inRange s) :
    (∃ t, hostMove m s = .next t) ∨ (s.busy = true ∧ hostMove m s = .refused (.hostBreach m)) := by
  cases m with
  | writeCsr n v => exact .inl ⟨_, rfl⟩
  | readCsr n => exact .inl ⟨_, rfl⟩
  | writePmem a b => exact State.hostWriteByte_total _ b h
  | readPmem a => exact State.hostReadByte_total _ h
  | readBank bank a => exact State.hostReadByte_total _ h
  | reset => exact .inl ⟨_, rfl⟩

/-- `HostMove.inRange` asks only for the sizes of the memories, so a schedule moved on is in range as before. -/
theorem HostMove.inRange_inputs {s : State} {m : HostMove} (ins : List (Option HostMove)) (h : m.inRange s) :
    m.inRange { s with inputs := ins } := by
  cases m <;> exact h

/-- Settles O58: FDB's own step answers by `State.DecodeOk.fdbStep_total`, the host's move by `hostMove_total`. -/
theorem noModelFault : Obligations.NoModelFault := by
  intro s inv hin
  have fdb : ∀ ins, ∃ t, fdbStep { s with inputs := ins } = .next t := fun ins =>
    (inv.of_ownFields ins s.readback s.draws).decode.fdbStep_total
  rcases step_cases s with ⟨_, e⟩ | ⟨rest, _, e⟩ | ⟨m, rest, hm, e⟩ <;> rw [e]
  · exact .inl (fdb s.inputs)
  · exact .inl (fdb rest)
  · rcases hostMove_total (HostMove.inRange_inputs rest (hin m rest hm)) with ht | ⟨hb, hr⟩
    · exact .inl ht
    · exact .inr ⟨m, rest, hm, hb, hr⟩

end Sys2Proof.Machine
end

section
/-! SUPPORT. The encoding: what the decoder answers in each format, that it and the encoder undo each other, the ranges of the
LZU control byte, and the fields as the formulas of the spec give them. -/

namespace Sys2Proof.Machine

/-! ### The decoder in each format -/

@[simp] theorem decode_imgm_cons (c : Byte) (rest : List Byte) :
    decode .imgm (c :: rest) = .ok (decodeMarker c, rest) := rfl

@[simp] theorem decode_trie_cons (c : Byte) (rest : List Byte) :
    decode .trie (c :: rest) = .ok (decodeTrie c, rest) := rfl

/-- An OPBUF entry takes one byte (R105, R108). -/
theorem decode_op_cons_eq_ok_iff {c : Byte} {rest out : List Byte} {i : Instr} :
    decode .op (c :: rest) = .ok (i, out) ↔ decodeOp c = some i ∧ rest = out := by
  cases h : decodeOp c <;> simp [decode, h]

/-- An LZU instruction takes its control byte and the operand bytes of its form, which must all be there (R99, R100). -/
theorem decode_lz_cons_eq_ok_iff {c : Byte} {rest out : List Byte} {i : Instr} :
    decode .lz (c :: rest) = .ok (i, out) ↔
      lzOperandBytes (lzForm c) ≤ rest.length ∧
        decodeLz c (rest.getD 0 0) (rest.getD 1 0) (rest.getD 2 0) = i ∧ rest.drop (lzOperandBytes (lzForm c)) = out := by
  by_cases h : rest.length < lzOperandBytes (lzForm c)
  · simp [decode, h]
  · simp [decode, h, Nat.le_of_not_lt h]

/-! ### The bit patterns of the control byte (R100) -/

theorem decodeLz_of_form_a {c : Byte} (h : lzForm c = .a) (o1 o2 o3 : Byte) :
    decodeLz c o1 o2 o3 = .lza (c.extractLsb' 5 2) (c.extractLsb' 2 3) (c.extractLsb' 0 2) o1 := by
  rw [decodeLz, h]

theorem decodeLz_of_form_b {c : Byte} (h : lzForm c = .b) (o1 o2 o3 : Byte) :
    decodeLz c o1 o2 o3 = .lzb (c.extractLsb' 0 6) o1 o2 := by
  rw [decodeLz, h]

theorem decodeLz_of_form_c {c : Byte} (h : lzForm c = .c) (o1 o2 o3 : Byte) :
    decodeLz c o1 o2 o3 = .lzc (c.extractLsb' 4 1) (c.extractLsb' 2 2) (c.extractLsb' 0 2) o1 o2 o3 := by
  rw [decodeLz, h]

theorem decodeLz_of_form_lit {c : Byte} (h : lzForm c = .lit) (o1 o2 o3 : Byte) :
    decodeLz c o1 o2 o3 = .lzlit (c.extractLsb' 0 5) := by
  rw [decodeLz, h]

theorem decodeLz_of_form_term {c : Byte} (h : lzForm c = .term) (o1 o2 o3 : Byte) :
    decodeLz c o1 o2 o3 = .lzend (c.extractLsb' 0 2) := by
  rw [decodeLz, h]

/-- `0ddrrrll` is form A, and its fields are read back. -/
theorem lza_pattern : ∀ (d : BitVec 2) (r : BitVec 3) (l : BitVec 2),
    lzForm (0b0#1 ++ d ++ r ++ l) = .a ∧ (0b0#1 ++ d ++ r ++ l).extractLsb' 5 2 = d ∧
      (0b0#1 ++ d ++ r ++ l).extractLsb' 2 3 = r ∧ (0b0#1 ++ d ++ r ++ l).extractLsb' 0 2 = l := by
  decide

/-- `10rrrrrr` is form B, and its field is read back. -/
theorem lzb_pattern : ∀ r : BitVec 6, lzForm (0b10#2 ++ r) = .b ∧ (0b10#2 ++ r).extractLsb' 0 6 = r := by
  decide

/-- `110drrll` is form C, and its fields are read back. -/
theorem lzc_pattern : ∀ (d : BitVec 1) (r l : BitVec 2),
    lzForm (0b110#3 ++ d ++ r ++ l) = .c ∧ (0b110#3 ++ d ++ r ++ l).extractLsb' 4 1 = d ∧
      (0b110#3 ++ d ++ r ++ l).extractLsb' 2 2 = r ∧ (0b110#3 ++ d ++ r ++ l).extractLsb' 0 2 = l := by
  decide

/-- `111nnnnn` with `n` at most 27 is the literal form, and its count is read back. -/
theorem lzlit_pattern : ∀ n : BitVec 5, n.toNat ≤ 27 →
    lzForm (0b111#3 ++ n) = .lit ∧ (0b111#3 ++ n).extractLsb' 0 5 = n := by
  decide

/-- `111111ll` is the ending form, and its count is read back. -/
theorem lzend_pattern : ∀ l : BitVec 2,
    lzForm (0b111111#6 ++ l) = .term ∧ (0b111111#6 ++ l).extractLsb' 0 2 = l := by
  decide

/-- A control byte of form A is its pattern with its own fields; likewise below for the other forms. -/
theorem lza_byte : ∀ {c : Byte}, lzForm c = .a →
    0b0#1 ++ c.extractLsb' 5 2 ++ c.extractLsb' 2 3 ++ c.extractLsb' 0 2 = c := by
  decide

theorem lzb_byte : ∀ {c : Byte}, lzForm c = .b → 0b10#2 ++ c.extractLsb' 0 6 = c := by
  decide

theorem lzc_byte : ∀ {c : Byte}, lzForm c = .c →
    0b110#3 ++ c.extractLsb' 4 1 ++ c.extractLsb' 2 2 ++ c.extractLsb' 0 2 = c := by
  decide

theorem lzlit_byte : ∀ {c : Byte}, lzForm c = .lit → 0b111#3 ++ c.extractLsb' 0 5 = c := by
  decide

theorem lzend_byte : ∀ {c : Byte}, lzForm c = .term → 0b111111#6 ++ c.extractLsb' 0 2 = c := by
  decide

/-! ### Decoding what was encoded -/

theorem decodeMarker_of_ne {m : Byte} (h : m ≠ 2) : decodeMarker m = .imgRaw m :=
  if_neg fun e => h (BitVec.eq_of_toNat_eq e)

theorem decodeTrie_of_lt {v : Byte} (h : v.toNat < 0x16) : decodeTrie v = .leaf v := if_pos h

theorem decodeTrie_of_gt {v : Byte} (h : 0x17 ≤ v.toNat) : decodeTrie v = .node v := by
  rw [decodeTrie, if_neg (by omega), if_neg (by omega)]

/-- Settles O1: one case per instruction; the LZU forms by their bit patterns. -/
theorem decodeOfEncode : Obligations.DecodeOfEncode := by
  intro i rest hwf
  cases i with
  | imgRaw m =>
    have hm : m ≠ 2 := by simpa [Instr.wf] using hwf
    simp [Instr.format, encode, decodeMarker_of_ne hm]
  | leaf v =>
    have hv : v.toNat < 0x16 := by simpa [Instr.wf] using hwf
    simp [Instr.format, encode, decodeTrie_of_lt hv]
  | node v =>
    have hv : 0x17 ≤ v.toNat := by simpa [Instr.wf] using hwf
    simp [Instr.format, encode, decodeTrie_of_gt hv]
  | lza d r l o1 =>
    obtain ⟨hf, hd, hr, hl⟩ := lza_pattern d r l
    refine decode_lz_cons_eq_ok_iff.2 ?_
    rw [decodeLz_of_form_a hf, hf, hd, hr, hl]
    simp [lzOperandBytes]
  | lzb r o1 o2 =>
    obtain ⟨hf, hr⟩ := lzb_pattern r
    refine decode_lz_cons_eq_ok_iff.2 ?_
    rw [decodeLz_of_form_b hf, hf, hr]
    simp [lzOperandBytes]
  | lzc d r l o1 o2 o3 =>
    obtain ⟨hf, hd, hr, hl⟩ := lzc_pattern d r l
    refine decode_lz_cons_eq_ok_iff.2 ?_
    rw [decodeLz_of_form_c hf, hf, hd, hr, hl]
    simp [lzOperandBytes]
  | lzlit n =>
    obtain ⟨hf, hn⟩ := lzlit_pattern n (by simpa [Instr.wf] using hwf)
    refine decode_lz_cons_eq_ok_iff.2 ?_
    rw [decodeLz_of_form_lit hf, hf, hn]
    simp [lzOperandBytes]
  | lzend l =>
    obtain ⟨hf, hl⟩ := lzend_pattern l
    refine decode_lz_cons_eq_ok_iff.2 ?_
    rw [decodeLz_of_form_term hf, hf, hl]
    simp [lzOperandBytes]
  | imgLz | endMark | flip | alt1 | alt2 | alt3 | alt4 | alt5 | alt6 | alt7 | alt8 | altB | altH | altT
  | mv2 | mv3 | mv4 | mv5 | mv6 | mv7 | mv8 | mvB | mvH | mvT => rfl

/-! ### Encoding what was decoded -/

theorem decodeMarker_encode (c : Byte) :
    (decodeMarker c).wf = true ∧ (decodeMarker c).format = .imgm ∧ encode (decodeMarker c) = [c] := by
  by_cases h : c = 2
  · subst h; exact ⟨rfl, rfl, rfl⟩
  · rw [decodeMarker_of_ne h]
    exact ⟨by simpa [Instr.wf] using h, rfl, rfl⟩

theorem decodeTrie_encode (c : Byte) :
    (decodeTrie c).wf = true ∧ (decodeTrie c).format = .trie ∧ encode (decodeTrie c) = [c] := by
  rcases Nat.lt_trichotomy c.toNat 0x16 with h | h | h
  · rw [decodeTrie_of_lt h]
    exact ⟨decide_eq_true h, rfl, rfl⟩
  · obtain rfl : c = 0x16 := BitVec.eq_of_toNat_eq h
    exact ⟨rfl, rfl, rfl⟩
  · rw [decodeTrie_of_gt h]
    exact ⟨decide_eq_true h, rfl, rfl⟩

theorem decodeOp_encode {c : Byte} {i : Instr} (h : decodeOp c = some i) :
    i.wf = true ∧ i.format = .op ∧ encode i = [c] := by
  unfold decodeOp at h
  split at h <;> cases h <;>
    exact ⟨rfl, rfl, congrArg (fun b => [b]) (BitVec.eq_of_toNat_eq (Eq.symm ‹c.toNat = _›))⟩

theorem decodeLz_wf (c o1 o2 o3 : Byte) : (decodeLz c o1 o2 o3).wf = true := by
  cases hf : lzForm c with
  | a => rw [decodeLz_of_form_a hf]; rfl
  | b => rw [decodeLz_of_form_b hf]; rfl
  | c => rw [decodeLz_of_form_c hf]; rfl
  | lit => rw [decodeLz_of_form_lit hf]; exact decide_eq_true (lzlit_count_le hf)
  | term => rw [decodeLz_of_form_term hf]; rfl

theorem decodeLz_format (c o1 o2 o3 : Byte) : (decodeLz c o1 o2 o3).format = .lz := by
  unfold decodeLz
  split <;> rfl

/-- The encoder gives the control byte and the operand bytes of its form. -/
theorem encode_decodeLz (c o1 o2 o3 : Byte) :
    encode (decodeLz c o1 o2 o3) = c :: [o1, o2, o3].take (lzOperandBytes (lzForm c)) := by
  cases hf : lzForm c with
  | a => rw [decodeLz_of_form_a hf, encode, lza_byte hf]; rfl
  | b => rw [decodeLz_of_form_b hf, encode, lzb_byte hf]; rfl
  | c => rw [decodeLz_of_form_c hf, encode, lzc_byte hf]; rfl
  | lit => rw [decodeLz_of_form_lit hf, encode, lzlit_byte hf]; rfl
  | term => rw [decodeLz_of_form_term hf, encode, lzend_byte hf]; rfl

/-- No form has more than three operand bytes. -/
theorem lzOperandBytes_le (f : LzForm) : lzOperandBytes f ≤ 3 := by cases f <;> decide

/-- The first `k` of at most three bytes, read one by one, and the bytes after them. -/
theorem take_getD_append_drop {k : Nat} {l : List Byte} (h3 : k ≤ 3) (hl : k ≤ l.length) :
    [l.getD 0 0, l.getD 1 0, l.getD 2 0].take k ++ l.drop k = l := by
  match k, l with
  | 0, _ => rfl
  | 1, _ :: _ => rfl
  | 2, _ :: _ :: _ => rfl
  | 3, _ :: _ :: _ :: _ => rfl

/-- Settles O2: each format's decoder, on a first byte, is undone by the encoder. -/
theorem encodeOfDecode : Obligations.EncodeOfDecode := by
  intro f bytes i rest h
  cases bytes with
  | nil => cases h
  | cons c tail =>
    cases f with
    | imgm =>
      cases h
      obtain ⟨hwf, hfmt, henc⟩ := decodeMarker_encode c
      exact ⟨hwf, hfmt, by rw [henc]; rfl⟩
    | trie =>
      cases h
      obtain ⟨hwf, hfmt, henc⟩ := decodeTrie_encode c
      exact ⟨hwf, hfmt, by rw [henc]; rfl⟩
    | lz =>
      obtain ⟨hlen, rfl, rfl⟩ := decode_lz_cons_eq_ok_iff.1 h
      refine ⟨decodeLz_wf .., decodeLz_format .., ?_⟩
      rw [encode_decodeLz, List.cons_append, take_getD_append_drop (lzOperandBytes_le _) hlen]
    | op =>
      obtain ⟨hop, rfl⟩ := decode_op_cons_eq_ok_iff.1 h
      obtain ⟨hwf, hfmt, henc⟩ := decodeOp_encode hop
      exact ⟨hwf, hfmt, by rw [henc]; rfl⟩

/-! ### Which bytes are instructions -/

/-- The ranges of R100: a form is chosen by where the control byte lies. -/
theorem lzForm_eq_of_range : ∀ c : Byte, lzForm c =
    if c.toNat ≤ 0x7F then .a else if c.toNat ≤ 0xBF then .b else if c.toNat ≤ 0xDF then .c
    else if c.toNat ≤ 0xFB then .lit else .term := by
  decide

/-- The opcodes are `0..21` (R105, R108). -/
theorem exists_decodeOp_iff {b : Byte} : (∃ i, decodeOp b = some i) ↔ b.toNat < 22 := by
  constructor
  · rintro ⟨i, h⟩
    unfold decodeOp at h
    split at h <;> cases h <;> omega
  · intro h
    unfold decodeOp
    interval_cases b.toNat <;> exact ⟨_, rfl⟩

/-- Settles O3: the form by `lzForm_eq_of_range`, the answer by the decoder's equation for the format. -/
theorem formsCoverBytes : Obligations.FormsCoverBytes := by
  intro c rest
  refine ⟨⟨_, rfl⟩, ⟨_, rfl⟩, ?_, ?_, ?_, ?_, ?_, ?_⟩
  · simp only [decode_op_cons_eq_ok_iff, and_true, exists_decodeOp_iff]
  · intro h
    have hf : lzForm c = .a := by rw [lzForm_eq_of_range, if_pos h]
    refine ⟨hf, ?_⟩
    simp [decode_lz_cons_eq_ok_iff, decodeLz_of_form_a hf, hf, lzOperandBytes]
  · intro h h'
    have hf : lzForm c = .b := by rw [lzForm_eq_of_range, if_neg (by omega), if_pos h']
    refine ⟨hf, ?_⟩
    simp [decode_lz_cons_eq_ok_iff, decodeLz_of_form_b hf, hf, lzOperandBytes]
  · intro h h'
    have hf : lzForm c = .c := by rw [lzForm_eq_of_range, if_neg (by omega), if_neg (by omega), if_pos h']
    refine ⟨hf, ?_⟩
    simp [decode_lz_cons_eq_ok_iff, decodeLz_of_form_c hf, hf, lzOperandBytes]
  · intro h h'
    have hf : lzForm c = .lit := by
      rw [lzForm_eq_of_range, if_neg (by omega), if_neg (by omega), if_neg (by omega), if_pos h']
    refine ⟨hf, ?_⟩
    simp [decode_lz_cons_eq_ok_iff, decodeLz_of_form_lit hf, hf, lzOperandBytes]
  · intro h
    have hf : lzForm c = .term := by
      rw [lzForm_eq_of_range, if_neg (by omega), if_neg (by omega), if_neg (by omega), if_neg (by omega)]
    refine ⟨hf, ?_⟩
    simp [decode_lz_cons_eq_ok_iff, decodeLz_of_form_term hf, hf, lzOperandBytes]

/-! ### The fields as formulas (R102) -/

/-- A mask of `len` ones from bit `start` on cuts out the field of those bits, left in its place. -/
theorem toNat_and_mask (c : Byte) (start len : Nat) :
    c.toNat &&& (2 ^ len - 1) <<< start = (c.extractLsb' start len).toNat <<< start := by
  refine Nat.eq_of_testBit_eq fun j => ?_
  simp only [BitVec.extractLsb'_toNat, Nat.testBit_and, Nat.testBit_shiftLeft, Nat.testBit_two_pow_sub_one,
    Nat.testBit_mod_two_pow, Nat.testBit_shiftRight]
  by_cases h : start ≤ j
  · rw [Nat.add_sub_cancel' h]
    simp [h, Bool.and_comm]
  · simp [h]

/-- Two bytes as one number, `{o1,o2}` (R13). -/
theorem shiftLeft_or_eq_be16 (o1 o2 : Byte) : o1.toNat <<< 8 ||| o2.toNat = be16 o1 o2 := by
  rw [← Nat.shiftLeft_add_eq_or_of_lt o2.isLt, Nat.shiftLeft_eq, be16, Nat.mul_comm]

/-- Bits 1:0 of the control byte, the literal count of `LZA`, `LZC` and `LZEND`. -/
theorem toNat_and_three (c : Byte) : c.toNat &&& 3 = (c.extractLsb' 0 2).toNat := toNat_and_mask c 0 2

/-- The fields of `LZA`: `lit = c & 3`, `dist = ((c & 0x60) << 3) + o1 + 1`, `run = ((c & 0x1C) >> 2) + 3`. -/
theorem lza_fields (c o1 : Byte) :
    lzaLit (c.extractLsb' 0 2) = c.toNat &&& 3 ∧
      lzaBack (c.extractLsb' 5 2) (c.extractLsb' 2 3) o1 =
        { dist := ((c.toNat &&& 0x60) <<< 3) + o1.toNat + 1, run := ((c.toNat &&& 0x1C) >>> 2) + 3 } := by
  have hd : c.toNat &&& 0x60 = (c.extractLsb' 5 2).toNat <<< 5 := toNat_and_mask c 5 2
  have hr : c.toNat &&& 0x1C = (c.extractLsb' 2 3).toNat <<< 2 := toNat_and_mask c 2 3
  rw [toNat_and_three, hd, hr, ← Nat.shiftLeft_add, Nat.shiftLeft_shiftRight, Nat.shiftLeft_eq]
  exact ⟨rfl, rfl⟩

/-- The fields of `LZB`: `lit = o1 >> 6`, `dist = ({o1,o2} & 0x3FFF) + 1`, `run = (c & 0x3F) + 4`. -/
theorem lzb_fields (c o1 o2 : Byte) :
    lzbLit o1 = o1.toNat >>> 6 ∧
      lzbBack (c.extractLsb' 0 6) o1 o2 =
        { dist := (((o1.toNat <<< 8) ||| o2.toNat) &&& 0x3FFF) + 1, run := (c.toNat &&& 0x3F) + 4 } := by
  have hr : c.toNat &&& 0x3F = (c.extractLsb' 0 6).toNat := toNat_and_mask c 0 6
  have hd : be16 o1 o2 &&& 0x3FFF = be16 o1 o2 % 2 ^ 14 := Nat.and_two_pow_sub_one_eq_mod _ 14
  rw [shiftLeft_or_eq_be16, hd, hr, Nat.shiftRight_eq_div_pow]
  exact ⟨rfl, rfl⟩

/-- The fields of `LZC`: `lit = c & 3`, `dist = ((c & 0x10) << 12) + {o1,o2} + 1`, `run = ((c & 0x0C) << 6) + o3 + 5`. -/
theorem lzc_fields (c o1 o2 o3 : Byte) :
    lzcLit (c.extractLsb' 0 2) = c.toNat &&& 3 ∧
      lzcBack (c.extractLsb' 4 1) (c.extractLsb' 2 2) o1 o2 o3 =
        { dist := ((c.toNat &&& 0x10) <<< 12) + ((o1.toNat <<< 8) ||| o2.toNat) + 1
          run := ((c.toNat &&& 0x0C) <<< 6) + o3.toNat + 5 } := by
  have hd : c.toNat &&& 0x10 = (c.extractLsb' 4 1).toNat <<< 4 := toNat_and_mask c 4 1
  have hr : c.toNat &&& 0x0C = (c.extractLsb' 2 2).toNat <<< 2 := toNat_and_mask c 2 2
  rw [toNat_and_three, shiftLeft_or_eq_be16, hd, hr, ← Nat.shiftLeft_add, ← Nat.shiftLeft_add, Nat.shiftLeft_eq,
    Nat.shiftLeft_eq]
  exact ⟨rfl, rfl⟩

/-- The field of `LZLIT`: `lit = ((c & 0x1F) << 2) + 4`. -/
theorem lzlit_field (c : Byte) : lzlitLit (c.extractLsb' 0 5) = ((c.toNat &&& 0x1F) <<< 2) + 4 := by
  have hn : c.toNat &&& 0x1F = (c.extractLsb' 0 5).toNat := toNat_and_mask c 0 5
  rw [hn, Nat.shiftLeft_eq]
  rfl

theorem lzaBack_range (d : BitVec 2) (r : BitVec 3) (o1 : Byte) :
    1 ≤ (lzaBack d r o1).dist ∧ (lzaBack d r o1).dist ≤ 1024 ∧
      3 ≤ (lzaBack d r o1).run ∧ (lzaBack d r o1).run ≤ 10 := by
  simp only [lzaBack]; omega

theorem lzbBack_range (r : BitVec 6) (o1 o2 : Byte) :
    1 ≤ (lzbBack r o1 o2).dist ∧ (lzbBack r o1 o2).dist ≤ 16384 ∧
      4 ≤ (lzbBack r o1 o2).run ∧ (lzbBack r o1 o2).run ≤ 67 := by
  simp only [lzbBack]; omega

theorem lzcBack_range (d : BitVec 1) (r : BitVec 2) (o1 o2 o3 : Byte) :
    1 ≤ (lzcBack d r o1 o2 o3).dist ∧ (lzcBack d r o1 o2 o3).dist ≤ 131072 ∧
      5 ≤ (lzcBack d r o1 o2 o3).run ∧ (lzcBack d r o1 o2 o3).run ≤ 1028 := by
  simp only [lzcBack, be16]; omega

/-- Settles O4: per form, the fields of the bit pattern are the formulas, and their widths give the ranges. -/
theorem lzFields : Obligations.LzFields := by
  intro c o1 o2 o3
  refine ⟨fun hf => ⟨_, _, _, decodeLz_of_form_a hf .., ?_⟩, fun hf => ⟨_, decodeLz_of_form_b hf .., ?_⟩,
    fun hf => ⟨_, _, _, decodeLz_of_form_c hf .., ?_⟩, fun hf => ⟨_, decodeLz_of_form_lit hf .., ?_⟩,
    fun hf => ⟨_, decodeLz_of_form_term hf .., ?_⟩⟩
  · obtain ⟨hlit, hback⟩ := lza_fields c o1
    obtain ⟨hd, hd', hr, hr'⟩ := lzaBack_range (c.extractLsb' 5 2) (c.extractLsb' 2 3) o1
    exact ⟨hlit, Nat.le_of_lt_succ (BitVec.isLt _), congrArg BackRef.dist hback, hd, hd',
      congrArg BackRef.run hback, hr, hr'⟩
  · obtain ⟨hlit, hback⟩ := lzb_fields c o1 o2
    obtain ⟨hd, hd', hr, hr'⟩ := lzbBack_range (c.extractLsb' 0 6) o1 o2
    exact ⟨hlit, Nat.le_of_lt_succ (Nat.div_lt_of_lt_mul o1.isLt), congrArg BackRef.dist hback, hd, hd',
      congrArg BackRef.run hback, hr, hr'⟩
  · obtain ⟨hlit, hback⟩ := lzc_fields c o1 o2 o3
    obtain ⟨hd, hd', hr, hr'⟩ := lzcBack_range (c.extractLsb' 4 1) (c.extractLsb' 2 2) o1 o2 o3
    exact ⟨hlit, Nat.le_of_lt_succ (BitVec.isLt _), congrArg BackRef.dist hback, hd, hd',
      congrArg BackRef.run hback, hr, hr'⟩
  · have hn := lzlit_count_le hf
    refine ⟨lzlit_field c, ?_⟩
    simp only [lzlitLit]; omega
  · exact ⟨(toNat_and_three c).symm, Nat.le_of_lt_succ (BitVec.isLt _)⟩

/-! ### The vector byte (R107) -/

/-- `sext_4` (R12): 0..7 as they are, 8..15 less 16. -/
theorem sext4_eq (v : BitVec 4) : sext4 v = if v.toNat < 8 then (v.toNat : Int) else (v.toNat : Int) - 16 := by
  rw [sext4, BitVec.toInt_eq_toNat_cond]
  split <;> split <;> omega

theorem sext4_range (v : BitVec 4) : -8 ≤ sext4 v ∧ sext4 v ≤ 7 := by
  have := v.isLt
  rw [sext4_eq]; split <;> omega

theorem toNat_high_half (v : Byte) : (v.extractLsb' 4 4).toNat = v.toNat / 16 := by
  rw [BitVec.extractLsb'_toNat, Nat.shiftRight_eq_div_pow]; omega

theorem toNat_low_half (v : Byte) : (v.extractLsb' 0 4).toNat = v.toNat % 16 := by
  rw [BitVec.extractLsb'_toNat, Nat.shiftRight_zero]

/-- Settles O36: `sext4_eq` at the two halves of the byte. -/
theorem vectorComponents : Obligations.VectorComponents := by
  intro v
  have hx := sext4_eq (v.extractLsb' 4 4)
  have hy := sext4_eq (v.extractLsb' 0 4)
  rw [toNat_high_half] at hx
  rw [toNat_low_half] at hy
  obtain ⟨lox, hix⟩ := sext4_range (v.extractLsb' 4 4)
  obtain ⟨loy, hiy⟩ := sext4_range (v.extractLsb' 0 4)
  exact ⟨mod_cast hx, mod_cast hy, lox, hix, loy, hiy⟩

/-! ### Words of the spec -/

/-- Settles O5: each word is decoded by evaluation. -/
theorem wordsDecode : Obligations.WordsDecode :=
  ⟨rfl, rfl, rfl, rfl, rfl, rfl, rfl, rfl, rfl, rfl, rfl, rfl, rfl⟩

end Sys2Proof.Machine
end

section
/-! SUPPORT. Every decode ends: a bound on the steps FDB still has to take, which every step of a decode lowers, and the run
of the machine under a host that only reads CSRs or waits. -/

namespace Sys2Proof.Machine

/-! ### The steps a decode still has to take -/

/-- A bound on FDB's steps to the end of the decode in progress, by the active unit: the bits left to OSD, the bytes left to
LZU, the opcodes left to FRP, and the closing step of each unit still to come (R132). -/
def State.stepsLeft (s : State) : Nat :=
  match s.seq.phase with
  | .idle => 0
  | .osd => if s.seq.unitDone then s.plen + s.npix + 4 else (8 * s.plen - s.osd.bitpos.toNat) + s.plen + s.npix + 5
  | .lzu => if s.seq.unitDone then s.npix + 2 else (s.plen - s.lzu.src.toNat) + s.npix + 3
  | .frp => (s.opcount - s.frp.opc.toNat) + 1

theorem State.stepsLeft_of_idle {s : State} (hp : s.seq.phase = .idle) : s.stepsLeft = 0 := by
  simp [State.stepsLeft, hp]

theorem State.stepsLeft_of_osd {s : State} (hp : s.seq.phase = .osd) (hu : s.seq.unitDone = false) :
    s.stepsLeft = (8 * s.plen - s.osd.bitpos.toNat) + s.plen + s.npix + 5 := by
  simp [State.stepsLeft, hp, hu]

theorem State.stepsLeft_of_marker {s : State} (hp : s.seq.phase = .osd) (hu : s.seq.unitDone = true) :
    s.stepsLeft = s.plen + s.npix + 4 := by
  simp [State.stepsLeft, hp, hu]

theorem State.stepsLeft_of_lzu {s : State} (hp : s.seq.phase = .lzu) (hu : s.seq.unitDone = false) :
    s.stepsLeft = (s.plen - s.lzu.src.toNat) + s.npix + 3 := by
  simp [State.stepsLeft, hp, hu]

theorem State.stepsLeft_of_literals {s : State} (hp : s.seq.phase = .lzu) (hu : s.seq.unitDone = true) :
    s.stepsLeft = s.npix + 2 := by
  simp [State.stepsLeft, hp, hu]

theorem State.stepsLeft_of_frp {s : State} (hp : s.seq.phase = .frp) :
    s.stepsLeft = (s.opcount - s.frp.opc.toNat) + 1 := by
  simp [State.stepsLeft, hp]

theorem State.stepsLeft_pos {s : State} (hp : s.seq.phase ≠ .idle) : 0 < s.stepsLeft := by
  unfold State.stepsLeft
  split
  · exact absurd ‹_› hp
  · split <;> omega
  · split <;> omega
  · omega

/-- A bit read leaves OSD one bit fewer (R31, R142). -/
theorem State.AtBit.stepsLeft_lt {s t : State} (hb : s.AtBit) (hplen : t.plen = s.plen) (hnpix : t.npix = s.npix)
    (hp : t.seq.phase = .osd) (hbit : t.seq.unitDone = false → t.osd.bitpos = s.takeBit.osd.bitpos) :
    t.stepsLeft < s.stepsLeft := by
  obtain ⟨hnext, hle⟩ := hb.bitpos_next
  rw [State.stepsLeft_of_osd hb.phase hb.unit_open]
  cases hu : t.seq.unitDone
  · rw [State.stepsLeft_of_osd hp hu, hbit hu, hnext, hplen, hnpix]
    omega
  · rw [State.stepsLeft_of_marker hp hu, hplen, hnpix]
    omega

/-- An LZU step ends LZU or moves `SRC` on inside the payload (R162, R164). -/
theorem State.AtControl.stepsLeft_lt {s t : State} (hc : s.AtControl) (hplen : t.plen = s.plen)
    (hnpix : t.npix = s.npix) (hp : t.seq.phase = .lzu)
    (hsrc : t.seq.unitDone = false → s.lzu.src.toNat < t.lzu.src.toNat ∧ t.lzu.src.toNat ≤ s.plen) :
    t.stepsLeft < s.stepsLeft := by
  rw [State.stepsLeft_of_lzu hc.phase hc.unit_open]
  cases hu : t.seq.unitDone
  · obtain ⟨hlt, hle⟩ := hsrc hu
    rw [State.stepsLeft_of_lzu hp hu, hplen, hnpix]
    omega
  · rw [State.stepsLeft_of_literals hp hu, hnpix]
    omega

/-- An FRP opcode leaves FRP one opcode fewer (R191). -/
theorem State.AtOpcode.stepsLeft_lt {s t : State} (ho : s.AtOpcode) (hp : t.seq.phase = .frp)
    (hcount : t.opcount = s.opcount) (hopc : t.frp.opc = BitVec.ofNat 32 (s.frp.opc.toNat + 1)) :
    t.stepsLeft < s.stepsLeft := by
  have hlt := ho.opc_lt
  rw [State.stepsLeft_of_frp ho.phase, State.stepsLeft_of_frp hp, hcount, hopc, State.opc_next hlt]
  omega

/-- The literal-source step leaves FRP at most `NPIX` opcodes (R46, R127). -/
theorem State.stepsLeft_literalSource (s : State) (h : s.opcount ≤ s.npix) : s.literalSource.stepsLeft ≤ s.npix + 1 := by
  rw [State.stepsLeft_of_frp (s := s.literalSource) rfl]
  simpa using h

/-- Every step of FDB lowers the bound (R132). -/
theorem FdbMove.stepsLeft_lt {s t : State} (m : FdbMove s t) (d : s.DecodeOk) (hb : s.seq.phase ≠ .idle) :
    t.stepsLeft < s.stepsLeft := by
  have hplen := m.sameSetup.plen_eq
  have hnpix := m.sameSetup.npix_eq
  cases m
  case idle hp => exact absurd hp hb
  case raise c info => rw [State.stepsLeft_of_idle (s := s.raise c info) rfl]; exact State.stepsLeft_pos hb
  case complete hp hr => rw [State.stepsLeft_of_idle (s := s.complete) rfl]; exact State.stepsLeft_pos hb
  case mark hp hu hn =>
    rw [State.stepsLeft_of_osd hp hu, State.stepsLeft_of_marker (s := s.osdEndByMark) hp rfl, hplen, hnpix]
    omega
  case imgRaw hp hu =>
    have := s.chooseRaw.stepsLeft_literalSource (d.osd hp).opcount_le
    have hn : s.chooseRaw.npix = s.npix := rfl
    rw [State.stepsLeft_of_marker hp hu]
    omega
  case imgLz hp hu =>
    rw [State.stepsLeft_of_marker hp hu, State.stepsLeft_of_lzu (s := s.chooseLz.lzuInit) rfl rfl, hplen, hnpix]
    omega
  case walk h v hv => exact h.stepsLeft_lt hplen hnpix h.phase fun _ => rfl
  case emit h v hv hc => exact h.stepsLeft_lt hplen hnpix h.phase fun _ => rfl
  case emitLast h v hv hc => exact h.stepsLeft_lt hplen hnpix h.phase fun _ => rfl
  case literals hp hu =>
    have := s.stepsLeft_literalSource (d.lzu hp).opcount_le
    rw [State.stepsLeft_of_literals hp hu]
    omega
  case full hp hu hf =>
    rw [State.stepsLeft_of_lzu hp hu, State.stepsLeft_of_literals (s := s.lzEndFull) hp rfl, hnpix]
    omega
  case copy h k lit back term len src fits =>
    refine h.stepsLeft_lt hplen hnpix (by simp [h.phase]) fun _ => ?_
    have hsrc : (s.lzDone k lit back term).lzu.src.toNat = s.lzu.src.toNat + 1 + k + lit := by
      rw [show (s.lzDone k lit back term).lzu.src = BitVec.ofNat 32 (s.lzu.src.toNat + 1 + k + lit) by
        cases term <;> simp [State.lzDone]]
      exact toNat_ofNat_of_lt (by have := s.plen_lt; omega)
    omega
  case abort h => exact h.stepsLeft_lt hplen hnpix h.phase fun hu => by cases hu
  case abortCopy h a lit fits =>
    exact h.stepsLeft_lt hplen hnpix (by simp [h.phase]) fun hu => by cases hu
  case flip h => exact h.stepsLeft_lt h.phase rfl rfl
  case literalRun z h hl => exact h.toAtOpcode.stepsLeft_lt h.phase rfl rfl
  case prevRun z h => exact h.toAtOpcode.stepsLeft_lt h.phase rfl rfl
  case moveRun z h dx dy hv => exact h.toAtOpcode.stepsLeft_lt h.phase rfl rfl

/-! ### START -/

/-- The host's write of START is the start step (R120). -/
theorem eq_start_of_hostMove {s t : State} {v : Word} (hi : s.busy = false) (hv : v.getLsbD 0 = true)
    (e : hostMove (.writeCsr 0 v) s = .next t) : t = s.start := by
  have h : s.csrWrite 0 v = t := Host.Outcome.next.inj e
  rw [← h, State.csrWrite_start hi hv]

theorem State.start_inputs (s : State) : s.start.inputs = s.inputs := by
  rcases s.start_outcome with ⟨c, info, e⟩ | ⟨_, _, e⟩ <;> rw [e] <;> rfl

/-- The first bit lies after the length byte, so OSD has at most `8*PLEN - 8` bits to read, and the steps between the units
fit into the rest (R141). -/
theorem State.stepsLeft_start (s : State) : s.start.stepsLeft ≤ 8 * s.plen + s.plen + s.npix := by
  rcases s.start_outcome with ⟨c, info, e⟩ | ⟨hc, hh, e⟩
  · rw [e, State.stepsLeft_of_idle rfl]; exact Nat.zero_le _
  · have g := (State.startReady_geometry hc hh).1
    have hbit := (State.startReady_osdPhase g).bitpos_ge
    have hplen : hdrBytes ≤ s.plen := g.header_fits
    have hp : s.startReady.headerLoad.osdInit.plen = s.plen := rfl
    have hn : s.startReady.headerLoad.osdInit.npix = s.npix := rfl
    rw [e, State.stepsLeft_of_osd rfl rfl, hp, hn]
    simp only [hdrBytes] at hplen
    omega

/-! ### The run -/

/-- The host's schedule holds nothing but CSR reads and waits, and once FDB is idle the decode's outcome is recorded
(R133, R310). -/
structure State.Watched (s : State) : Prop where
  inv : s.Inv
  outcome : s.busy = false → s.st.done = !s.st.fault
  reads : ∀ m, some m ∈ s.inputs → ∃ n, m = .readCsr n

theorem FdbMove.inputs_eq {s t : State} (m : FdbMove s t) : t.inputs = s.inputs := by
  cases m
  case copy k lit back term _ _ _ => cases term <;> simp [State.lzDone]
  case abortCopy => simp
  all_goals rfl

/-- A decode that ends has recorded exactly one of completion and fault (R130, R262). -/
theorem FdbMove.outcome {s t : State} (m : FdbMove s t) (inv : s.Inv) (h : s.busy = false → s.st.done = !s.st.fault)
    (ht : t.busy = false) : t.st.done = !t.st.fault := by
  rcases m.idle_or_not with ⟨_, rfl⟩ | hp
  · exact h ht
  · obtain ⟨hdone, hfault⟩ := inv.status.busy_open ((State.busy_iff s).2 hp)
    rcases m.outcome_cases hp with ⟨c, info, rfl⟩ | ⟨_, _, rfl⟩ | ⟨hbusy, _⟩
    · simp [hdone]
    · simp [hfault]
    · exact absurd ((State.not_busy_iff t).1 ht) hbusy

theorem State.Watched.next {s t : State} (h : s.Watched) (m : FdbMove s t) : t.Watched where
  inv := m.keepsInv h.inv
  outcome := m.outcome h.inv h.outcome
  reads := by rw [m.inputs_eq]; exact h.reads

/-- The host's schedule may be cut, and its last read value and count of reads are free. -/
theorem State.Watched.of_ownFields {s : State} (h : s.Watched) {ins : List (Option HostMove)}
    (hins : ∀ m, some m ∈ ins → ∃ n, m = .readCsr n) (r : Word) (d : Nat) :
    ({ s with inputs := ins, readback := r, draws := d } : State).Watched where
  inv := h.inv.of_ownFields ins r d
  outcome := h.outcome
  reads := hins

/-- How many reads the host's schedule still holds. -/
def State.readsLeft (s : State) : Nat := s.inputs.countP Option.isSome

/-- A step of FDB in a watched state: it answers, and lowers the bound while the decode goes on. -/
theorem State.Watched.fdbStep {s : State} (h : s.Watched) : ∃ t, fdbStep s = .next t ∧ t.Watched ∧
    (t.busy = true → s.busy = true ∧ t.stepsLeft + t.readsLeft < s.stepsLeft + s.readsLeft) := by
  obtain ⟨t, e⟩ := h.inv.decode.fdbStep_total
  have m := fdbStep_move e
  refine ⟨t, e, h.next m, fun hb => ?_⟩
  rcases m.idle_or_not with ⟨hi, rfl⟩ | hp
  · exact absurd hi ((State.busy_iff _).1 hb)
  · refine ⟨(State.busy_iff s).2 hp, ?_⟩
    have hreads : t.readsLeft = s.readsLeft := congrArg (List.countP Option.isSome) m.inputs_eq
    have hsteps := m.stepsLeft_lt h.inv.decode hp
    omega

/-- A host read changes nothing of FDB (R67). -/
theorem State.csrRead_ownFields (s : State) (n : Nat) : ∃ r d, s.csrRead n = { s with readback := r, draws := d } := by
  rcases s.csrRead_cases n with ⟨_, e⟩ | ⟨_, e⟩ <;> exact ⟨_, _, e⟩

/-- A step of the machine in a watched state: FDB's, or one of the host's reads. -/
theorem State.Watched.step {s : State} (h : s.Watched) : ∃ t, step s = .next t ∧ t.Watched ∧
    (t.busy = true → s.busy = true ∧ t.stepsLeft + t.readsLeft < s.stepsLeft + s.readsLeft) := by
  have cut : ∀ {x rest}, s.inputs = x :: rest → ∀ m, some m ∈ rest → ∃ n, m = .readCsr n := fun hin m hm =>
    h.reads m (by rw [hin]; exact List.mem_cons_of_mem _ hm)
  rcases step_cases s with ⟨_, e⟩ | ⟨rest, hin, e⟩ | ⟨m, rest, hin, e⟩ <;> rw [e]
  · exact h.fdbStep
  · obtain ⟨t, e, ht, hlt⟩ := (h.of_ownFields (cut hin) s.readback s.draws).fdbStep
    refine ⟨t, e, ht, fun hb => ⟨(hlt hb).1, lt_of_lt_of_eq (hlt hb).2 ?_⟩⟩
    simp only [State.readsLeft, hin, List.countP_cons, Option.isSome_none, Bool.false_eq_true, if_false, Nat.add_zero]
    rfl
  · obtain ⟨n, rfl⟩ := h.reads m (by rw [hin]; exact List.mem_cons_self ..)
    obtain ⟨r, d, er⟩ := ({ s with inputs := rest } : State).csrRead_ownFields n
    refine ⟨_, congrArg Host.Outcome.next er, h.of_ownFields (cut hin) r d, fun hb => ⟨hb, ?_⟩⟩
    simp only [State.readsLeft, hin, List.countP_cons, Option.isSome_some, if_true]
    exact Nat.lt_succ_self _

theorem run_succ_of_step {s t : State} (h : step s = .next t) (k : Nat) :
    Sys2Proof.core.run (k + 1) s = Sys2Proof.core.run k t := by
  simp only [Host.Core.run, show Sys2Proof.core.step s = .next t from h]

/-- A watched decode ends within its bound, the host's reads counted on top. -/
theorem State.Watched.run_ends : ∀ (k : Nat) {s : State}, s.Watched →
    (s.busy = true → s.stepsLeft + s.readsLeft ≤ k) →
    ∃ t, Sys2Proof.core.run k s = .next t ∧ t.busy = false ∧ t.st.done = !t.st.fault
  | 0, s, h, hk => by
    have hb : s.busy = false := by
      cases hb : s.busy
      · rfl
      · have := State.stepsLeft_pos ((State.busy_iff s).1 hb)
        have := hk hb
        omega
    exact ⟨s, rfl, hb, h.outcome hb⟩
  | k + 1, s, h, hk => by
    obtain ⟨u, e, hu, hlt⟩ := h.step
    obtain ⟨t, et, ht⟩ := hu.run_ends k fun hb => by
      obtain ⟨hs, hlt⟩ := hlt hb
      have := hk hs
      omega
    exact ⟨t, (run_succ_of_step e k).trans et, ht⟩

/-- After START the machine is watched, whether the decode goes on or faults at once. -/
theorem State.Watched.start {s : State} (inv : s.Inv) (hins : ∀ m, some m ∈ s.inputs → ∃ n, m = .readCsr n) :
    s.start.Watched where
  inv := inv.start
  outcome hb := by
    rcases s.start_outcome with ⟨c, info, e⟩ | ⟨_, _, e⟩ <;> rw [e] at hb ⊢
    · rfl
    · cases hb
  reads := by rw [s.start_inputs]; exact hins

/-- Settles O59: START leaves a watched state, whose bound (`State.stepsLeft_start`) every further step of the decode
lowers. -/
theorem everyDecodeEnds : Obligations.EveryDecodeEnds := by
  intro s v rest inv hi hv hin hreads
  set u : State := { s with inputs := rest }
  have hstep : step s = .next u.start := by
    have : step s = hostMove (.writeCsr 0 v) u := by unfold step; rw [hin]
    rw [this]
    exact congrArg Host.Outcome.next (State.csrWrite_start (s := u) hi hv)
  have hu : u.start.Watched := .start (inv.of_ownFields rest s.readback s.draws) hreads
  have hcount : u.start.readsLeft = rest.countP Option.isSome := congrArg (List.countP Option.isSome) u.start_inputs
  have hbound : u.start.stepsLeft ≤ 8 * s.plen + s.plen + s.npix := u.stepsLeft_start
  obtain ⟨t, e, ht⟩ := hu.run_ends (2 + 8 * s.plen + s.plen + s.npix + 1 + rest.countP Option.isSome)
    fun _ => by omega
  refine ⟨t, ?_, ht⟩
  rw [show 2 + 8 * s.plen + s.plen + s.npix + 2 + rest.countP Option.isSome =
    2 + 8 * s.plen + s.plen + s.npix + 1 + rest.countP Option.isSome + 1 by omega, run_succ_of_step hstep]
  exact e

end Sys2Proof.Machine
end

section
/-! SUPPORT. START: what its clearing leaves, and its two checks as the chains of R122 and R123. -/

namespace Sys2Proof.Machine

/-! ### The clearing (R121, R124, R49) -/

/-- The clearing touches the bytes of `CUR` alone (R49, R124). -/
theorem State.byte_startReady (s : State) {sp : Space} (h : sp ≠ s.cur) (a : Nat) :
    s.startReady.byte sp a = s.byte sp a :=
  congrArg (fun m => Mem.byte sp m a) (State.memAt_setMem_ne s.startClear (s.memAt s.cur).forget h)

/-- No byte of `CUR` has a value after the clearing (R49). -/
theorem State.get?_startReady_cur (s : State) (a : Nat) :
    (s.startReady.memAt s.startReady.cur).get? a = none :=
  congrArg (fun m => Mem.get? m a) (State.memAt_setMem_self s.startClear s.cur (s.memAt s.cur).forget)

/-- Settles O8: START goes on from the cleared state, with a fault recorded or with OSD's first step. -/
theorem startClears : Obligations.StartClears := by
  intro s t v hi hv e
  obtain rfl := eq_start_of_hostMove hi hv e
  have keep : ∀ sp a, sp ≠ s.cur → s.startReady.byte sp a = s.byte sp a := fun _ a h => s.byte_startReady h a
  have fresh := s.get?_startReady_cur
  rcases s.start_outcome with ⟨c, info, e⟩ | ⟨_, _, e⟩ <;> rw [e]
  · exact ⟨rfl, rfl, rfl, rfl, rfl, rfl, rfl, rfl, rfl, rfl, (fun h => by cases h), rfl, rfl, rfl, rfl, rfl, rfl, keep,
      fresh⟩
  · exact ⟨rfl, rfl, rfl, rfl, rfl, rfl, rfl, rfl, rfl, rfl, fun _ => ⟨rfl, rfl⟩, rfl, rfl, rfl, rfl, rfl, rfl, keep,
      fresh⟩

/-! ### The configuration check (R122) -/

/-- The clearing leaves what the configuration check reads. -/
theorem State.configError?_startReady (s : State) : s.startReady.configError? = s.configError? := rfl

/-- The info values of R122 are 1 to 6. -/
theorem State.configError?_le {s : State} {k : Nat} (h : s.configError? = some k) : k ≤ 6 := by
  unfold State.configError? at h
  split_ifs at h <;> simp only [Option.some.injEq] at h <;> omega

/-- The record START leaves of a check that failed with the cause of code `code` and the info value `k` (R122, R123, R262). -/
structure State.StartFault (t : State) (code k : Nat) : Prop where
  fault : t.st.fault = true
  cause : t.st.cause.toNat = code
  info : t.csr.faultinfo.toNat = k
  idle : t.busy = false

theorem State.StartFault.raise (s : State) (c : Cause) {k : Nat} (hk : k ≤ 6) : (s.raise c k).StartFault c.code k where
  fault := rfl
  cause := by cases c <;> rfl
  info := toNat_ofNat_of_lt (by omega)
  idle := rfl

/-- What START records of the configuration check: its info value, or no fault of cause 1. -/
theorem State.start_configError? (s : State) :
    s.configError?.elim (s.start.st.cause.toNat ≠ 1) (s.start.StartFault 1) := by
  rcases s.start_cases with ⟨k, hk, e⟩ | ⟨k, hk, _, e⟩ | ⟨hk, _, e⟩
  all_goals
    replace hk := s.configError?_startReady.symm.trans hk
    rw [hk, e]
  · exact .raise _ .cfgInvalid (State.configError?_le hk)
  · show (BitVec.ofNat 5 2).toNat ≠ 1
    decide
  · show (0 : BitVec 5).toNat ≠ 1
    decide

/-- Settles O9: the check of `State.configError?`, taken through its chain of conditions. -/
theorem startConfigCheck : Obligations.StartConfigCheck := by
  intro s t v hi hv e
  obtain rfl := eq_start_of_hostMove hi hv e
  intro bad
  have record : ∀ k, s.start.StartFault 1 k → bad k := fun k h => ⟨h.fault, h.cause, h.info, h.idle⟩
  have h := s.start_configError?
  unfold State.configError? at h
  split_ifs at h ⊢
  any_goals exact record _ h
  exact h

/-! ### The header parse (R123) -/

theorem State.headerError?_startReady (s : State) : s.startReady.headerError? = s.headerError? := by
  have hbyte := s.byte_startReady s.cur_ne_pmem.symm
  simp only [State.headerError?, State.hdrField, hbyte]
  rfl

/-- The info values of R123 are 0 to 4. -/
theorem State.headerError?_le {s : State} {k : Nat} (h : s.headerError? = some k) : k ≤ 4 := by
  unfold State.headerError? at h
  split_ifs at h <;> simp only [Option.some.injEq] at h <;> omega

/-- A header field fits the register that takes it (R91). -/
theorem State.hdrField_lt (s : State) (k : Nat) : s.hdrField k < 2 ^ 16 := by
  have h0 := (s.byte .pmem (2 * k)).isLt
  have h1 := (s.byte .pmem (2 * k + 1)).isLt
  simp only [State.hdrField, le16]
  omega

theorem State.hdrField_startReady (s : State) (k : Nat) :
    (BitVec.ofNat 16 (s.startReady.hdrField k)).toNat = s.hdrField k := by
  have hbyte := s.byte_startReady s.cur_ne_pmem.symm
  rw [toNat_ofNat_of_lt (s.startReady.hdrField_lt k)]
  simp only [State.hdrField, hbyte]

/-- The OSD phase with the four offsets of the header (R123). -/
structure State.HeaderLoaded (s t : State) : Prop where
  no_fault : t.st.fault = false
  phase : t.seq.phase = .osd
  huf : t.seq.huf.toNat = s.hdrField 0
  sizoff : t.seq.sizoff.toNat = s.hdrField 1
  vecoff : t.seq.vecoff.toNat = s.hdrField 2
  imgoff : t.seq.imgoff.toNat = s.hdrField 3

/-- What START records of the header check once the configuration check has passed: its info value, or the loaded
header. -/
theorem State.start_headerError? {s : State} (hc : s.configError? = none) :
    s.headerError?.elim (s.HeaderLoaded s.start) (s.start.StartFault 2) := by
  rcases s.start_cases with ⟨k, hk, _⟩ | ⟨k, _, hk, e⟩ | ⟨_, hk, e⟩
  · cases hc.symm.trans hk
  all_goals
    replace hk := s.headerError?_startReady.symm.trans hk
    rw [hk, e]
  · exact .raise _ .hdrRange ((State.headerError?_le hk).trans (by decide))
  · exact ⟨rfl, rfl, s.hdrField_startReady 0, s.hdrField_startReady 1, s.hdrField_startReady 2,
      s.hdrField_startReady 3⟩

/-- Settles O10: the check of `State.headerError?`, taken through its chain of conditions. -/
theorem startHeaderParse : Obligations.StartHeaderParse := by
  intro s t v hi hv hc e
  obtain rfl := eq_start_of_hostMove hi hv e
  intro le bad
  have record : ∀ k, s.start.StartFault 2 k → bad k := fun k h => ⟨h.fault, h.cause, h.info, h.idle⟩
  have h := State.start_headerError? hc
  unfold State.headerError? at h
  show if s.plen < hdrBytes then bad 4
    else if s.plen ≤ s.hdrField 0 then bad 0
    else if s.plen ≤ s.hdrField 1 then bad 1
    else if s.plen ≤ s.hdrField 2 then bad 2
    else if s.plen ≤ s.hdrField 3 then bad 3
    else _
  split_ifs at h ⊢
  any_goals exact record _ h
  exact ⟨h.no_fault, h.phase, h.huf, h.sizoff, h.vecoff, h.imgoff⟩

end Sys2Proof.Machine
end

section
/-! SUPPORT. The steps of SEQ that follow OSD: the marker step, the literal-source step and the completion step. -/

namespace Sys2Proof.Machine

/-- FRP's registers after its initial step, as the statements read them (R190). -/
structure State.FrpStart (s t : State) : Prop where
  x : t.frp.x = 0
  y : t.frp.y = 0
  rem : t.frp.rem.toNat = s.w * s.h
  flag : t.frp.flag = false
  opc : t.frp.opc = 0
  siz : t.frp.siz.toNat = s.seq.sizoff.toNat
  vec : t.frp.vec.toNat = s.seq.vecoff.toNat
  lit : t.frp.lit = 0

theorem State.FrpStart.literalSource (s : State) : s.FrpStart s.literalSource where
  x := rfl
  y := rfl
  rem := by
    have := s.npix_le
    rw [State.literalSource_frp_rem, toNat_ofNat_of_lt (by omega), State.npix_def]
  flag := rfl
  opc := rfl
  siz := setWidth_half_toNat _
  vec := setWidth_half_toNat _
  lit := rfl

/-- Settles O12: the marker step chooses the payload and takes the literal-source step with it. -/
theorem imgRawEffect : Obligations.ImgRawEffect := by
  intro m s hmark
  have hplen := s.plen_lt
  have f := State.FrpStart.literalSource s.chooseRaw
  exact ⟨s.chooseRaw.literalSource, rfl, rfl, rfl, toNat_ofNat_of_lt (by simp only [State.chooseRaw]; omega),
    toNat_ofNat_of_lt (lt_of_le_of_lt ((Nat.sub_le _ _).trans (Nat.sub_le _ _)) hplen),
    f.x, f.y, f.rem, f.flag, f.opc, f.siz, f.vec, f.lit⟩

/-- Settles O13: the marker step chooses LZU's output and takes LZU's initial step. -/
theorem imgLzEffect : Obligations.ImgLzEffect := fun s =>
  have himg := s.seq.imgoff.isLt
  ⟨s.chooseLz.lzuInit, rfl, toNat_ofNat_of_lt (by simp only [State.chooseLz]; omega), rfl⟩

/-- Once LZU has ended the next step is the literal-source step (R125). -/
theorem step_literalSource {s : State} (hin : s.inputs = []) (hp : s.seq.phase = .lzu) (hu : s.seq.unitDone = true) :
    step s = .next s.literalSource := by
  rw [step_of_no_inputs hin, fdbStep, fetch, hp]
  simp [hu]

/-- Settles O14: the literal-source step with `LITMODE = 1`. -/
theorem literalSourceAfterLzu : Obligations.LiteralSourceAfterLzu := by
  intro s hin hp hu hm
  have f := State.FrpStart.literalSource s
  refine ⟨s.literalSource, step_literalSource hin hp hu, rfl, ?_, f.x, f.y, f.rem, f.flag, f.opc, f.siz, f.vec, f.lit⟩
  rw [State.literalSource_seq_eq, hm]
  rfl

/-- FRP with no pixel left takes the completion step (R130, R191). -/
theorem step_complete {s : State} (hin : s.inputs = []) (hp : s.seq.phase = .frp) (hr : s.frp.rem.toNat = 0) :
    step s = .next s.complete := by
  rw [step_of_no_inputs hin, fdbStep, fetch, hp]
  simp [fetchFrp, hr]

/-- Settles O15: the completion step, after which the banks have changed places. -/
theorem completionStep : Obligations.CompletionStep := by
  intro s hin hp hr
  refine ⟨s.complete, step_complete hin hp hr, rfl, ?_, rfl, rfl⟩
  show bankOf (!(!s.st.cursel)) = bankOf s.st.cursel
  rw [Bool.not_not]

end Sys2Proof.Machine
end

section
/-! SUPPORT. What a unit's step executes: each unit's fetch gives the instruction that the bytes at its cursor decode to, and
`withFetch` puts an instruction's bytes there. -/

namespace Sys2Proof.Machine

/-! ### The step of each unit -/

theorem step_of_fetch_run {s : State} {i : Instr} (hin : s.inputs = []) (hf : fetch s = .run i) :
    step s = exec i s := by
  rw [step_of_no_inputs hin, fdbStep, hf]

/-- The marker step executes the marker (R126). -/
theorem fetch_marker {s : State} (hp : s.seq.phase = .osd) (hu : s.seq.unitDone = true)
    (hsize : s.seq.imgoff.toNat < s.size .pmem) :
    fetch s = .run (decodeMarker (s.byte .pmem s.seq.imgoff.toNat)) := by
  rw [fetch, hp]
  simp only [hu, if_true]
  exact State.fetchBytes_of_exist (by simpa using hsize)

/-- An OSD step whose bit and whose table entry lie inside the payload executes the entry (R142). -/
theorem fetch_entry {s : State} (hp : s.seq.phase = .osd) (hu : s.seq.unitDone = false)
    (hn : nodeBias ≤ s.osd.node.toNat) (hbit : s.osd.bitpos.toNat / 8 < s.plen)
    (hbit' : s.osd.bitpos.toNat / 8 < s.size .pmem) (hi : s.tableIndex < 2 * s.osd.n.toNat)
    (ha : s.tableAddr < s.plen) (ha' : s.tableAddr < s.size .pmem) :
    fetch s = .run (decodeTrie (s.byte .pmem s.tableAddr)) := by
  have hmark : s.osd.node.toNat ≠ sentBias := by simp only [nodeBias, sentBias] at *; omega
  have hentry : fetchEntry s = .run (decodeTrie (s.byte .pmem s.tableAddr)) := by
    rw [fetchEntry, if_neg (by omega), if_neg (by omega), if_neg (by omega)]
    exact State.fetchBytes_of_exist (by simpa using ha')
  rw [fetch, hp]
  simp only [hu, Bool.false_eq_true, if_false]
  rw [fetchOsd, if_neg hmark, if_neg (by omega), State.fetchBytes_of_exist (by simpa using hbit'), hentry]

/-- An LZU step whose control and operand bytes lie inside the payload executes the instruction at `SRC` (R163). -/
theorem fetch_lzInstr {s : State} (hp : s.seq.phase = .lzu) (hu : s.seq.unitDone = false) (room : s.lzcount < s.npix)
    (hend : s.lzu.src.toNat + 1 + lzOperandBytes (lzForm s.ctrlByte) ≤ s.plen)
    (hend' : s.lzu.src.toNat + 1 + lzOperandBytes (lzForm s.ctrlByte) ≤ s.size .pmem) :
    fetch s = .run s.lzInstr := by
  rw [fetch, hp]
  simp only [hu, Bool.false_eq_true, if_false]
  rw [fetchLzu, if_neg (by omega), if_neg (by omega), State.fetchBytes_of_exist, if_neg (by omega),
    State.fetchBytes_of_exist]
  · intro a ha; rw [List.mem_range'_1] at ha; omega
  · simp only [List.mem_singleton, forall_eq]; omega

/-- An FRP step at an opcode below 22 executes it (R191). -/
theorem fetch_opcode {s : State} {i : Instr} (ho : s.AtOpcode) (hsize : s.frp.opc.toNat < s.size .opbuf)
    (hd : decodeOp (s.byte .opbuf s.frp.opc.toNat) = some i) : fetch s = .run i := by
  have hlt := ho.opc_lt
  rw [fetch, ho.phase]
  dsimp only
  rw [fetchFrp, if_neg ho.rem_ne, if_neg (by omega), State.fetchBytes_of_exist (by simpa using hsize), hd]

/-- Bytes at `SRC` that are one whole LZU instruction are the instruction the step takes there (R100, R163). -/
theorem State.lzInstr_eq_of_decode {s : State} {c : Byte} {rest : List Byte} {i : Instr}
    (hd : decode .lz (c :: rest) = .ok (i, [])) (hc : s.byte .pmem s.lzu.src.toNat = c)
    (hr : ∀ j (hj : j < rest.length), s.byte .pmem (s.lzu.src.toNat + (j + 1)) = rest[j]) :
    lzOperandBytes (lzForm s.ctrlByte) = rest.length ∧ s.lzInstr = i := by
  obtain ⟨hle, hi, hdrop⟩ := decode_lz_cons_eq_ok_iff.1 hd
  have hctrl : s.ctrlByte = c := hc
  have hlen : lzOperandBytes (lzForm c) = rest.length := le_antisymm hle (List.drop_eq_nil_iff.1 hdrop)
  have operand : ∀ j, s.lzOperand (j + 1) = rest.getD j 0 := fun j => by
    rw [State.lzOperand, hctrl, hlen]
    split
    · rename_i hj; rw [hr j hj, List.getD_eq_getElem _ _ hj]
    · rename_i hj; rw [List.getD_eq_default _ _ (by omega)]
  refine ⟨by rw [hctrl, hlen], ?_⟩
  rw [State.lzInstr, hctrl, operand 0, operand 1, operand 2, hi]

/-- Settles O6: by the active unit for FDB's own step, by the schedule's head for the host's. -/
theorem stepRunsDecoded : Obligations.StepRunsDecoded := by
  refine ⟨fun s i hin => ⟨fun hp hu hsize hd => ?_, fun hp hu hplen hn hbit hi ha hd => ?_,
    fun hp hu hplen room n hn hd => ?_, fun hp hr ho hsize hd => ?_⟩, fun s m rest => ⟨rfl, rfl, rfl⟩⟩
  · cases hd
    exact step_of_fetch_run hin (fetch_marker hp hu hsize)
  · cases hd
    exact step_of_fetch_run hin (fetch_entry hp hu hn hbit (by omega) hi ha (by omega))
  · cases n with
    | zero => cases hd
    | succ n =>
      rw [List.range'_succ, List.map_cons] at hd
      obtain ⟨hlen, rfl⟩ := State.lzInstr_eq_of_decode hd rfl fun j hj => by
        rw [List.getElem_map, List.getElem_range']
        congr 1; omega
      rw [List.length_map, List.length_range'] at hlen
      exact step_of_fetch_run hin (fetch_lzInstr hp hu room (by omega) (by omega))
  · obtain ⟨hop, _⟩ := decode_op_cons_eq_ok_iff.1 hd
    exact step_of_fetch_run hin (fetch_opcode ⟨hp, hr, ho⟩ hsize hop)

end Sys2Proof.Machine
end

section
/-! SUPPORT. What `withFetch` puts together (log entry 9): the placed bytes stand at the unit's cursor, and the unit's checks
before the instruction pass. -/

namespace Sys2Proof.Machine

/-- Placed bytes are read back one by one. -/
theorem State.byte_place (s : State) (sp : Space) {bs : List Byte} {j : Nat} (hj : j < bs.length) :
    (s.place sp 0 bs).byte sp j = bs[j] := by
  rw [State.byte_def, State.place, State.memAt_setMem_self]
  exact Mem.byte_of_get? (by simpa using Mem.get?_place (m := s.memAt sp) (a := 0) hj)

/-- `readyFor n` makes `PLEN` cover the first `n` bytes. -/
theorem State.le_plen_readyFor (s : State) {n : Nat} (hn : n < 2 ^ 32) : n ≤ (s.readyFor n).plen := by
  show n ≤ (if s.plen < n then BitVec.ofNat 32 n else s.csr.plen).toNat
  split
  · rw [toNat_ofNat_of_lt hn]
  · exact Nat.le_of_not_lt ‹_›

theorem State.le_size_readyFor (s : State) (n : Nat) : n ≤ (s.readyFor n).size .pmem := le_max_right _ _

theorem State.nonEmptyFrame_npix_pos (s : State) : 0 < s.nonEmptyFrame.npix := by
  have pos : ∀ x : Half, 0 < (if x.toNat = 0 then 1 else x).toNat := fun x => by
    split
    · decide
    · omega
  exact Nat.mul_pos (pos s.csr.width) (pos s.csr.height)

/-- The marker placed is the marker executed. -/
theorem step_withMarker (s : State) (m : Byte) :
    step (s.withMarker [m]) = exec (decodeMarker m) (s.withMarker [m]) := by
  have hbyte : (s.withMarker [m]).byte .pmem 0 = m := (s.readyFor 1).byte_place .pmem (bs := [m]) (j := 0) (by simp)
  have hf := fetch_marker (s := s.withMarker [m]) rfl rfl (s.le_size_readyFor 1)
  exact step_of_fetch_run rfl (hf.trans (congrArg (fun b => Fetched.run (decodeMarker b)) hbyte))

/-- The trie entry placed is the entry executed: the next bit is 0, so the lookup takes the first of the two. -/
theorem step_withTrieEntry (s : State) (v : Byte) :
    step (s.withTrieEntry [v]) = exec (decodeTrie v) (s.withTrieEntry [v]) := by
  set u := s.withTrieEntry [v]
  have hbyte : ∀ j (hj : j < 4), u.byte .pmem j = [0x01, v, v, 0x00][j] := fun j hj =>
    (s.readyFor 4).byte_place .pmem (bs := [0x01, v, v, 0x00]) hj
  have hplen : 4 ≤ u.plen := s.le_plen_readyFor (by decide)
  have hsize : 4 ≤ u.size .pmem := s.le_size_readyFor 4
  have hosd : u.osd = { n := 1, sent := 0x17, node := 0x17, bitpos := 24 } := rfl
  have hbit : u.osd.bitpos.toNat / 8 = 3 := by rw [hosd]; decide
  have hnext : u.nextBit = false := by
    rw [State.nextBit, hbit, hbyte 3 (by decide), hosd]
    show streamBit 0x00 24 = false
    decide
  have hindex : u.tableIndex = 0 := by
    rw [State.tableIndex, hnext, hosd]
    decide
  have haddr : u.tableAddr = 1 := by
    rw [State.tableAddr, hindex]
    rfl
  have hf : fetch u = .run (decodeTrie (u.byte .pmem u.tableAddr)) :=
    fetch_entry rfl rfl (by rw [hosd]; decide) (by omega) (by omega) (by rw [hindex, hosd]; decide) (by omega)
      (by omega)
  rw [haddr, hbyte 1 (by decide)] at hf
  exact step_of_fetch_run rfl hf

/-- The LZU instruction whose bytes are placed is the one executed. -/
theorem step_withLzBytes (s : State) {bs : List Byte} {i : Instr} (hd : decode .lz bs = .ok (i, []))
    (hlen : bs.length ≤ longestInstr) : step (s.withLzBytes bs) = exec i (s.withLzBytes bs) := by
  set u := s.withLzBytes bs
  have hbyte : ∀ j (hj : j < bs.length), u.byte .pmem j = bs[j] := fun j hj => by
    have h := ((s.readyFor longestInstr).nonEmptyFrame).byte_place .pmem (bs := bs.take longestInstr) (j := j)
      (by rw [List.length_take]; omega)
    rw [List.getElem_take] at h
    exact h
  have hplen : longestInstr ≤ u.plen := s.le_plen_readyFor (by decide)
  have hsize : longestInstr ≤ u.size .pmem := s.le_size_readyFor longestInstr
  have hroom : u.lzcount < u.npix := (s.readyFor longestInstr).nonEmptyFrame_npix_pos
  have hsrc : u.lzu.src.toNat = 0 := rfl
  cases bs with
  | nil => cases hd
  | cons c rest =>
    rw [List.length_cons] at hlen
    obtain ⟨hops, hi⟩ := State.lzInstr_eq_of_decode (s := u) hd (hbyte 0 (Nat.succ_pos _)) fun j hj => by
      rw [hsrc, Nat.zero_add, hbyte (j + 1) (Nat.succ_lt_succ hj)]
      rfl
    have hf : fetch u = .run u.lzInstr := fetch_lzInstr rfl rfl hroom (by omega) (by omega)
    exact step_of_fetch_run rfl (hi ▸ hf)

/-- The opcode placed is the opcode executed. -/
theorem step_withOpcode (s : State) {b : Byte} {i : Instr} (hd : decodeOp b = some i) :
    step (s.withOpcode [b]) = exec i (s.withOpcode [b]) := by
  set u := s.withOpcode [b]
  have hopc : u.frp.opc.toNat = 0 := rfl
  have hbyte : u.byte .opbuf 0 = b :=
    (((s.readyFor 4).nonEmptyFrame).place .pmem 0 [0, 0, 0, 0]).byte_place .opbuf (bs := [b]) (j := 0) (by simp)
  have hsize : 1 ≤ u.size .opbuf := le_max_right _ _
  have hcount : 0 < u.opcount := by
    show 0 < (if s.opcount = 0 then (1 : Word) else s.csr.opcount).toNat
    split
    · decide
    · exact Nat.pos_of_ne_zero ‹_›
  have hrem : u.frp.rem.toNat ≠ 0 := by
    have hpos := (s.readyFor 4).nonEmptyFrame_npix_pos
    have hle := (s.readyFor 4).nonEmptyFrame.npix_le
    show (if s.frp.rem = 0 then BitVec.ofNat 32 (s.readyFor 4).nonEmptyFrame.npix else s.frp.rem).toNat ≠ 0
    split
    · rw [toNat_ofNat_of_lt (by omega)]; omega
    · exact fun h => ‹¬s.frp.rem = 0› (BitVec.eq_of_toNat_eq h)
  exact step_of_fetch_run rfl (fetch_opcode ⟨rfl, hrem, hcount⟩ hsize (by rw [hopc, hbyte]; exact hd))

/-- The encodings of the formats but LZ are one byte, LZ's at most four (R111). -/
theorem encode_length_le (i : Instr) : (encode i).length ≤ 4 := by cases i <;> simp [encode]

/-- One byte that decodes with nothing left over. -/
theorem eq_singleton_of_decode {f : Format} (hf : f ≠ .lz) {bs : List Byte} {i : Instr} (h : decode f bs = .ok (i, [])) :
    ∃ c, bs = [c] := by
  cases bs with
  | nil => cases h
  | cons c rest =>
    refine ⟨c, ?_⟩
    cases f with
    | lz => exact absurd rfl hf
    | imgm => cases h; rfl
    | trie => cases h; rfl
    | op => rw [(decode_op_cons_eq_ok_iff.1 h).2]

/-- Settles O7: what is encoded decodes (O1), and each unit executes what its placed bytes decode to. -/
theorem placedInstructionRuns : Obligations.PlacedInstructionRuns := by
  intro s i hwf
  have hd : decode i.format (encode i) = .ok (i, []) := by simpa using decodeOfEncode i [] hwf
  have hlen := encode_length_le i
  revert hd hlen
  generalize i.format = f
  generalize encode i = bs
  intro hd hlen
  cases f with
  | imgm =>
    obtain ⟨c, rfl⟩ := eq_singleton_of_decode (by decide) hd
    cases hd
    exact step_withMarker s c
  | trie =>
    obtain ⟨c, rfl⟩ := eq_singleton_of_decode (by decide) hd
    cases hd
    exact step_withTrieEntry s c
  | lz => exact step_withLzBytes s hd (hlen.trans (by decide))
  | op =>
    obtain ⟨c, rfl⟩ := eq_singleton_of_decode (by decide) hd
    exact step_withOpcode s (decode_op_cons_eq_ok_iff.1 hd).1

end Sys2Proof.Machine
end

section
/-! SUPPORT. Painting byte by byte: which byte of the source each pixel of a run takes, where the cursors stand after it, and
with that the run of literal bytes. -/

namespace Sys2Proof.Machine

/-! ### The pixels of a run -/

/-- The raster walk from column `x < w` of row `y` is the pixels from `y*w + x` on, in order (R48, R197). -/
theorem pixelAddrs_eq_map {w stride : Nat} : ∀ {n x y : Nat}, x < w →
    pixelAddrs w stride n (x, y) = (List.range' (y * w + x) n).map fun k => k / w * stride + k % w := by
  intro n
  induction n with
  | zero => intros; rfl
  | succ n ih =>
    intro x y hx
    have hdiv : (y * w + x) / w = y := by
      rw [Nat.add_comm, Nat.add_mul_div_right _ _ (by omega), Nat.div_eq_of_lt hx, Nat.zero_add]
    have hmod : (y * w + x) % w = x := by rw [Nat.mul_comm, Nat.mul_add_mod, Nat.mod_eq_of_lt hx]
    have hnext : pixelAddrs w stride n (advCursor w (x, y)) =
        (List.range' (y * w + x + 1) n).map fun k => k / w * stride + k % w := by
      rw [advCursor]
      dsimp only
      split
      · rw [ih (by omega), show (y + 1) * w + 0 = y * w + x + 1 by rw [Nat.succ_mul]; omega]
      · rw [ih (by omega), Nat.add_assoc]
    rw [pixelAddrs, List.range'_succ, List.map_cons, hnext, hdiv, hmod]

theorem State.FrpReady.runAddrs_eq_map {s : State} (r : s.FrpReady) (n : Nat) :
    s.runAddrs n = (List.range' s.paintedCount n).map s.pixelIndex := pixelAddrs_eq_map r.x_lt

/-- Two pixels do not share an index: the columns of a row lie inside the stride (R122). -/
theorem State.Geometry.pixelIndex_injective {s : State} (g : s.Geometry) : Function.Injective s.pixelIndex := by
  have row : ∀ k, s.pixelIndex k / s.stride = k / s.w ∧ s.pixelIndex k % s.stride = k % s.w := fun k => by
    have hcol : k % s.w < s.stride := lt_of_lt_of_le (Nat.mod_lt _ g.width_pos) g.width_le_stride
    rw [State.pixelIndex, Nat.add_comm, Nat.add_mul_div_right _ _ (by omega), Nat.add_mul_mod_self_right,
      Nat.div_eq_of_lt hcol, Nat.mod_eq_of_lt hcol, Nat.zero_add]
    exact ⟨rfl, rfl⟩
  intro j k h
  obtain ⟨hdivj, hmodj⟩ := row j
  obtain ⟨hdivk, hmodk⟩ := row k
  rw [← Nat.div_add_mod j s.w, ← Nat.div_add_mod k s.w, ← hdivj, ← hmodj, ← hdivk, ← hmodk, h]

/-- Pixel `k` of a run takes byte `k` of its source (R197). -/
theorem State.FrpReady.byte_paint {s : State} (r : s.FrpReady) (sp : Space) {src : List Nat} {n k : Nat}
    (hl : src.length = n) (hk : k < n) :
    (s.paint sp src n).byte s.cur (s.pixelIndex (s.paintedCount + k)) = s.byte sp (src[k]'(hl ▸ hk)) := by
  set cells := (s.runAddrs n).zip (src.map (s.byte sp))
  have hnodup : (cells.map Prod.fst).Nodup := by
    rw [List.map_fst_zip (by simp [hl]), r.runAddrs_eq_map]
    exact (List.nodup_range' 1 Nat.one_pos).map r.geometry.pixelIndex_injective
  have hmem : (s.pixelIndex (s.paintedCount + k), s.byte sp (src[k]'(hl ▸ hk))) ∈ cells :=
    List.mem_iff_getElem.2 ⟨k, by simp [cells, hl, hk], by simp [cells, r.runAddrs_eq_map]⟩
  rw [State.byte_def, State.memAt_paint_cur]
  exact Mem.byte_of_get? (Mem.get?_writeAll_mem hnodup hmem)

/-- Painting changes no byte but those of its run (R77, R270). -/
theorem State.memSameBut_paint (s : State) (sp : Space) (src : List Nat) (n : Nat) :
    s.memSameBut (s.paint sp src n) s.cur (s.runAddrs n) := fun _ _ hout => by
  by_contra hne
  exact hout (State.paint_writes hne)

/-! ### The cursors after a run -/

/-- A run of pixels that remain moves `(X, Y)` in raster order and lowers `REM`, and no register overflows (R199). -/
theorem State.FrpReady.endRun_position {s : State} (r : s.FrpReady) {n b : Nat} {f : Bool}
    (hn : n ≤ s.frp.rem.toNat) :
    (s.endRun n b f).frp.x.toNat = (s.frp.x.toNat + n) % s.w ∧
      (s.endRun n b f).frp.y.toNat = s.frp.y.toNat + (s.frp.x.toNat + n) / s.w ∧
      (s.endRun n b f).frp.rem.toNat = s.frp.rem.toNat - n := by
  have hw : 0 < s.w := r.geometry.width_pos
  have hw16 : s.w < 2 ^ 16 := s.csr.width.isLt
  have hh16 : s.h < 2 ^ 16 := s.csr.height.isLt
  have hrem := s.frp.rem.isLt
  have hmod := Nat.mod_lt (s.frp.x.toNat + n) hw
  have hrow : s.frp.y.toNat + (s.frp.x.toNat + n) / s.w ≤ s.h := by
    rw [Nat.add_comm, ← Nat.add_mul_div_right _ _ hw]
    apply Nat.div_le_of_le_mul
    rw [← State.npix_def, ← r.position, State.paintedCount]
    omega
  exact ⟨toNat_ofNat_of_lt (by omega), toNat_ofNat_of_lt (by omega), toNat_ofNat_of_lt (by omega)⟩

/-! ### The run of literal bytes -/

/-- A literal run whose checks pass (R193 to R195). -/
theorem State.FrpReady.altStep_literal {s : State} (r : s.FrpReady) {z : SizeSrc} (hf : s.frp.flag = true)
    (hsiz : s.frp.siz.toNat + z.bytes ≤ s.plen) (hn : s.runSize z ≤ s.frp.rem.toNat)
    (hl : s.frp.lit.toNat + s.runSize z ≤ s.seq.litlen.toNat) :
    altStep z s = .next (s.litDone (s.runSize z) z.bytes) := by
  rw [altStep, withRunSize_go r.geometry.plen_le_size hsiz hn r.geometry.width_pos, hf]
  exact altLiteral_done hl (r.litAddrs_exist hl) (r.runAddrs_exist hn _)

/-- Pixel `k` of a literal run takes literal byte `LIT + k` (R195). -/
theorem State.FrpReady.byte_litDone {s : State} (r : s.FrpReady) (b : Nat) {n k : Nat} (hk : k < n) :
    (s.litDone n b).byte s.cur (s.pixelIndex (s.paintedCount + k)) =
      s.byte s.litSpace (s.litAddr (s.frp.lit.toNat + k)) := by
  have h := r.byte_paint s.litSpace (s.length_litAddrs n) hk
  simp only [State.litAddrs, List.getElem_map, List.getElem_range', Nat.one_mul] at h
  exact h

/-- Settles O30: the eleven forms are one step, whose checks pass; then its effect field by field. -/
theorem altLiteralEffect : Obligations.AltLiteralEffect := by
  intro i z s hform r hopc hflag hsiz hn hlit
  obtain ⟨hx, hy, hrem⟩ := r.endRun_position (b := z.bytes) (f := false) hn
  have hbyte := fun k hk => r.byte_litDone z.bytes (n := s.runSize z) (k := k) hk
  refine ⟨s.litDone (s.runSize z) z.bytes, (exec_alt hform s).trans (r.altStep_literal hflag hsiz hn hlit), rfl, rfl,
    State.opc_next hopc, toNat_ofNat_of_lt (lt_of_le_of_lt hsiz s.plen_lt), rfl,
    toNat_ofNat_of_lt (lt_of_le_of_lt hlit s.seq.litlen.isLt), hrem, hx, hy, fun hm k hk => ?_, fun hm k hk => ?_,
    s.memSameBut_paint s.litSpace (s.litAddrs (s.runSize z)) (s.runSize z)⟩
  · simpa [State.litSpace, State.litAddr, hm, Nat.add_assoc] using hbyte k hk
  · simpa [State.litSpace, State.litAddr, hm] using hbyte k hk

end Sys2Proof.Machine
end

section
/-! SUPPORT. OSD: its initial step as numbers, its step as the chain of checks of R155, and what each entry kind does. -/

namespace Sys2Proof.Machine

/-! ### The initial step (R141) -/

/-- `SENT` is 9 bits wide, so the sum is exact (R141, R154). -/
theorem State.osdInit_sent_toNat (s : State) : s.osdInit.osd.sent.toNat = s.osdInit.osd.n.toNat + sentBias := by
  have hn := (s.byte .pmem s.seq.huf.toNat).isLt
  exact toNat_ofNat_of_lt (by simp only [sentBias]; omega)

/-- The first bit stands after the table, and `BITPOS` has room for its number (R141). -/
theorem State.osdInit_bitpos_toNat (s : State) :
    s.osdInit.osd.bitpos.toNat = 8 * (s.seq.huf.toNat + 1 + 2 * s.osdInit.osd.n.toNat) := by
  have hhuf := s.seq.huf.isLt
  have hn := (s.byte .pmem s.seq.huf.toNat).isLt
  exact toNat_ofNat_of_lt (by omega)

/-- Settles O11: a START that reaches the OSD phase ends with OSD's initial step, and the clearing before it leaves PMEM. -/
theorem osdInitialStep : Obligations.OsdInitialStep := by
  intro s t v hi hv e hp
  obtain rfl := eq_start_of_hostMove hi hv e
  obtain ⟨-, -, hstart⟩ := State.start_of_busy ((State.busy_iff _).2 (by rw [hp]; decide))
  rw [hstart]
  exact ⟨s.byte_startReady s.cur_ne_pmem.symm _, State.osdInit_sent_toNat _, rfl, State.osdInit_bitpos_toNat _, rfl⟩

/-! ### The step and its checks (R142, R155) -/

theorem step_of_fetch_other {s : State} {o : Out} (hin : s.inputs = []) (hf : fetch s = .other o) : step s = o := by
  rw [step_of_no_inputs hin, fdbStep, hf]

theorem fetch_osd {s : State} (hp : s.seq.phase = .osd) (hu : s.seq.unitDone = false) : fetch s = fetchOsd s := by
  rw [fetch, hp]
  simp only [hu, Bool.false_eq_true, if_false]

/-- At the end mark OSD ends before it reads a bit (R143). -/
theorem fetchOsd_endMark {s : State} (hn : s.osd.node.toNat = sentBias) : fetchOsd s = .other (.next s.osdEndByMark) :=
  if_pos hn

theorem fetchOsd_bit_outside {s : State} (hn : s.osd.node.toNat ≠ sentBias) (hbit : s.plen ≤ s.osd.bitpos.toNat / 8) :
    fetchOsd s = s.fetchRaise .osdSrcOverrun (s.osd.bitpos.toNat / 8) := by
  rw [fetchOsd, if_neg hn, if_pos hbit]

theorem fetchOsd_bit_inside {s : State} (hplen : s.plen ≤ s.size .pmem) (hn : s.osd.node.toNat ≠ sentBias)
    (hbit : ¬s.plen ≤ s.osd.bitpos.toNat / 8) : fetchOsd s = fetchEntry s := by
  rw [fetchOsd, if_neg hn, if_neg hbit]
  exact State.fetchBytes_of_exist (by simpa using lt_of_not_ge hbit |>.trans_le hplen)

theorem fetchEntry_index_outside {s : State} (hn : nodeBias ≤ s.osd.node.toNat)
    (hi : 2 * s.osd.n.toNat ≤ s.tableIndex) : fetchEntry s = s.fetchRaise .osdTableRange s.tableIndex := by
  rw [fetchEntry, if_neg hn.not_gt, if_pos hi]

theorem fetchEntry_addr_outside {s : State} (hn : nodeBias ≤ s.osd.node.toNat)
    (hi : ¬2 * s.osd.n.toNat ≤ s.tableIndex) (ha : s.plen ≤ s.tableAddr) :
    fetchEntry s = s.fetchRaise .osdSrcOverrun s.tableAddr := by
  rw [fetchEntry, if_neg hn.not_gt, if_neg hi, if_pos ha]

/-- The next bit as a number (R62, R142 line 2). -/
theorem State.nextBit_toNat (s : State) :
    s.nextBit.toNat =
      (s.byte .pmem (s.osd.bitpos.toNat / 8)).toNat / 2 ^ (7 - s.osd.bitpos.toNat % 8) % 2 :=
  Nat.toNat_testBit ..

theorem State.tableIndex_eq (s : State) :
    s.tableIndex = (s.osd.node.toNat - nodeBias) + s.nextBit.toNat * s.osd.n.toNat := by
  rw [State.tableIndex]
  cases s.nextBit <;> simp

theorem decodeTrie_endMark {v : Byte} (h : v.toNat = 0x16) : decodeTrie v = .endMark := by
  rw [decodeTrie, if_neg (by omega), if_pos h]

/-- An OSD step, with the names of the model for its index and its address: the checks of R155, then the entry. -/
theorem step_osd {s : State} (hin : s.inputs = []) (hp : s.seq.phase = .osd) (hu : s.seq.unitDone = false)
    (hplen : s.plen ≤ s.size .pmem) (hnode : sentBias ≤ s.osd.node.toNat) :
    step s =
      if s.osd.node.toNat = sentBias then .next s.osdEndByMark
      else if s.plen ≤ s.osd.bitpos.toNat / 8 then .next (s.raise .osdSrcOverrun (s.osd.bitpos.toNat / 8))
      else if 2 * s.osd.n.toNat ≤ s.tableIndex then .next (s.raise .osdTableRange s.tableIndex)
      else if s.plen ≤ s.tableAddr then .next (s.raise .osdSrcOverrun s.tableAddr)
      else exec (decodeTrie (s.byte .pmem s.tableAddr)) s := by
  have hfetch := fetch_osd hp hu
  have hbias : s.osd.node.toNat ≠ sentBias → nodeBias ≤ s.osd.node.toNat := fun hn => lt_of_le_of_ne hnode hn.symm
  split_ifs with hn hbit hi ha
  · exact step_of_fetch_other hin (hfetch.trans (fetchOsd_endMark hn))
  · exact step_of_fetch_other hin (hfetch.trans (fetchOsd_bit_outside hn hbit))
  · exact step_of_fetch_other hin
      (hfetch.trans ((fetchOsd_bit_inside hplen hn hbit).trans (fetchEntry_index_outside (hbias hn) hi)))
  · exact step_of_fetch_other hin
      (hfetch.trans ((fetchOsd_bit_inside hplen hn hbit).trans (fetchEntry_addr_outside (hbias hn) hi ha)))
  · exact step_of_fetch_run hin (fetch_entry hp hu (hbias hn) (by omega) (by omega) (by omega) (by omega) (by omega))

/-- The entry kinds of R145, each by its instruction. -/
theorem exec_decodeTrie (v : Byte) (s : State) :
    exec (decodeTrie v) s =
      if v.toNat < 0x16 then exec (.leaf v) s
      else if v.toNat = 0x16 then exec .endMark s
      else exec (.node v) s := by
  split_ifs with hleaf hend
  · rw [decodeTrie_of_lt hleaf]
  · rw [decodeTrie_endMark hend]
  · rw [decodeTrie_of_gt (by omega)]

/-- Settles O19: the model's step, with its index and its address written out as R142 gives them. -/
theorem osdStepOrder : Obligations.OsdStepOrder := by
  intro s hin hp hu hplen hnode a b i v
  have hi : s.tableIndex = i := by rw [State.tableIndex_eq, State.nextBit_toNat]; rfl
  have ha : s.tableAddr = s.seq.huf.toNat + 1 + i := congrArg (s.seq.huf.toNat + 1 + ·) hi
  rw [step_osd hin hp hu hplen hnode, exec_decodeTrie, hi, ha]
  rfl

/-! ### The entry kinds (R150 to R152) -/

theorem exec_leaf (v : Byte) (s : State) : exec (.leaf v) s = execLeaf v s := by rfl
theorem exec_endMark (s : State) : exec .endMark s = .next (s.takeBit.walkTo 0x16) := by rfl
theorem exec_node (v : Byte) (s : State) : exec (.node v) s = .next (s.takeBit.walkTo (v.setWidth 9)) := by rfl

theorem State.takeBit_bitpos_toNat {s : State} (h : s.osd.bitpos.toNat + 1 < 2 ^ 35) :
    s.takeBit.osd.bitpos.toNat = s.osd.bitpos.toNat + 1 := toNat_ofNat_of_lt h

theorem State.opcount_emit_of_lt {s : State} (v : Byte) (h : s.opcount + 1 < 2 ^ 32) :
    (s.emit v).opcount = s.opcount + 1 := toNat_ofNat_of_lt h

@[simp] theorem State.emit_byte_opcount (s : State) (v : Byte) : (s.emit v).byte .opbuf s.opcount = v :=
  Mem.byte_write_self ..

/-- Emitting changes no byte but `OPBUF[OPCOUNT]` (R77, R150). -/
theorem State.memSameBut_emit (s : State) (v : Byte) : s.memSameBut (s.emit v) .opbuf [s.opcount] :=
  fun _ _ hout => by
    by_contra hne
    obtain ⟨hsp, ha⟩ := State.emit_writes hne
    exact hout ⟨hsp, by simp [ha]⟩

/-- The cap test after an emitted opcode (R146). -/
def State.capTest (s : State) (last : Bool) : State := if last then s.osdEndByCap else s

theorem State.capTest_eq (s : State) (last : Bool) :
    s.capTest last = { s with
      st := { s.st with osdCap := s.st.osdCap || last }
      seq := { s.seq with unitDone := s.seq.unitDone || last } } := by
  cases last
  · simp [State.capTest]
  · simp [State.capTest, State.osdEndByCap, State.endUnit]

/-- `LEAF v` with a place left in OPBUF (R150). -/
theorem exec_leaf_of_room {s : State} (v : Byte) (h : s.opcount < s.size .opbuf) :
    exec (.leaf v) s = .next ((s.takeBit.emit v).capTest (decide (s.opcount + 1 = s.npix))) := by
  rw [exec_leaf, execLeaf, State.needBytes_of_exist (by simpa using h)]
  simp only [State.capTest, decide_eq_true_eq]

/-- Settles O16: emitting says what is stored and counted; the cap test adds two bits, as `State.capTest_eq` says. -/
theorem leafEffect : Obligations.LeafEffect := by
  intro v s hroom hcount hbit
  refine ⟨_, exec_leaf_of_room v hroom, ?_⟩
  rw [State.capTest_eq]
  exact ⟨s.takeBit.emit_byte_opcount v, s.takeBit.memSameBut_emit v, s.takeBit.opcount_emit_of_lt v hcount,
    State.takeBit_bitpos_toNat hbit, rfl⟩

/-- Settles O17: the walk goes on at the end mark, where the next step ends OSD. -/
theorem endMarkEffect : Obligations.EndMarkEffect := fun s hbit =>
  ⟨s.takeBit.walkTo 0x16, exec_endMark s, State.takeBit_bitpos_toNat hbit, rfl, fun hin hp hu =>
    step_of_fetch_other hin ((fetch_osd hp hu).trans (fetchOsd_endMark rfl))⟩

/-- Settles O18: the entry byte fits the 9 bits of `NODE`. -/
theorem nodeEffect : Obligations.NodeEffect := fun v s hbit =>
  ⟨s.takeBit.walkTo (v.setWidth 9), exec_node v s, BitVec.toNat_setWidth_of_le (by decide),
    State.takeBit_bitpos_toNat hbit, rfl⟩

end Sys2Proof.Machine
end

section
/-! SUPPORT. LZU: the overlapping copy in closed form, what an instruction that passes its checks leaves in the state,
the order of its checks, the family-C abort, and the step. -/

namespace Sys2Proof.Machine

/-! ### `BackCopy` (R166) -/

theorem byte_backCopy_outside (dist run p : Nat) (lz : Mem) {a : Nat} (h : a < p ∨ p + run ≤ a) :
    (backCopy dist run p lz).byte .lzbuf a = lz.byte .lzbuf a :=
  Mem.byte_congr .lzbuf (backCopy_gen ..) (get?_backCopy_outside dist run p lz h)

/-- Each byte of the copy is the byte `dist` behind it as this very copy leaves it: no byte changes once read. -/
theorem byte_backCopy_eq_behind {dist : Nat} (hd : 1 ≤ dist) :
    ∀ {run p j : Nat} (lz : Mem), dist ≤ p → j < run →
      (backCopy dist run p lz).byte .lzbuf (p + j) = (backCopy dist run p lz).byte .lzbuf (p + j - dist) := by
  intro run
  induction run with
  | zero => intro p j lz _ hj; omega
  | succ run ih =>
    intro p j lz hp hj
    rw [backCopy]
    cases j with
    | zero =>
      rw [byte_backCopy_outside _ _ _ _ (.inl (by omega)), byte_backCopy_outside _ _ _ _ (.inl (by omega)),
        Nat.add_zero, Mem.byte_write_self, Mem.byte_write_ne _ _ _ (by omega)]
    | succ j =>
      rw [← Nat.add_assoc, Nat.add_right_comm]
      exact ih _ (by omega) (by omega)

/-- The copy repeats the `dist` bytes before it: going back by `dist` steps into them and keeps `j mod dist`. -/
theorem byte_backCopy_periodic {dist run p : Nat} (lz : Mem) (hd : 1 ≤ dist) (hp : dist ≤ p) (j : Nat)
    (hj : j < run) :
    (backCopy dist run p lz).byte .lzbuf (p + j) = lz.byte .lzbuf (p - dist + j % dist) := by
  induction j using Nat.strong_induction_on with
  | _ j ih =>
    rw [byte_backCopy_eq_behind hd lz hp hj]
    rcases Nat.lt_or_ge j dist with hlt | hge
    · rw [byte_backCopy_outside _ _ _ _ (.inl (by omega)), Nat.mod_eq_of_lt hlt, Nat.sub_add_comm hp]
    · rw [Nat.add_sub_assoc hge, ih (j - dist) (by omega) (by omega), ← Nat.mod_eq_sub_mod hge]

/-- Settles O22: inside by `byte_backCopy_periodic`, outside by `byte_backCopy_outside`. -/
theorem backCopyPeriodic : Obligations.BackCopyPeriodic := fun dist run p m hd hp =>
  ⟨byte_backCopy_periodic m hd hp, fun _ => byte_backCopy_outside dist run p m⟩

/-! ### The copies of an instruction (R164 to R166) -/

/-- The literal run stays as it was copied: the back-reference writes after it. -/
theorem State.byte_lzCopies_literal (s : State) (a lit : Nat) (b : Option BackRef) {j : Nat} (hj : j < lit) :
    (s.lzCopies a lit b).byte .lzbuf (s.lzcount + j) = s.byte .pmem (a + j) := by
  have hlit : (litCopy s.mem.pmem lit a s.lzcount s.mem.lzbuf).get? (s.lzcount + j) = some (s.byte .pmem (a + j)) := by
    rw [get?_litCopy, if_pos (by omega), Nat.add_sub_cancel_left]
    rfl
  refine Mem.byte_of_get? ?_
  cases b with
  | none => exact hlit
  | some b => exact (get?_backCopy_outside _ _ _ _ (.inl (by omega))).trans hlit

theorem State.byte_lzCopies_back (s : State) (a lit : Nat) {b : BackRef} (hd : 1 ≤ b.dist)
    (hp : b.dist ≤ s.lzcount + lit) {j : Nat} (hj : j < b.run) :
    (s.lzCopies a lit (some b)).byte .lzbuf (s.lzcount + lit + j) =
      (s.lzCopies a lit (some b)).byte .lzbuf (s.lzcount + lit + j - b.dist) :=
  byte_backCopy_eq_behind hd _ hp hj

/-- The copies change no byte but those of their run (R77). -/
theorem State.memSameBut_lzCopies (s : State) (a lit : Nat) (b : Option BackRef) :
    s.memSameBut (s.lzCopies a lit b) .lzbuf (List.range' s.lzcount (lit + backRun b)) := fun _ _ hout => by
  by_contra hne
  obtain ⟨hsp, hlo, hhi⟩ := State.lzCopies_writes hne
  exact hout ⟨hsp, List.mem_range'_1.2 ⟨hlo, by omega⟩⟩

/-- The end of an instruction moves registers and status bits only. -/
@[simp] theorem State.lzDone_byte (s : State) (k lit : Nat) (b : Option BackRef) (term : Bool) :
    (s.lzDone k lit b term).byte = (s.lzCopies (s.lzu.src.toNat + 1 + k) lit b).byte := by cases term <;> rfl

theorem State.lzDone_src_toNat {s : State} {k lit : Nat} (b : Option BackRef) (term : Bool)
    (src : s.lzu.src.toNat + 1 + k + lit ≤ s.plen) :
    (s.lzDone k lit b term).lzu.src.toNat = s.lzu.src.toNat + 1 + k + lit := by
  have hsrc : (s.lzDone k lit b term).lzu.src = BitVec.ofNat 32 (s.lzu.src.toNat + 1 + k + lit) := by
    cases term <;> simp [State.lzDone]
  rw [hsrc, toNat_ofNat_of_lt (lt_of_le_of_lt src s.plen_lt)]

theorem State.memSameBut_lzDone (s : State) (k lit : Nat) (b : Option BackRef) (term : Bool) :
    s.memSameBut (s.lzDone k lit b term) .lzbuf (List.range' s.lzcount (lit + backRun b)) := by
  rw [State.memSameBut, State.lzDone_byte]
  exact s.memSameBut_lzCopies _ lit b

/-! ### The checks of an instruction (R164, R167, R179) -/

theorem lzBody_src_outside {k lit : Nat} {s : State} (back : Option BackRef) (term : Bool)
    (h : s.plen < s.lzu.src.toNat + 1 + k + lit) :
    lzBody k lit back term s = .next (s.raise .lzSrcOverrun s.lzu.src.toNat) := if_pos h

theorem lzBody_back_tooFar {k lit : Nat} {s : State} {b : BackRef} (term : Bool)
    (src : s.lzu.src.toNat + 1 + k + lit ≤ s.plen) (h : s.lzcount + lit < b.dist) :
    lzBody k lit (some b) term s = .next (s.raise .lzBackrefRange s.lzu.src.toNat) := by
  rw [lzBody, if_neg src.not_gt]
  exact if_pos (decide_eq_true h)

/-- Both checks pass, and LZBUF's padding takes what is written past the last pixel (R47, R169). -/
theorem State.Geometry.lzBody_done {s : State} (g : s.Geometry) {k lit : Nat} {back : Option BackRef} (term : Bool)
    (src : s.lzu.src.toNat + 1 + k + lit ≤ s.plen) (range : s.backTooFar lit back = false)
    (fits : s.lzcount + lit + backRun back ≤ s.npix + 111) :
    lzBody k lit back term s = .next (s.lzDone k lit back term) :=
  Machine.lzBody_done src range g.plen_le_size (by have := g.npix_le_lzbuf; omega)

theorem State.backTooFar_some_eq_false {s : State} {lit : Nat} {b : BackRef} (h : b.dist ≤ s.lzcount + lit) :
    s.backTooFar lit (some b) = false := decide_eq_false h.not_gt

/-! ### The forms with a back-reference (R168 to R172) -/

/-- An `LZC` within the capacity goes on as families A and B do (R172). -/
theorem exec_lzc_of_fits {d : BitVec 1} {r l : BitVec 2} {o1 o2 o3 : Byte} {s : State}
    (fits : s.lzcount + lzcLit l + (lzcBack d r o1 o2 o3).run ≤ s.npix) :
    exec (.lzc d r l o1 o2 o3) s = lzBody 3 (lzcLit l) (some (lzcBack d r o1 o2 o3)) false s := if_neg fits.not_gt

/-- An `LZC` beyond the capacity aborts before any other check (R172, R179). -/
theorem exec_lzc_of_exceeds {d : BitVec 1} {r l : BitVec 2} {o1 o2 o3 : Byte} {s : State}
    (h : s.npix < s.lzcount + lzcLit l + (lzcBack d r o1 o2 o3).run) :
    exec (.lzc d r l o1 o2 o3) s = lzAbort 3 (lzcLit l) s := if_pos h

/-- The three forms are one body, `LZC` where it does not abort. -/
theorem LzBackForm.exec_eq {i : Instr} {k lit : Nat} {b : BackRef} {s : State} (h : LzBackForm i k lit b)
    (fits : ∀ d r l o1 o2 o3, i = .lzc d r l o1 o2 o3 → s.lzcount + lit + b.run ≤ s.npix) :
    exec i s = lzBody k lit (some b) false s := by
  cases h with
  | a | b => rfl
  | c d r l o1 o2 o3 => exact exec_lzc_of_fits (fits d r l o1 o2 o3 rfl)

/-- Every distance formula adds 1 (R167). -/
theorem LzBackForm.one_le_dist {i : Instr} {k lit : Nat} {b : BackRef} (h : LzBackForm i k lit b) : 1 ≤ b.dist := by
  cases h <;> exact Nat.le_add_left ..

/-- Families A and B write at most 70 bytes, family C stays within `NPIX` (R169, R172). -/
theorem LzBackForm.fits_lzbuf {i : Instr} {k lit : Nat} {b : BackRef} {s : State} (h : LzBackForm i k lit b)
    (room : s.lzcount < s.npix)
    (fits : ∀ d r l o1 o2 o3, i = .lzc d r l o1 o2 o3 → s.lzcount + lit + b.run ≤ s.npix) :
    s.lzcount + lit + b.run ≤ s.npix + 111 := by
  cases h with
  | a d r l o1 =>
    obtain ⟨_, _, _, hrun⟩ := lzaBack_range d r o1
    simp only [lzaLit]; omega
  | b r o1 o2 =>
    obtain ⟨_, _, _, hrun⟩ := lzbBack_range r o1 o2
    simp only [lzbLit]; omega
  | c d r l o1 o2 o3 => exact (fits d r l o1 o2 o3 rfl).trans (Nat.le_add_right ..)

/-- Settles O21: the three forms are one body whose checks pass; then its effect, field by field. -/
theorem lzBackReferenceEffect : Obligations.LzBackReferenceEffect := by
  intro i k lit b s form g room src range fits
  have hfit := form.fits_lzbuf room fits
  refine ⟨s.lzDone k lit (some b) false,
    (form.exec_eq fits).trans (g.lzBody_done false src (State.backTooFar_some_eq_false range) hfit),
    State.lzcount_lzDone k lit (some b) false hfit, State.lzDone_src_toNat _ _ src, fun j hj => ?_, fun j hj => ?_,
    s.memSameBut_lzDone k lit (some b) false, rfl⟩
  · rw [State.lzDone_byte]
    exact s.byte_lzCopies_literal _ lit _ hj
  · rw [State.lzDone_byte]
    exact s.byte_lzCopies_back _ lit form.one_le_dist range hj

/-! ### The forms without (R174, R176) -/

theorem exec_lzlit (n : BitVec 5) (s : State) : exec (.lzlit n) s = lzBody 0 (4 * n.toNat + 4) none false s := by
  rw [Nat.mul_comm 4]; rfl

theorem exec_lzend (l : BitVec 2) (s : State) : exec (.lzend l) s = lzBody 0 l.toNat none true s := by rfl

/-- Settles O23: both forms are the body without a back-reference, whose one check passes. -/
theorem lzLiteralEffect : Obligations.LzLiteralEffect := by
  intro s g room
  refine ⟨fun n hn src => ?_, fun l src => ?_⟩
  · have hfit : s.lzcount + (4 * n.toNat + 4) + backRun none ≤ s.npix + 111 := by simp only [backRun]; omega
    exact ⟨s.lzDone 0 (4 * n.toNat + 4) none false, (exec_lzlit n s).trans (g.lzBody_done false src rfl hfit),
      State.lzcount_lzDone _ _ none _ hfit, State.lzDone_src_toNat none _ src,
      fun j hj => s.byte_lzCopies_literal _ _ none hj, s.memSameBut_lzDone 0 _ none false, rfl⟩
  · have hfit : s.lzcount + l.toNat + backRun none ≤ s.npix + 111 := by simp only [backRun]; omega
    exact ⟨s.lzDone 0 l.toNat none true, (exec_lzend l s).trans (g.lzBody_done true src rfl hfit),
      State.lzcount_lzDone _ _ none _ hfit, State.lzDone_src_toNat none _ src,
      fun j hj => s.byte_lzCopies_literal _ _ none hj, s.memSameBut_lzDone 0 _ none true, rfl⟩

/-- Settles O25: the checks of the one body, in its order. -/
theorem lzFaultOrder : Obligations.LzFaultOrder := by
  refine ⟨fun i k lit b s form fits => ?_, fun n s src => ?_, fun l s src => ?_⟩
  · rw [form.exec_eq fits]
    exact ⟨lzBody_src_outside _ _, lzBody_back_tooFar false⟩
  · exact (exec_lzlit n s).trans (lzBody_src_outside none false src)
  · exact (exec_lzend l s).trans (lzBody_src_outside none true src)

/-! ### The family-C abort (R164, R172) -/

theorem lzAbort_of_off {k lit : Nat} {s : State} (hoff : s.cfg.lzcAbortAfterLiteral = false) :
    lzAbort k lit s = .next s.lzEndTrunc := by
  rw [lzAbort, hoff]; rfl

theorem lzAbort_of_on_src_outside {k lit : Nat} {s : State} (hon : s.cfg.lzcAbortAfterLiteral = true)
    (h : s.plen < s.lzu.src.toNat + 1 + k + lit) :
    lzAbort k lit s = .next (s.raise .lzSrcOverrun s.lzu.src.toNat) := by
  rw [lzAbort, if_pos hon, if_pos h]

theorem State.needBytes_range' {s : State} {sp : Space} {a n : Nat} {k : Out} (h : a + n ≤ s.size sp) :
    s.needBytes sp (List.range' a n) k = k :=
  State.needBytes_of_exist fun _ ha => (List.mem_range'_1.1 ha).2.trans_le h

theorem State.Geometry.lzAbort_of_on {s : State} (g : s.Geometry) {k lit : Nat}
    (hon : s.cfg.lzcAbortAfterLiteral = true) (src : s.lzu.src.toNat + 1 + k + lit ≤ s.plen)
    (fits : s.lzcount + lit ≤ s.npix + 111) :
    lzAbort k lit s = .next (s.lzCopies (s.lzu.src.toNat + 1 + k) lit none).lzEndTrunc := by
  have hlzbuf := g.npix_le_lzbuf
  rw [lzAbort, if_pos hon, if_neg src.not_gt, State.needBytes_range' (src.trans g.plen_le_size),
    State.needBytes_range' (by omega)]

/-- Settles O24: an abort with the parameter off, and with it on, its literal bytes missing or copied. -/
theorem lzcAbort : Obligations.LzcAbort := by
  intro d r l o1 o2 o3 s g room exceeds
  have habort := exec_lzc_of_exceeds exceeds
  have hfit : s.lzcount + lzcLit l + backRun none ≤ s.npix + 111 := by simp only [lzcLit, backRun]; omega
  refine ⟨fun hoff => habort.trans (lzAbort_of_off hoff), fun hon src => ?_, fun hon src => ?_⟩
  · exact habort.trans (lzAbort_of_on_src_outside hon (by omega))
  · exact ⟨(s.lzCopies (s.lzu.src.toNat + 1 + 3) (lzcLit l) none).lzEndTrunc,
      habort.trans (g.lzAbort_of_on hon (by omega) hfit), State.lzcount_lzCopies (s.lzu.src.toNat + 1 + 3) _ none hfit,
      fun j hj => s.byte_lzCopies_literal _ _ none hj, s.memSameBut_lzCopies _ _ none, rfl⟩

/-! ### The step (R162, R163, R179) -/

theorem fetch_lzu {s : State} (hp : s.seq.phase = .lzu) (hu : s.seq.unitDone = false) : fetch s = fetchLzu s := by
  rw [fetch, hp]
  simp only [hu, Bool.false_eq_true, if_false]

/-- A full destination ends LZU before anything is fetched (R162). -/
theorem fetchLzu_full {s : State} (h : s.npix ≤ s.lzcount) : fetchLzu s = .other (.next s.lzEndFull) := if_pos h

theorem fetchLzu_control_outside {s : State} (room : ¬s.npix ≤ s.lzcount) (h : s.plen ≤ s.lzu.src.toNat) :
    fetchLzu s = s.fetchRaise .lzSrcOverrun s.lzu.src.toNat := by
  rw [fetchLzu, if_neg room, if_pos h]

theorem fetchLzu_operands_outside {s : State} (hplen : s.plen ≤ s.size .pmem) (room : ¬s.npix ≤ s.lzcount)
    (hc : ¬s.plen ≤ s.lzu.src.toNat) (h : s.plen < s.lzu.src.toNat + 1 + lzOperandBytes (lzForm s.ctrlByte)) :
    fetchLzu s = s.fetchRaise .lzSrcOverrun s.lzu.src.toNat := by
  rw [fetchLzu, if_neg room, if_neg hc, if_pos h]
  exact State.fetchBytes_of_exist (by simp only [List.mem_singleton, forall_eq]; omega)

/-- An LZU step: the loop head and the checks of R163, then the instruction at `SRC`. -/
theorem step_lzu {s : State} (hin : s.inputs = []) (hp : s.seq.phase = .lzu) (hu : s.seq.unitDone = false)
    (hplen : s.plen ≤ s.size .pmem) :
    step s =
      if s.npix ≤ s.lzcount then .next s.lzEndFull
      else if s.plen ≤ s.lzu.src.toNat then .next (s.raise .lzSrcOverrun s.lzu.src.toNat)
      else if s.plen < s.lzu.src.toNat + 1 + lzOperandBytes (lzForm s.ctrlByte) then
        .next (s.raise .lzSrcOverrun s.lzu.src.toNat)
      else exec s.lzInstr s := by
  have hfetch := fetch_lzu hp hu
  split_ifs with hfull hc ho
  · exact step_of_fetch_other hin (hfetch.trans (fetchLzu_full hfull))
  · exact step_of_fetch_other hin (hfetch.trans (fetchLzu_control_outside hfull hc))
  · exact step_of_fetch_other hin (hfetch.trans (fetchLzu_operands_outside hplen hfull hc ho))
  · exact step_of_fetch_run hin (fetch_lzInstr hp hu (by omega) (by omega) (by omega))

/-- Settles O20: the model's step, with its control and operand bytes written out as R163 reads them. -/
theorem lzFetchOrder : Obligations.LzFetchOrder := fun _ hin hp hu hplen => step_lzu hin hp hu hplen

/-! ### How far a step fills the destination (R169, R172) -/

/-- With the default parameter family C never writes past `NPIX`: it aborts, faults, or fits (R172). -/
theorem exec_lzc_lzcount_le {d : BitVec 1} {r l : BitVec 2} {o1 o2 o3 : Byte} {s t : State}
    (hoff : s.cfg.lzcAbortAfterLiteral = false) (room : s.lzcount < s.npix)
    (h : exec (.lzc d r l o1 o2 o3) s = .next t) : t.lzcount ≤ s.npix := by
  rcases Nat.lt_or_ge s.npix (s.lzcount + lzcLit l + (lzcBack d r o1 o2 o3).run) with exceeds | fits
  · rw [exec_lzc_of_exceeds exceeds, lzAbort_of_off hoff] at h
    cases h
    exact room.le
  · rw [exec_lzc_of_fits fits] at h
    rcases lzBody_next h with ⟨_, rfl⟩ | ⟨_, _, rfl⟩ | ⟨_, _, rfl⟩
    · exact room.le
    · exact room.le
    · have hcount := State.lzcount_lzDone 3 (lzcLit l) (some (lzcBack d r o1 o2 o3)) false
        (fits.trans (Nat.le_add_right s.npix 111))
      exact hcount.trans_le fits

/-- Settles O26: the bound of every move, and for family C the instruction that `step_lzu` reaches. -/
theorem lzOvershoot : Obligations.LzOvershoot := by
  intro s t g hin hp hu room e
  have m := fdbStep_move ((step_of_no_inputs hin).symm.trans e)
  refine ⟨m.sameSetup.npix_eq ▸ m.lzcount_le (by omega), fun hoff hform => ?_⟩
  have hi : s.lzInstr = .lzc _ _ _ _ _ _ := decodeLz_of_form_c hform ..
  rw [step_lzu hin hp hu g.plen_le_size, if_neg room.not_ge] at e
  split_ifs at e
  · cases e; exact room.le
  · cases e; exact room.le
  · rw [hi] at e
    exact exec_lzc_lzcount_le hoff room e

end Sys2Proof.Machine
end

section
/-! SUPPORT. FRP's opcodes: the loop head, the run size of each opcode, the order of the checks of a run opcode, and what a
run of `PREV`'s pixels, a run of size 0 and the completion of a frame do. -/

namespace Sys2Proof.Machine

/-! ### The loop head and `FLIP` (R191, R201, R223) -/

theorem exec_flip (s : State) : exec .flip s = .next s.flipDone := by rfl

/-- Settles O27: `flipDone` is the state the statement names, and `OPC` does not overflow below `OPCOUNT`. -/
theorem flipEffect : Obligations.FlipEffect := fun s hopc => ⟨s.flipDone, exec_flip s, State.opc_next hopc, rfl⟩

/-- A step in the FRP phase is the answer of FRP's fetch. -/
theorem fetch_frp {s : State} (hp : s.seq.phase = .frp) : fetch s = fetchFrp s := by
  rw [fetch, hp]

/-- With a pixel left to paint and no opcode left FRP faults (R191). -/
theorem fetchFrp_underrun {s : State} (hr : s.frp.rem.toNat ≠ 0) (ho : s.opcount ≤ s.frp.opc.toNat) :
    fetchFrp s = .other (.next (s.raise .frpOpcUnderrun s.frp.opc.toNat)) :=
  (if_neg hr).trans (if_pos ho)

/-- The entries `22..255` are no opcodes (R105). -/
theorem decodeOp_eq_none {b : Byte} (h : 22 ≤ b.toNat) : decodeOp b = none := by
  rw [Option.eq_none_iff_forall_ne_some]
  intro i hi
  exact absurd (exists_decodeOp_iff.1 ⟨i, hi⟩) (by omega)

/-- An OPBUF entry that is no opcode faults (R223). -/
theorem fetchFrp_badOpcode {s : State} (hr : s.frp.rem.toNat ≠ 0) (ho : s.frp.opc.toNat < s.opcount)
    (hsize : s.frp.opc.toNat < s.size .opbuf) (hb : 22 ≤ (s.byte .opbuf s.frp.opc.toNat).toNat) :
    fetchFrp s = .other (.next (s.raise .frpBadOpcode s.frp.opc.toNat)) := by
  rw [fetchFrp, if_neg hr, if_neg (by omega), State.fetchBytes_of_exist (by simpa using hsize), decodeOp_eq_none hb]
  rfl

/-- Settles O28: the four answers of FRP's fetch, in the order of its tests. -/
theorem frpFetchOrder : Obligations.FrpFetchOrder := by
  intro s hin hp hroom
  have hfetch := fetch_frp hp
  refine ⟨step_complete hin hp, fun hr ho => ?_, fun hr ho hbad => ?_, fun hr ho hop => ?_⟩
  · exact step_of_fetch_other hin (hfetch.trans (fetchFrp_underrun hr ho))
  · exact step_of_fetch_other hin (hfetch.trans (fetchFrp_badOpcode hr ho (by omega) hbad))
  · obtain ⟨i, hd⟩ := exists_decodeOp_iff.2 hop
    obtain ⟨_, _, henc⟩ := decodeOp_encode hd
    exact ⟨i, hd, henc, step_of_fetch_run hin (fetch_opcode ⟨hp, hr, ho⟩ (by omega) hd)⟩

/-! ### Run sizes (R105, R106, R192) -/

/-- Where opcode number `op` of `1..21` takes its run size from, as R192 lists it. -/
def opcodeSize (op : Nat) : SizeSrc :=
  if op ≤ 8 then .imm op
  else if 12 ≤ op ∧ op ≤ 18 then .imm (op - 10)
  else if op = 9 ∨ op = 19 then .size8
  else if op = 10 ∨ op = 20 then .size16
  else .size24

/-- The spec's table of forms gives each instruction the size source of its opcode byte (R105). -/
theorem opcodeSize_of_form {op : Byte} {i : Instr} {z : SizeSrc} (hd : decodeOp op = some i)
    (hform : (i, z) ∈ altForms ++ mvForms) : z = opcodeSize op.toNat := by
  have table : ∀ p ∈ altForms ++ mvForms, (encode p.1).map (fun b => opcodeSize b.toNat) = [p.2] := by decide
  obtain ⟨_, _, henc⟩ := decodeOp_encode hd
  have hz := table _ hform
  rw [henc] at hz
  exact (List.singleton_inj.1 hz).symm

/-- How many size bytes an opcode takes (R106). -/
theorem bytes_opcodeSize : ∀ op < 22, (opcodeSize op).bytes =
    if op = 9 ∨ op = 19 then 1 else if op = 10 ∨ op = 20 then 2 else if op = 11 ∨ op = 21 then 3 else 0 := by
  decide

/-- Settles O29: the run size branch by branch of `opcodeSize`, and its byte count. -/
theorem runSizes : Obligations.RunSizes := by
  intro op i z s hd hform b
  obtain rfl := opcodeSize_of_form hd hform
  refine ⟨?_, bytes_opcodeSize _ (exists_decodeOp_iff.1 ⟨i, hd⟩)⟩
  simp only [opcodeSize, apply_ite s.runSize]
  rfl

/-! ### The order of the checks of a run opcode (R193 to R198, R200) -/

/-- Steps (4) and (5) of R200: the size bytes, then the run size against `REM`. -/
theorem withRunSize_eq {z : SizeSrc} {s : State} (k : Nat → Out) (hp : s.plen ≤ s.size .pmem) (hw : 1 ≤ s.w) :
    withRunSize z s k =
      if 0 < z.bytes ∧ s.plen < s.frp.siz.toNat + z.bytes then .next (s.raise .frpSizOverrun s.frp.opc.toNat)
      else if s.frp.rem.toNat < s.runSize z then .next (s.raise .frpRunOverflow s.frp.opc.toNat)
      else k (s.runSize z) := by
  unfold withRunSize
  split
  · rfl
  · rename_i hsiz
    rw [State.needBytes_of_exist, if_neg (show s.w ≠ 0 by omega)]
    · rfl
    · intro a ha
      rw [List.mem_range'_1] at ha
      omega

/-- The size bytes run past the payload (R193). -/
theorem withRunSize_sizOverrun {z : SizeSrc} {s : State} (k : Nat → Out) (hz : 0 < z.bytes)
    (hsiz : s.plen < s.frp.siz.toNat + z.bytes) :
    withRunSize z s k = .next (s.raise .frpSizOverrun s.frp.opc.toNat) := if_pos ⟨hz, hsiz⟩

/-- The run is longer than the rest of the frame (R194). -/
theorem withRunSize_runOverflow {z : SizeSrc} {s : State} (k : Nat → Out) (hp : s.plen ≤ s.size .pmem) (hw : 1 ≤ s.w)
    (hsiz : 0 < z.bytes → s.frp.siz.toNat + z.bytes ≤ s.plen) (hn : s.frp.rem.toNat < s.runSize z) :
    withRunSize z s k = .next (s.raise .frpRunOverflow s.frp.opc.toNat) := by
  rw [withRunSize_eq k hp hw, if_neg (by omega), if_pos hn]

/-- Both size checks pass, so the opcode goes on with its size. -/
theorem withRunSize_passes {z : SizeSrc} {s : State} (k : Nat → Out) (hp : s.plen ≤ s.size .pmem) (hw : 1 ≤ s.w)
    (hsiz : 0 < z.bytes → s.frp.siz.toNat + z.bytes ≤ s.plen) (hn : s.runSize z ≤ s.frp.rem.toNat) :
    withRunSize z s k = k (s.runSize z) := by
  rw [withRunSize_eq k hp hw, if_neg (by omega), if_neg (by omega)]

/-- A run of at least one pixel of a previous frame that is not there (R196). -/
theorem altPrev_noPrev {n b : Nat} {s : State} (hpos : 1 ≤ n) (hinvalid : s.st.prevValid = false) :
    altPrev n b s = .next (s.raise .frpNoPrev s.frp.opc.toNat) := if_pos ⟨hpos, hinvalid⟩

/-- A literal run past the end of the literal bytes (R195). -/
theorem altLiteral_litOverrun {n b : Nat} {s : State} (hlit : s.seq.litlen.toNat < s.frp.lit.toNat + n) :
    altLiteral n b s = .next (s.raise .frpLitOverrun s.frp.opc.toNat) := if_pos hlit

/-- Settles O34: the size checks are those of every run opcode; then the new flag chooses the third check. -/
theorem altFaultOrder : Obligations.AltFaultOrder := by
  intro i z s hform hp hw f
  rw [exec_alt hform]
  refine ⟨withRunSize_sizOverrun _, fun hsiz => ⟨withRunSize_runOverflow _ hp hw hsiz, fun hn => ?_⟩⟩
  rw [altStep, withRunSize_passes _ hp hw hsiz hn]
  refine ⟨fun hflag hpos hinvalid => ?_, fun hflag hlit => ?_⟩
  · rw [hflag]
    exact altPrev_noPrev hpos hinvalid
  · rw [hflag]
    exact altLiteral_litOverrun hlit

/-- The motion check as R198 states it. -/
theorem State.motionInside_iff {s : State} {n : Nat} {dx dy : Int} : s.motionInside n dx dy = true ↔
    0 ≤ (s.frp.x.toNat : Int) + dx ∧ (s.frp.x.toNat : Int) + dx < s.w ∧
      0 ≤ (s.frp.y.toNat : Int) + dy ∧ (s.frp.y.toNat : Int) + dy < s.h ∧
      ((s.frp.y.toNat : Int) + dy) * s.w + ((s.frp.x.toNat : Int) + dx) + n ≤ (s.w : Int) * s.h := by
  simp only [State.motionInside, Bool.and_eq_true, decide_eq_true_eq, Nat.cast_mul, and_assoc]

/-- A displaced run of at least one pixel of a previous frame that is not there (R198). -/
theorem mvVector_noPrev {n b : Nat} {v : Byte} {s : State} (hpos : 1 ≤ n) (hinvalid : s.st.prevValid = false) :
    mvVector n b v s = .next (s.raise .frpNoPrev s.frp.opc.toNat) := if_pos ⟨hpos, hinvalid⟩

/-- A displaced run of at least one pixel that leaves the frame (R198). -/
theorem mvVector_motionRange {n b : Nat} {v : Byte} {s : State} (hpos : 1 ≤ n) (hvalid : s.st.prevValid = true)
    (hout : s.motionInside n (vecDx v) (vecDy v) = false) :
    mvVector n b v s = .next (s.raise .frpMotionRange s.frp.opc.toNat) := by
  rw [mvVector, if_neg (by simp [hvalid])]
  exact if_pos ⟨hpos, hout⟩

/-- An opcode `12..21` whose size passes goes on with its vector byte (R198). -/
theorem mvStep_passes {z : SizeSrc} {s : State} (hp : s.plen ≤ s.size .pmem) (hw : 1 ≤ s.w)
    (hsiz : 0 < z.bytes → s.frp.siz.toNat + z.bytes ≤ s.plen) (hn : s.runSize z ≤ s.frp.rem.toNat) :
    mvStep z s =
      if s.plen ≤ s.frp.vec.toNat then .next (s.raise .frpVecOverrun s.frp.opc.toNat)
      else mvVector (s.runSize z) z.bytes (s.byte .pmem s.frp.vec.toNat) s := by
  rw [mvStep, withRunSize_passes _ hp hw hsiz hn]
  split
  · rfl
  · refine State.needBytes_of_exist ?_
    simp only [List.mem_singleton, forall_eq]
    omega

/-- Settles O35: the size checks, the vector byte, then the two checks of `mvVector`. -/
theorem mvFaultOrder : Obligations.MvFaultOrder := by
  intro i z s hform hp hw f v rx ry
  rw [exec_mv hform]
  refine ⟨withRunSize_sizOverrun _, fun hsiz => ⟨withRunSize_runOverflow _ hp hw hsiz, fun hn => ?_⟩⟩
  rw [mvStep_passes hp hw hsiz hn]
  refine ⟨fun hvec => if_pos hvec, fun hvec hpos => ?_⟩
  rw [if_neg (by omega)]
  refine ⟨mvVector_noPrev hpos, fun hvalid hout => mvVector_motionRange hpos hvalid ?_⟩
  rw [← Bool.not_eq_true, State.motionInside_iff]
  exact hout

/-! ### Raster order and the reads of `PREV` (R71, R197, R198) -/

/-- Settles O37: the walk's closed form, read at place `k`. -/
theorem rasterOrder : Obligations.RasterOrder := by
  intro w stride n c r k hc hk
  rw [pixelAddrs_eq_map hc, List.getElem?_map, List.getElem?_range' hk, Nat.one_mul]
  rfl

/-- Settles O38: the pixels read are numbered below `NPIX`, so their rows are below `H`. -/
theorem motionReadsInsideFrame : Obligations.MotionReadsInsideFrame := by
  intro s n dx dy hmotion a ha
  obtain ⟨hcol, hend⟩ := State.motionInside_position hmotion
  obtain ⟨k, _, hk, rfl⟩ := (mem_pixelAddrs hcol).1 ha
  have hpix : k < s.w * s.h := lt_of_lt_of_le hk hend
  exact ⟨k / s.w, k % s.w, Nat.div_lt_of_lt_mul hpix, Nat.mod_lt k (by omega), rfl⟩

/-- A displaced run reads the pixels from the displaced position on, in order (R197). -/
theorem State.prevAddrs_eq_map {s : State} {dx dy : Int} (hcol : ((s.frp.x.toNat : Int) + dx).toNat < s.w) (n : Nat) :
    s.prevAddrs n dx dy = (List.range'
      (((s.frp.y.toNat : Int) + dy).toNat * s.w + ((s.frp.x.toNat : Int) + dx).toNat) n).map s.pixelIndex :=
  pixelAddrs_eq_map hcol

/-- Pixel `k` of a run from `PREV` takes `PREV`'s pixel `k` places after the displaced position (R197). -/
theorem State.FrpReady.byte_prevDone {s : State} (r : s.FrpReady) (b : Nat) {n k : Nat} {dx dy : Int} (flag : Bool)
    (hcol : ((s.frp.x.toNat : Int) + dx).toNat < s.w) (hk : k < n) :
    (s.prevDone n b dx dy flag).byte s.cur (s.pixelIndex (s.paintedCount + k)) =
      s.byte s.prev (s.pixelIndex
        (((s.frp.y.toNat : Int) + dy).toNat * s.w + ((s.frp.x.toNat : Int) + dx).toNat + k)) := by
  refine (r.byte_paint s.prev (s.length_prevAddrs n dx dy) hk).trans ?_
  simp only [State.prevAddrs_eq_map hcol, List.getElem_map, List.getElem_range', Nat.one_mul]

/-- A run of the previous frame whose checks pass (R193 to R196). -/
theorem State.FrpReady.altStep_prev {s : State} (r : s.FrpReady) {z : SizeSrc} (hf : s.frp.flag = false)
    (hsiz : s.frp.siz.toNat + z.bytes ≤ s.plen) (hn : s.runSize z ≤ s.frp.rem.toNat)
    (hvalid : 1 ≤ s.runSize z → s.st.prevValid = true) :
    altStep z s = .next (s.prevDone (s.runSize z) z.bytes 0 0 true) := by
  rw [altStep, withRunSize_go r.geometry.plen_le_size hsiz hn r.geometry.width_pos, hf]
  exact altPrev_done hvalid (s.prevAddrs_zero _ ▸ r.runAddrs_exist hn _) (r.runAddrs_exist hn _)

/-- Settles O31: the eleven forms are one step, whose checks pass; then its effect field by field. -/
theorem altPreviousEffect : Obligations.AltPreviousEffect := by
  intro i z s hform r hopc hflag hsiz hn hvalid
  obtain ⟨hx, hy, hrem⟩ := r.endRun_position (b := z.bytes) (f := true) hn
  refine ⟨s.prevDone (s.runSize z) z.bytes 0 0 true, (exec_alt hform s).trans (r.altStep_prev hflag hsiz hn hvalid),
    rfl, rfl, State.opc_next hopc, toNat_ofNat_of_lt (lt_of_le_of_lt hsiz s.plen_lt), rfl, rfl, hrem, hx, hy,
    fun k hk => ?_, s.memSameBut_paint s.prev (s.prevAddrs (s.runSize z) 0 0) (s.runSize z)⟩
  have hbyte := r.byte_prevDone z.bytes (dx := 0) (dy := 0) true (by simpa using r.x_lt) hk
  simpa [State.paintedCount] using hbyte

/-- A displaced run whose checks pass (R193, R194, R198). -/
theorem State.FrpReady.mvStep_done {s : State} (r : s.FrpReady) {z : SizeSrc} {v : Byte}
    (hv : s.byte .pmem s.frp.vec.toNat = v) (hvec : s.frp.vec.toNat < s.plen)
    (hsiz : s.frp.siz.toNat + z.bytes ≤ s.plen) (hn : s.runSize z ≤ s.frp.rem.toNat)
    (hread : 1 ≤ s.runSize z →
      s.st.prevValid = true ∧ s.motionInside (s.runSize z) (vecDx v) (vecDy v) = true) :
    mvStep z s = .next (s.prevDone (s.runSize z) z.bytes (vecDx v) (vecDy v) false).takeVec := by
  rw [mvStep_passes r.geometry.plen_le_size r.geometry.width_pos (fun _ => hsiz) hn, if_neg (by omega), hv]
  exact mvVector_done hread (r.geometry.prevAddrs_exist (fun h => (hread h).2) _) (r.runAddrs_exist hn _)

/-- Settles O32: the ten forms are one step, whose checks pass; then its effect field by field. -/
theorem mvEffect : Obligations.MvEffect := by
  intro i z s hform r hopc hsiz hn hvec n v rx ry hread
  have hmotion : 1 ≤ n → s.st.prevValid = true ∧ s.motionInside n (vecDx v) (vecDy v) = true := fun h =>
    ⟨(hread h).1, State.motionInside_iff.2 (hread h).2⟩
  obtain ⟨hx, hy, hrem⟩ := r.endRun_position (b := z.bytes) (f := false) hn
  refine ⟨(s.prevDone n z.bytes (vecDx v) (vecDy v) false).takeVec,
    (exec_mv hform s).trans (r.mvStep_done rfl hvec hsiz hn hmotion), rfl, rfl, State.opc_next hopc,
    toNat_ofNat_of_lt (lt_of_le_of_lt hsiz s.plen_lt), toNat_ofNat_of_lt (lt_of_le_of_lt hvec s.plen_lt), rfl,
    hrem, hx, hy, fun k hk => ?_, s.memSameBut_paint s.prev (s.prevAddrs n (vecDx v) (vecDy v)) n⟩
  obtain ⟨_, hx0, _, hy0, _, _⟩ := hread (by omega)
  obtain ⟨hcol, _⟩ := State.motionInside_position (hmotion (by omega)).2
  have hplace : (ry * s.w + rx).toNat = ry.toNat * s.w + rx.toNat := by
    rw [Int.toNat_add (by positivity) hx0, Int.toNat_mul hy0 (by positivity), Int.toNat_natCast]
  rw [hplace]
  exact r.byte_prevDone z.bytes false hcol hk

/-! ### Runs of size 0 (R193) -/

theorem State.setMem_memAt (s : State) (sp : Space) : s.setMem sp (s.memAt sp) = s := by
  cases sp <;> rfl

/-- A run of no pixels paints nothing. -/
theorem State.paint_zero (s : State) (sp : Space) (src : List Nat) : s.paint sp src 0 = s :=
  s.setMem_memAt s.cur

/-- The state after the end of a run of no pixels: only `FLAG`, `OPC` and the size cursor change. -/
def State.emptyRunDone (s : State) (szBytes : Nat) (flag : Bool) : State :=
  { s with frp := { s.frp with
    flag := flag
    opc := BitVec.ofNat 32 (s.frp.opc.toNat + 1)
    siz := BitVec.ofNat 32 (s.frp.siz.toNat + szBytes) } }

/-- With `X < W` a run of no pixels leaves the position (R199). -/
theorem State.endRun_zero {s : State} (hx : s.frp.x.toNat < s.w) (b : Nat) (flag : Bool) :
    s.endRun 0 b flag = s.emptyRunDone b flag := by
  simp only [State.endRun, State.emptyRunDone, Nat.add_zero, Nat.sub_zero, Nat.mod_eq_of_lt hx, Nat.div_eq_of_lt hx,
    BitVec.ofNat_toNat, BitVec.setWidth_eq]

/-- A literal run of no pixels takes no literal byte (R193). -/
theorem State.litDone_zero {s : State} (hx : s.frp.x.toNat < s.w) (b : Nat) :
    s.litDone 0 b = s.emptyRunDone b false := by
  rw [State.litDone, State.paint_zero, State.endRun_zero hx]
  simp only [State.takeLit, State.emptyRunDone, Nat.add_zero, BitVec.ofNat_toNat, BitVec.setWidth_eq]

/-- A run of no pixels of the previous frame, wherever it is displaced to (R193). -/
theorem State.prevDone_zero {s : State} (hx : s.frp.x.toNat < s.w) (b : Nat) (dx dy : Int) (flag : Bool) :
    s.prevDone 0 b dx dy flag = s.emptyRunDone b flag := by
  rw [State.prevDone, State.paint_zero, State.endRun_zero hx]

/-- An opcode `1..11` with run size 0 passes its checks without a previous frame and without a literal byte (R193). -/
theorem State.Geometry.altStep_zero {s : State} (g : s.Geometry) {z : SizeSrc} (hx : s.frp.x.toNat < s.w)
    (hz : s.runSize z = 0) (hsiz : s.frp.siz.toNat + z.bytes ≤ s.plen) (hlit : s.frp.lit.toNat ≤ s.seq.litlen.toNat) :
    altStep z s = .next (s.emptyRunDone z.bytes (!s.frp.flag)) := by
  rw [altStep, withRunSize_go g.plen_le_size hsiz (by omega) g.width_pos, hz]
  cases s.frp.flag
  · rw [← State.prevDone_zero hx z.bytes 0 0]
    exact altPrev_done (n := 0) (by omega) (List.forall_mem_nil _) (List.forall_mem_nil _)
  · rw [Bool.not_true, ← State.litDone_zero hx]
    exact altLiteral_done hlit (List.forall_mem_nil _) (List.forall_mem_nil _)

/-- An opcode `12..21` with run size 0 needs its vector byte, and no previous frame and no vector in range (R193). -/
theorem State.Geometry.mvStep_zero {s : State} (g : s.Geometry) {z : SizeSrc} (hx : s.frp.x.toNat < s.w)
    (hz : s.runSize z = 0) (hsiz : s.frp.siz.toNat + z.bytes ≤ s.plen) (hvec : s.frp.vec.toNat < s.plen) :
    mvStep z s = .next (s.emptyRunDone z.bytes false).takeVec := by
  rw [mvStep_passes g.plen_le_size g.width_pos (fun _ => hsiz) (by omega), if_neg (by omega), hz,
    ← State.prevDone_zero hx]
  exact mvVector_done (n := 0) (by omega) (List.forall_mem_nil _) (List.forall_mem_nil _)

/-- Settles O33: both kinds of run opcode end in `emptyRunDone`, which touches no memory. -/
theorem zeroSizeRuns : Obligations.ZeroSizeRuns := by
  intro i z s g hx hz hsiz hopc hlit
  have hsiz' := toNat_ofNat_of_lt (lt_of_le_of_lt hsiz s.plen_lt)
  refine ⟨fun hform => ?_, fun hform hvec => ?_⟩
  · exact ⟨s.emptyRunDone z.bytes (!s.frp.flag), (exec_alt hform s).trans (g.altStep_zero hx hz hsiz hlit),
      fun _ _ => rfl, State.opc_next hopc, hsiz', rfl⟩
  · exact ⟨(s.emptyRunDone z.bytes false).takeVec, (exec_mv hform s).trans (g.mvStep_zero hx hz hsiz hvec),
      fun _ _ => rfl, State.opc_next hopc, hsiz', toNat_ofNat_of_lt (lt_of_le_of_lt hvec s.plen_lt), rfl⟩

/-! ### The completed frame (R130, R230) -/

/-- Completion exchanges the banks (R130). -/
theorem State.complete_prev_eq_cur (s : State) : s.complete.prev = s.cur := by simp [State.prev, State.cur]

/-- With no pixel left the write position is the first column past the last row (R199, R230). -/
theorem State.FrpPhase.position_of_rem_zero {s : State} (f : s.FrpPhase) (hr : s.frp.rem.toNat = 0) :
    s.frp.x.toNat = 0 ∧ s.frp.y.toNat = s.h := by
  have hend : s.frp.x.toNat + s.w * s.frp.y.toNat = s.w * s.h := by
    rw [← State.npix_def, ← f.position, State.paintedCount, hr, Nat.mul_comm]
    omega
  have hx := congrArg (· % s.w) hend
  have hy := congrArg (· / s.w) hend
  have hw : 0 < s.w := by have := f.x_lt; omega
  simp only [Nat.add_mul_mod_self_left, Nat.mul_mod_right, Nat.mod_eq_of_lt f.x_lt] at hx
  simp only [Nat.add_mul_div_left _ _ hw, Nat.mul_div_cancel_left _ hw, Nat.div_eq_of_lt f.x_lt, Nat.zero_add] at hy
  exact ⟨hx, hy⟩

/-- Settles O39: the completion step turns `CUR`, of which exactly the pixels before the position are painted, into
`PREV`, and at `REM = 0` these are all pixels of the frame. -/
theorem completedFrameIsWhole : Obligations.CompletedFrameIsWhole := by
  intro s inv hin hp hr
  have f := inv.frp hp
  obtain ⟨hx, hy⟩ := f.position_of_rem_zero hr
  refine ⟨s.complete, step_complete hin hp hr, rfl, rfl, rfl, hx, hy, fun a => ?_⟩
  have hall : s.paintedCount = s.npix := by rw [← f.position, hr, Nat.add_zero]
  rw [State.complete_prev_eq_cur, State.complete_memAt, f.painted a, hall]
  rfl

end Sys2Proof.Machine
end

section
/-! SUPPORT. Faults: what fault entry records, that a step of FDB raises a fault and does nothing else, which causes each
instruction can raise, that a recorded fault stays, and that an idle FDB does nothing. -/

namespace Sys2Proof.Machine

/-! ### Fault entry (R241, R262) -/

/-- The codes of R241 fit the five bits of `CAUSE`. -/
theorem Cause.code_lt (c : Cause) : c.code < 2 ^ 5 := by cases c <;> decide

theorem State.raise_cause_toNat (s : State) (c : Cause) (info : Nat) : (s.raise c info).st.cause.toNat = c.code :=
  toNat_ofNat_of_lt c.code_lt

theorem State.raise_faultinfo_toNat (s : State) (c : Cause) {info : Nat} (h : info < 2 ^ 32) :
    (s.raise c info).csr.faultinfo.toNat = info := toNat_ofNat_of_lt h

/-- Settles O40: the two numbers fit their registers, and the rest is how `raise` writes the state. -/
theorem faultEntry : Obligations.FaultEntry := fun s c _ hinfo =>
  ⟨rfl, s.raise_cause_toNat c _, s.raise_faultinfo_toNat c hinfo, rfl, rfl, rfl⟩

/-! ### Idle (R275) -/

theorem fdbStep_idle {s : State} (h : s.busy = false) : fdbStep s = .next s := by
  rw [fdbStep, fetch, (State.not_busy_iff s).1 h]

/-- Settles O51: with no move of the host the step is that of an idle FDB. -/
theorem idleStays : Obligations.IdleStays := fun _ h hin => (step_of_no_inputs hin).trans (fdbStep_idle h)

/-! ### A step that raises a fault (R15, R262) -/

/-- A move of FDB after which a fault newly stands is the fault entry: idling, completion and the moves that go on with
the decode leave `FAULT` alone. -/
theorem FdbMove.eq_raise_of_fault {s t : State} (m : FdbMove s t) (h0 : s.st.fault = false) (h1 : t.st.fault = true) :
    ∃ c info, t = s.raise c info := by
  have unchanged : t.st.fault ≠ s.st.fault := by simp [h0, h1]
  rcases m.idle_or_not with ⟨_, rfl⟩ | hp
  · exact absurd rfl unchanged
  · rcases m.outcome_cases hp with hraise | ⟨_, _, rfl⟩ | ⟨_, o⟩
    · exact hraise
    · exact absurd rfl unchanged
    · exact absurd o.fault unchanged

/-- Settles O41, move by move. -/
theorem faultsArePrecise : Obligations.FaultsArePrecise := fun _ _ hin e =>
  (fdbStep_move ((step_of_no_inputs hin).symm.trans e)).eq_raise_of_fault

/-! ### The causes of each instruction (R242) -/

/-- `i`, executed from `s` to `t`, raised a cause of its row of R242 and did nothing else, or left `FAULT` alone. -/
def RaisesOnlyItsOwn (i : Instr) (s t : State) : Prop :=
  (∃ c ∈ faultsOf i, ∃ info, t = s.raise c info) ∨ t.st.fault = s.st.fault

@[simp] theorem State.lzDone_fault (s : State) (k lit : Nat) (b : Option BackRef) (term : Bool) :
    (s.lzDone k lit b term).st.fault = s.st.fault := by
  cases term <;> simp [State.lzDone]

/-- The body of an LZU instruction raises `LZ_SRC_OVERRUN` or, if it has a back-reference, `LZ_BACKREF_RANGE`. -/
theorem lzBody_raises {i : Instr} {k lit : Nat} {back : Option BackRef} {term : Bool} {s t : State}
    (hsrc : .lzSrcOverrun ∈ faultsOf i) (hback : back.isSome = true → .lzBackrefRange ∈ faultsOf i)
    (h : lzBody k lit back term s = .next t) : RaisesOnlyItsOwn i s t := by
  rcases lzBody_next h with ⟨_, rfl⟩ | ⟨_, hfar, rfl⟩ | ⟨_, _, rfl⟩
  · exact .inl ⟨_, hsrc, _, rfl⟩
  · refine .inl ⟨_, hback ?_, _, rfl⟩
    cases back with
    | none => simp [State.backTooFar] at hfar
    | some _ => rfl
  · exact .inr (s.lzDone_fault ..)

/-- `LZC` raises what its body raises; its abort raises `LZ_SRC_OVERRUN` or nothing (R172). -/
theorem exec_lzc_raises {d : BitVec 1} {r l : BitVec 2} {o1 o2 o3 : Byte} {s t : State}
    (h : exec (.lzc d r l o1 o2 o3) s = .next t) : RaisesOnlyItsOwn (.lzc d r l o1 o2 o3) s t := by
  by_cases fits : s.lzcount + lzcLit l + (lzcBack d r o1 o2 o3).run ≤ s.npix
  · rw [exec_lzc_of_fits fits] at h
    exact lzBody_raises (by simp [faultsOf]) (fun _ => by simp [faultsOf]) h
  · rw [exec_lzc_of_exceeds (by omega)] at h
    rcases lzAbort_next h with ⟨_, rfl⟩ | ⟨_, _, rfl⟩ | ⟨_, _, rfl⟩
    · exact .inr rfl
    · exact .inl ⟨_, by simp [faultsOf], _, rfl⟩
    · exact .inr (by simp)

/-- `FRP_SIZ_OVERRUN` for the opcodes that take size bytes, and for no other (R193, R242). -/
def sizeFaults (z : SizeSrc) : List Cause := if 0 < z.bytes then [.frpSizOverrun] else []

theorem faultsOf_alt {i : Instr} {z : SizeSrc} (h : (i, z) ∈ altForms) :
    faultsOf i = sizeFaults z ++ [.frpRunOverflow, .frpNoPrev, .frpLitOverrun] := by
  have all : ∀ p ∈ altForms, faultsOf p.1 = sizeFaults p.2 ++ [.frpRunOverflow, .frpNoPrev, .frpLitOverrun] := by
    decide
  exact all _ h

theorem faultsOf_mv {i : Instr} {z : SizeSrc} (h : (i, z) ∈ mvForms) :
    faultsOf i = sizeFaults z ++ [.frpRunOverflow, .frpVecOverrun, .frpNoPrev, .frpMotionRange] := by
  have all : ∀ p ∈ mvForms,
      faultsOf p.1 = sizeFaults p.2 ++ [.frpRunOverflow, .frpVecOverrun, .frpNoPrev, .frpMotionRange] := by decide
  exact all _ h

/-- Opcodes 1 to 11: the faults of `altStep_next` are those of the table, and its two runs raise none. -/
theorem exec_alt_raises {i : Instr} {z : SizeSrc} {s t : State} (hi : (i, z) ∈ altForms) (h : exec i s = .next t) :
    RaisesOnlyItsOwn i s t := by
  rw [exec_alt hi] at h
  rcases altStep_next h with ⟨c, rfl, hc⟩ | ⟨_, _, _, _, rfl, _⟩ | ⟨_, _, _, _, rfl, _⟩
  · refine .inl ⟨c, ?_, _, rfl⟩
    rw [faultsOf_alt hi]
    rcases hc with ⟨rfl, hz⟩ | rfl | rfl | rfl
    · simp [sizeFaults, hz]
    all_goals simp
  · exact .inr rfl
  · exact .inr rfl

/-- Opcodes 12 to 21: the faults of `mvStep_next` are those of the table, and its run raises none. -/
theorem exec_mv_raises {i : Instr} {z : SizeSrc} {s t : State} (hi : (i, z) ∈ mvForms) (h : exec i s = .next t) :
    RaisesOnlyItsOwn i s t := by
  rw [exec_mv hi] at h
  rcases mvStep_next h with ⟨c, rfl, hc⟩ | ⟨_, _, _, _, _, _, rfl, _⟩
  · refine .inl ⟨c, ?_, _, rfl⟩
    rw [faultsOf_mv hi]
    rcases hc with ⟨rfl, hz⟩ | rfl | rfl | rfl | rfl
    · simp [sizeFaults, hz]
    all_goals simp
  · exact .inr rfl

theorem wf_of_format_op {i : Instr} (h : i.format = .op) : i.wf = true := by
  cases i <;> first | rfl | cases h

/-- Every FRP opcode is `FLIP`, an `ALT` form or an `MV` form, since its encoding decodes to it (R105). -/
theorem op_forms {i : Instr} (h : i.format = .op) :
    i = .flip ∨ (∃ z, (i, z) ∈ altForms) ∨ ∃ z, (i, z) ∈ mvForms := by
  have hd : decode .op (encode i ++ []) = .ok (i, []) := h ▸ decodeOfEncode i [] (wf_of_format_op h)
  cases he : encode i ++ [] with
  | nil => rw [he] at hd; cases hd
  | cons c rest =>
    rw [he] at hd
    exact decodeOp_forms (decode_op_cons_eq_ok_iff.1 hd).1

theorem exec_op_raises {i : Instr} {s t : State} (hi : i.format = .op) (h : exec i s = .next t) :
    RaisesOnlyItsOwn i s t := by
  rcases op_forms hi with rfl | ⟨_, hz⟩ | ⟨_, hz⟩
  · cases h; exact .inr rfl
  · exact exec_alt_raises hz h
  · exact exec_mv_raises hz h

/-- Every instruction, by format: the marker and trie entries raise nothing, LZU by its shared body, FRP by its forms. -/
theorem exec_raises {i : Instr} {s t : State} (h : exec i s = .next t) : RaisesOnlyItsOwn i s t := by
  cases i
  case imgRaw | imgLz | endMark | node => cases h; exact .inr rfl
  case leaf v =>
    rw [exec_leaf] at h
    obtain ⟨_, h⟩ := State.needBytes_next h
    split at h <;> cases h <;> exact .inr rfl
  case lza | lzb => exact lzBody_raises (by simp [faultsOf]) (fun _ => by simp [faultsOf]) h
  case lzc => exact exec_lzc_raises h
  case lzlit | lzend => exact lzBody_raises (by simp [faultsOf]) (fun hsome => by cases hsome) h
  all_goals exact exec_op_raises rfl h

/-- Settles O42, from `exec_raises`: an instruction after which a fault newly stands did not leave `FAULT` alone. -/
theorem faultTable : Obligations.FaultTable := by
  intro i s t h h0 h1
  rcases exec_raises h with hraise | hsame
  · exact hraise
  · simp [h0, h1] at hsame

/-! ### A recorded fault (R263) -/

/-- `FAULT`, `CAUSE`, `FAULTINFO` and `PHASE`, so also `BUSY`, agree. -/
structure State.SameFault (s t : State) : Prop where
  fault : t.st.fault = s.st.fault
  cause : t.st.cause = s.st.cause
  faultinfo : t.csr.faultinfo = s.csr.faultinfo
  phase : t.seq.phase = s.seq.phase

theorem State.SameFault.busy_eq {s t : State} (h : s.SameFault t) : t.busy = s.busy :=
  congrArg (fun p => p != Phase.idle) h.phase

/-- A write of a geometry register leaves the fault record alone, whether or not it clears `PREV_VALID` (R36). -/
theorem State.SameFault.geometryChanged (s : State) {c : CsrRegs} (hc : c.faultinfo = s.csr.faultinfo) (changed : Bool) :
    s.SameFault (({ s with csr := c } : State).geometryChanged changed) := by
  cases changed <;> exact ⟨rfl, rfl, hc, rfl⟩

/-- A CSR write that starts no decode leaves the fault record alone. -/
theorem State.csrWrite_sameFault (s : State) (n : Nat) (v : Word) :
    (n = 0 ∧ v.getLsbD 0 = true) ∨ s.SameFault (s.csrWrite n v) := by
  rcases s.csrWrite_cases n v with e | ⟨_, hn, hv, _⟩ | ⟨_, c, _, hc, _, _, e⟩ | ⟨_, _, e⟩
  · rw [e]; exact .inr ⟨rfl, rfl, rfl, rfl⟩
  · exact .inl ⟨hn, hv⟩
  · rw [e]; exact .inr (.geometryChanged s hc _)
  · rw [e]; exact .inr ⟨rfl, rfl, rfl, rfl⟩

/-- Of the host's moves only START and reset touch the fault record. -/
theorem hostMove_sameFault {s t : State} {m : HostMove} (e : hostMove m s = .next t) :
    (∃ v, m = .writeCsr 0 v ∧ v.getLsbD 0 = true) ∨ m = .reset ∨ s.SameFault t := by
  cases m with
  | reset => exact .inr (.inl rfl)
  | writeCsr n v =>
    cases e
    rcases s.csrWrite_sameFault n v with ⟨rfl, hv⟩ | hsame
    · exact .inl ⟨v, rfl, hv⟩
    · exact .inr (.inr hsame)
  | readCsr n =>
    cases e
    rcases s.csrRead_cases n with ⟨_, e⟩ | ⟨_, e⟩ <;> rw [e] <;> exact .inr (.inr ⟨rfl, rfl, rfl, rfl⟩)
  | writePmem a b => obtain ⟨_, _, rfl⟩ := State.hostWriteByte_next e; exact .inr (.inr ⟨rfl, rfl, rfl, rfl⟩)
  | readPmem a => obtain ⟨_, _, rfl⟩ := State.hostReadByte_next e; exact .inr (.inr ⟨rfl, rfl, rfl, rfl⟩)
  | readBank bank a => obtain ⟨_, _, rfl⟩ := State.hostReadByte_next e; exact .inr (.inr ⟨rfl, rfl, rfl, rfl⟩)

/-- A step of an idle machine is START, reset, or one that leaves the fault record alone. -/
theorem step_sameFault {s t : State} (hb : s.busy = false) (e : step s = .next t) :
    (∃ v rest, s.inputs = some (.writeCsr 0 v) :: rest ∧ v.getLsbD 0 = true) ∨
    (∃ rest, s.inputs = some .reset :: rest) ∨ s.SameFault t := by
  rcases step_next e with ⟨ins, m⟩ | ⟨m, rest, hin, e⟩
  · rcases m.idle_or_not with ⟨_, rfl⟩ | hp
    · exact .inr (.inr ⟨rfl, rfl, rfl, rfl⟩)
    · exact absurd ((State.not_busy_iff s).1 hb) hp
  · rcases hostMove_sameFault e with ⟨v, rfl, hv⟩ | rfl | hsame
    · exact .inl ⟨v, rest, hin, hv⟩
    · exact .inr (.inl ⟨rest, hin⟩)
    · exact .inr (.inr { hsame with })

/-- Settles O43: a recorded fault leaves FDB idle, where `step_sameFault` tells the steps apart. -/
theorem faultKept : Obligations.FaultKept := fun _ _ hfault hb e =>
  (step_sameFault hb e).imp_right fun h => h.imp_right fun same =>
    ⟨same.fault.trans hfault, same.cause, same.faultinfo, same.busy_eq.trans hb⟩

end Sys2Proof.Machine
end

section
/-! SUPPORT. The host's moves on memory while idle: a write of one byte, and reads that show a byte. -/

namespace Sys2Proof.Machine

/-! ### One byte of a space written -/

theorem State.byte_write_self (s : State) (sp : Space) (a : Nat) (b : Byte) :
    (s.setMem sp ((s.memAt sp).write a b)).byte sp a = b := by
  rw [State.byte_def, State.memAt_setMem_self, Mem.byte_write_self]

/-- A write changes no byte but its own: another index of the same space, or another space. -/
theorem State.memSameBut_write (s : State) (sp : Space) (a : Nat) (b : Byte) :
    s.memSameBut (s.setMem sp ((s.memAt sp).write a b)) sp [a] := by
  intro sp' a' hout
  rw [State.byte_def, State.byte_def]
  by_cases hsp : sp' = sp
  · subst hsp
    have ha : a' ≠ a := fun ha => hout ⟨rfl, List.mem_singleton.2 ha⟩
    rw [State.memAt_setMem_self, Mem.byte_write_ne _ _ _ ha]
  · rw [s.memAt_setMem_ne _ hsp]

/-! ### What an idle machine answers (R67, R310) -/

theorem State.hostWriteByte_idle {s : State} (m : HostMove) {a : Nat} (b : Byte) (hb : s.busy = false)
    (h : a < s.size .pmem) :
    s.hostWriteByte m a b = .next (s.setMem .pmem ((s.memAt .pmem).write a b)) :=
  (if_neg (by simp [hb])).trans (State.needBytes_of_exist (by simpa using h))

theorem State.hostReadByte_idle {s : State} (m : HostMove) {sp : Space} {a : Nat} (hb : s.busy = false)
    (h : a < s.size sp) :
    s.hostReadByte m sp a = .next { s with readback := (s.byte sp a).setWidth 32 } :=
  (if_neg (by simp [hb])).trans (State.needBytes_of_exist (by simpa using h))

/-- Settles O50: each move is the access of one existing byte, which an idle machine lets through. -/
theorem idleMemoryMoves : Obligations.IdleMemoryMoves := fun s a b _ hb =>
  ⟨fun h => ⟨_, State.hostWriteByte_idle _ b hb h, s.byte_write_self .pmem a b, s.memSameBut_write .pmem a b, rfl⟩,
    State.hostReadByte_idle _ hb, State.hostReadByte_idle _ hb⟩

end Sys2Proof.Machine
end
